-- ==== Sys2Proof/Word.lean ====
section
/-! DEFINITION. The word types of the DRBG core block: bytes, byte strings and 32-bit command words (R13, R80). -/

namespace Sys2Proof

/-- A byte is 8 bits, bit 7 the most significant (R13). -/
abbrev Byte := BitVec 8

/-- A byte string, index 0 the leftmost byte (R13). -/
abbrev Bytes := List Byte

/-- A 32-bit command or micro-operation word, or a 32-bit host register (R30, R80). -/
abbrev Word := BitVec 32

end Sys2Proof
end

