-- ==== Sys2Proof/Syntax.lean ====
section
/-! DEFINITION. The instructions of the block: one constructor per row of spec/opcode_table.json (R84, R85, R86). -/

namespace Sys2Proof

/-- The four peer engines (R1). -/
inductive Engine where
  | ctr | hash | hmac | dualec
deriving DecidableEq, Repr

/-- What a host command asks of its engine: field `OP` 0, 1 and 2 of format H (R80). -/
inductive CmdOp where
  | instantiate | generate | reseed
deriving DecidableEq, Repr

/-- The twelve host commands (R84) and the fifteen micro-operations (R85).
`ai` and `pr` are the flags of R82 (a), `k` the shift count of R82 (b), `marker` the marker bit of R82 (c). -/
inductive Instr where
  -- host commands, format H
  | ctrInstantiate
  | ctrGenerate (ai pr : Bool)
  | ctrReseed (ai : Bool)
  | hashInstantiate
  | hashGenerate (ai pr : Bool)
  | hashReseed (ai : Bool)
  | hmacInstantiate
  | hmacGenerate (ai pr : Bool)
  | hmacReseed (ai : Bool)
  | dualecInstantiate
  | dualecGenerate (ai pr : Bool)
  | dualecReseed (ai : Bool)
  -- micro-operations, format M
  | incBe
  | xorInto
  | addBe
  | shrBits (k : BitVec 3)
  | shlBits (k : BitVec 3)
  | strengthChk
  | hashDf
  | blockCipherDf
  | bcc
  | ctrUpdate
  | expandKey
  | hashgen
  | hmacUpdate
  | hmacUpdatePass (marker : Bool)
  | pad8
deriving DecidableEq, Repr

/-- The engine and operation of a host command; `none` for a micro-operation (R84, R285). -/
def Instr.command : Instr → Option (Engine × CmdOp)
  | .ctrInstantiate => some (.ctr, .instantiate)
  | .ctrGenerate _ _ => some (.ctr, .generate)
  | .ctrReseed _ => some (.ctr, .reseed)
  | .hashInstantiate => some (.hash, .instantiate)
  | .hashGenerate _ _ => some (.hash, .generate)
  | .hashReseed _ => some (.hash, .reseed)
  | .hmacInstantiate => some (.hmac, .instantiate)
  | .hmacGenerate _ _ => some (.hmac, .generate)
  | .hmacReseed _ => some (.hmac, .reseed)
  | .dualecInstantiate => some (.dualec, .instantiate)
  | .dualecGenerate _ _ => some (.dualec, .generate)
  | .dualecReseed _ => some (.dualec, .reseed)
  | .incBe => none
  | .xorInto => none
  | .addBe => none
  | .shrBits _ => none
  | .shlBits _ => none
  | .strengthChk => none
  | .hashDf => none
  | .blockCipherDf => none
  | .bcc => none
  | .ctrUpdate => none
  | .expandKey => none
  | .hashgen => none
  | .hmacUpdate => none
  | .hmacUpdatePass _ => none
  | .pad8 => none

/-- Field `UNIT`, bits 31:28 of the word (R80, R81). -/
def Instr.unit : Instr → Nat
  | .ctrInstantiate => 2
  | .ctrGenerate _ _ => 2
  | .ctrReseed _ => 2
  | .hashInstantiate => 3
  | .hashGenerate _ _ => 3
  | .hashReseed _ => 3
  | .hmacInstantiate => 4
  | .hmacGenerate _ _ => 4
  | .hmacReseed _ => 4
  | .dualecInstantiate => 5
  | .dualecGenerate _ _ => 5
  | .dualecReseed _ => 5
  | .incBe => 0
  | .xorInto => 0
  | .addBe => 0
  | .shrBits _ => 0
  | .shlBits _ => 0
  | .strengthChk => 0
  | .hashDf => 1
  | .blockCipherDf => 1
  | .bcc => 1
  | .ctrUpdate => 2
  | .expandKey => 2
  | .hashgen => 3
  | .hmacUpdate => 4
  | .hmacUpdatePass _ => 4
  | .pad8 => 5

/-- Field `OP`, bits 27:24 of the word (R84, R85). -/
def Instr.op : Instr → Nat
  | .ctrInstantiate => 0
  | .ctrGenerate _ _ => 1
  | .ctrReseed _ => 2
  | .hashInstantiate => 0
  | .hashGenerate _ _ => 1
  | .hashReseed _ => 2
  | .hmacInstantiate => 0
  | .hmacGenerate _ _ => 1
  | .hmacReseed _ => 2
  | .dualecInstantiate => 0
  | .dualecGenerate _ _ => 1
  | .dualecReseed _ => 2
  | .incBe => 0
  | .xorInto => 1
  | .addBe => 2
  | .shrBits _ => 3
  | .shlBits _ => 4
  | .strengthChk => 8
  | .hashDf => 0
  | .blockCipherDf => 1
  | .bcc => 2
  | .ctrUpdate => 8
  | .expandKey => 9
  | .hashgen => 8
  | .hmacUpdate => 8
  | .hmacUpdatePass _ => 9
  | .pad8 => 8

end Sys2Proof
end

