-- ==== Sys2Proof/Config.lean ====
section
/-! DEFINITION. What an implementation fixes and what the spec leaves free: the descriptors of R6, the platform
parameters of R12, the primitive functions of R66 and the free values of log entry 3. -/

namespace Sys2Proof

/-- The constants of the descriptor `CTR_CIPHER` (R6). `expandTakes` is the key length in bytes that
`expand_key` takes (R140: 21 in the default mapping). -/
structure CtrCipher where
  keysizeBits   : Nat
  blocksizeBits : Nat
  isTdea        : Bool
  maxStrength   : Nat
  expandTakes   : Nat
deriving DecidableEq, Repr, Inhabited

/-- The constants of the descriptor `HASH_DIGEST` (R6); `digestSize` in bytes, `seedlen` in bits. -/
structure HashDigest where
  digestSize  : Nat
  seedlen     : Nat
  maxStrength : Nat
deriving DecidableEq, Repr, Inhabited

/-- The constants of the descriptor `HMAC_MAC` (R6); `maxStrength` is that of the base digest (R10). -/
structure HmacMac where
  macSize     : Nat
  maxStrength : Nat
deriving DecidableEq, Repr, Inhabited

/-- The constants of the descriptor `DUALEC_DIGEST` (R6). -/
structure DualEcDigest where
  digestSize  : Nat
  maxStrength : Nat
deriving DecidableEq, Repr, Inhabited

/-- A curve point: a pair of integers below the field prime (R24). -/
structure Point where
  x : Nat
  y : Nat
deriving DecidableEq, Repr, Inhabited

/-- One row of the descriptor `DUALEC_CURVES` (R6, R9): `seedlen` in bits, `outlen` in bytes, the field prime of the
curve (R24, R66), the base points.
`pOrder` and `qOrder` are the orders of the two points: `k * Pt` is the point at infinity exactly when the order
divides `k` (R66; log entry 5). -/
structure Curve where
  seedlen : Nat
  outlen  : Nat
  prime   : Nat
  p       : Point
  q       : Point
  pOrder  : Nat
  qOrder  : Nat
deriving DecidableEq, Repr, Inhabited

/-- Which row of R9 the Dual-EC engine uses: the values 0, 1 and 2 of `DUALEC.row` (R24). -/
inductive Row where
  | p256 | p384 | p521
deriving DecidableEq, Repr, Inhabited

/-- Everything about a build that is plain data: the descriptors' constants (R6), the platform parameters
(R12) and which engines are present (D1). It never changes while the block runs. -/
structure Build where
  ctr         : CtrCipher
  hash        : HashDigest
  hmac        : HmacMac
  dualec      : DualEcDigest
  p256        : Curve
  p384        : Curve
  p521        : Curve
  entropyBits : Nat
  persCap     : Nat
  nonceCap    : Nat
  aiCap       : Nat
  outCap      : Nat
  hasCtr      : Bool
  hasHash     : Bool
  hasHmac     : Bool
  hasDualec   : Bool
deriving DecidableEq, Repr, Inhabited

/-- The primitive port: the pure functions of the descriptors (R6, R66). A result is used through
Machine/Operands.lean, which gives it the length R66 states; `ecMulX` is not asked for the point at infinity. -/
structure Prims where
  /-- `BlockEncrypt(cipher key, block)`. -/
  blockEncrypt : Bytes → Bytes → Bytes
  /-- `CTR_CIPHER.expand_key(stored key)`. -/
  expandKey    : Bytes → Bytes
  /-- `HASH_DIGEST.Hash(msg)`. -/
  hash         : Bytes → Bytes
  /-- `HMAC_MAC.Mac(key, msg)`. -/
  mac          : Bytes → Bytes → Bytes
  /-- `DUALEC_DIGEST.Hash(msg)`. -/
  dualecHash   : Bytes → Bytes
  /-- `ECMulX(Point, k)` on the curve of a row. -/
  ecMulX       : Row → Point → Nat → Nat
deriving Inhabited

/-- The primitives of the block, which the spec takes as parameters (R5, R66, U14): no body, so nothing can be
proved of them but what the port guarantees. -/
opaque Config.prims : Prims

/-- The plain-data parameters of the block as its builder wrote them (U14): no body. Only a legal build is a
block (Machine/Params.lean, `elaborated`). -/
opaque Config.rawBuild : Build

/-- Free values for what is unspecified after a reset and after a halt (U7, U8, U12; log entry 3). State's
counter `freeCount` makes every draw a fresh one. -/
opaque Config.free : Nat → Nat

end Sys2Proof
end

