-- ==== Sys2Proof/Machine/Bytes.lean ====
section
/-! DEFINITION. Byte strings and their big-endian integer view (R13, R14). -/

namespace Sys2Proof.Machine

/-- `be(B)`: the unsigned big-endian value of a byte string (R14). -/
def be : Bytes → Nat
  | [] => 0
  | b :: bs => b.toNat * 256 ^ bs.length + be bs

/-- `to_be(n, x)`: the `n`-byte string whose value is `x mod 256^n` (R14). -/
def toBE : Nat → Nat → Bytes
  | 0, _ => []
  | n + 1, x => BitVec.ofNat 8 (x / 256 ^ n) :: toBE n x

/-- `fill(n, c)` (R13). -/
def fill (n : Nat) (c : Byte) : Bytes := List.replicate n c

/-- `zeros(n)` (R13). -/
def zeros (n : Nat) : Bytes := fill n 0

/-- `ceil(a / b)` (R15). -/
def ceilDiv (a b : Nat) : Nat := (a + b - 1) / b

/-- A byte string at exactly `n` bytes; a string that has `n` bytes is unchanged. The primitive port uses
it to give a result the length R66 states. -/
def fit (n : Nat) (bs : Bytes) : Bytes := bs.take n ++ zeros (n - bs.length)

/-- Parity of the upper seven bits of a byte: true when an odd number of them is 1 (R140). -/
def upperParity (b : Byte) : Bool :=
  b.getLsbD 1 ^^ b.getLsbD 2 ^^ b.getLsbD 3 ^^ b.getLsbD 4 ^^ b.getLsbD 5 ^^ b.getLsbD 6 ^^ b.getLsbD 7

/-- A byte with its bit 0 set so that the number of one bits is odd; a byte of odd parity is unchanged (R140). -/
def oddParity (b : Byte) : Byte := (b &&& 0xFE) ||| (BitVec.ofBool (!upperParity b)).setWidth 8

end Sys2Proof.Machine
end

