-- ==== Sys2Proof/Machine/Params.lean ====
section
/-! DEFINITION. The constants derived from a build (R7 to R10) and which builds are legal (R6, R12, R277). -/

namespace Sys2Proof.Machine

/-- `CTR.seedlen` in bits (R7). -/
def ctrSeedlen (c : CtrCipher) : Nat := c.keysizeBits + c.blocksizeBits

/-- `CTR.key_bytes` (R7). -/
def ctrKeyBytes (c : CtrCipher) : Nat := ceilDiv c.keysizeBits 8

/-- `CTR.block_bytes` (R7). -/
def ctrBlockBytes (c : CtrCipher) : Nat := c.blocksizeBits / 8

/-- `CTR.seed_bytes` (R7). -/
def ctrSeedBytes (c : CtrCipher) : Nat := ceilDiv (ctrSeedlen c) 8

/-- `HASH.seed_bytes` (R8). -/
def hashSeedBytes (h : HashDigest) : Nat := ceilDiv h.seedlen 8

/-- `DUALEC.seed_bytes` of a row (R9). -/
def curveSeedBytes (c : Curve) : Nat := ceilDiv c.seedlen 8

/-- The row of `DUALEC_CURVES` (R9). -/
def curveOf (b : Build) : Row → Curve
  | .p256 => b.p256
  | .p384 => b.p384
  | .p521 => b.p521

/-- The row chosen by the requested strength: the first whose bound is not below it (R9, R215). -/
def rowFor (strength : Nat) : Row :=
  if strength ≤ 128 then .p256 else if strength ≤ 192 then .p384 else .p521

/-- `CTR.reseed_interval` (R7), `HASH.reseed_interval`, `HMAC.reseed_interval` (R8) and
`DUALEC.reseed_interval` (R9). -/
def reseedInterval (b : Build) : Engine → Nat
  | .ctr => if b.ctr.isTdea then 2 ^ 31 else 2 ^ 47
  | .hash => 2 ^ 47
  | .hmac => 2 ^ 47
  | .dualec => 2 ^ 31

/-- The largest request in bits; none is stated for Dual-EC (R7, R8, R211). -/
def maxRequestBits (b : Build) : Engine → Option Nat
  | .ctr => some (if b.ctr.isTdea then 2 ^ 12 else 2 ^ 18)
  | .hash => some (2 ^ 18)
  | .hmac => some (2 ^ 18)
  | .dualec => none

/-- The largest additional input in bits, stated for Dual-EC alone (R9, R211, R275). -/
def maxAiBits : Engine → Option Nat
  | .ctr => none
  | .hash => none
  | .hmac => none
  | .dualec => some (2 ^ 12)

/-- `max_strength(E)` (R248). -/
def maxStrength (b : Build) : Engine → Nat
  | .ctr => b.ctr.maxStrength
  | .hash => b.hash.maxStrength
  | .hmac => b.hmac.maxStrength
  | .dualec => b.dualec.maxStrength

/-- The engines whose algorithm bounds the strength by 256 (R248). -/
def fixedStrengthBound : Engine → Option Nat
  | .ctr => some 256
  | .hash => none
  | .hmac => none
  | .dualec => some 256

/-- Is the engine present in the build (D1, R87 (e))? -/
def hasEngine (b : Build) : Engine → Bool
  | .ctr => b.hasCtr
  | .hash => b.hasHash
  | .hmac => b.hasHmac
  | .dualec => b.hasDualec

/-- `CTR_CIPHER` is legal: a block of whole bytes and at least 32 bits (R6), a key of at most 256 bits that makes
`seedlen` a whole number of bytes (R123, R277), and for TDEA a stored key shorter than 192 bits that `expand_key`
takes (C12, R140). -/
def ctrLegal (c : CtrCipher) : Bool :=
  c.blocksizeBits % 8 == 0 && 32 ≤ c.blocksizeBits && c.keysizeBits % 8 == 0 && c.keysizeBits ≤ 256 &&
    (!c.isTdea || (c.keysizeBits < 192 && c.expandTakes == ctrKeyBytes c))

/-- `HASH_DIGEST` is legal: `seedlen` 440 or 888 (R8), `digest_size <= seed_bytes` (R108) and
`seed_bytes < 255 * digest_size` (R277). -/
def hashLegal (h : HashDigest) : Bool :=
  (h.seedlen == 440 || h.seedlen == 888) && h.digestSize ≤ hashSeedBytes h && hashSeedBytes h < 255 * h.digestSize

/-- A curve point is a pair of integers below the field prime (R24). -/
def pointBelow (prime : Nat) (pt : Point) : Bool := pt.x < prime && pt.y < prime

/-- A row of R9 has its stated `seedlen` and `outlen`, the digest covers it (R277), the field prime is below
`2^seedlen` (R219 (f)), and both base points are below the prime (R24). -/
def curveLegal (d : DualEcDigest) (c : Curve) (seedlen outlen : Nat) : Bool :=
  c.seedlen == seedlen && c.outlen == outlen && curveSeedBytes c < 255 * d.digestSize &&
    (c.prime < 2 ^ c.seedlen && pointBelow c.prime c.p && pointBelow c.prime c.q)

/-- A legal build: legal descriptors, and the capacities of R12. -/
def buildLegal (b : Build) : Bool :=
  ctrLegal b.ctr && hashLegal b.hash && 0 < b.hmac.macSize &&
    curveLegal b.dualec b.p256 256 30 && curveLegal b.dualec b.p384 384 46 && curveLegal b.dualec b.p521 521 63 &&
    32768 ≤ b.outCap && (!b.hasDualec || 512 ≤ b.aiCap)

/-- A legal build that exists: it stands in where the builder's record is none. DESIGN CHOICE (log entry 2): every value
in it that the spec leaves open: AES-128, SHA-256 and HMAC-SHA-256 with the sizes of R11 and the strengths suggested in
R10, `ENTROPY_BITS` 256, `PERS_CAP`, `NONCE_CAP` and `AI_CAP` 512 and `OUT_CAP` 32768 (R12), base points (0, 0) with
orders 0 (R9), and all four engines present (D1). PRESUMED (log entry 2): the field primes of P-256, P-384 and P-521. -/
def referenceBuild : Build :=
  { ctr := ⟨128, 128, false, 128, 0⟩, hash := ⟨32, 440, 256⟩, hmac := ⟨32, 256⟩, dualec := ⟨32, 256⟩,
    p256 := ⟨256, 30, 2 ^ 256 - 2 ^ 224 + 2 ^ 192 + 2 ^ 96 - 1, ⟨0, 0⟩, ⟨0, 0⟩, 0, 0⟩,
    p384 := ⟨384, 46, 2 ^ 384 - 2 ^ 128 - 2 ^ 96 + 2 ^ 32 - 1, ⟨0, 0⟩, ⟨0, 0⟩, 0, 0⟩,
    p521 := ⟨521, 63, 2 ^ 521 - 1, ⟨0, 0⟩, ⟨0, 0⟩, 0, 0⟩,
    entropyBits := 256, persCap := 512, nonceCap := 512, aiCap := 512, outCap := 32768,
    hasCtr := true, hasHash := true, hasHmac := true, hasDualec := true }

/-- The build of the block: the builder's record, which is legal (log entry 2). -/
def elaborated : Build := if buildLegal Config.rawBuild then Config.rawBuild else referenceBuild

end Sys2Proof.Machine
end

