-- ==== Sys2Proof/Machine/State.lean ====
section
/-! DEFINITION. The state of the block: working registers, phases, host registers, hidden latches, buffers, the
ports' pending inputs and outputs, and the reasons a step can stop. -/

namespace Sys2Proof.Machine

/-- The phase register of an engine, values 0 to 3 (R29, R240). -/
inductive Phase where
  | uninit | seeded | generating | reseedRequired
deriving DecidableEq, Repr

/-- The phases of the four engines (R29). -/
structure Phases where
  ctr    : Phase
  hash   : Phase
  hmac   : Phase
  dualec : Phase
deriving DecidableEq, Repr

/-- The outcome codes 0 to 9 (R270); codes 10 to 15 never appear in `ERR`, so the type has none. -/
inductive Code where
  | ok | reseedRequired | strengthNotSupported | entropyUnderProvisioned | requestTooLarge
  | inputTooLarge | entropyFailure | contractViolation | illegalCommand | illegalState
deriving DecidableEq, Repr

/-- The working registers of the CTR engine (R21); `CTR.is_tdea` is the build's constant. -/
structure CtrRegs where
  key           : Bytes
  v             : Bytes
  reseedCounter : BitVec 64
deriving DecidableEq, Repr

/-- The working registers of the Hash engine (R22). -/
structure HashRegs where
  v             : Bytes
  c             : Bytes
  reseedCounter : BitVec 64
deriving DecidableEq, Repr

/-- The working registers of the HMAC engine (R23). -/
structure HmacRegs where
  k             : Bytes
  v             : Bytes
  reseedCounter : BitVec 64
deriving DecidableEq, Repr

/-- The working registers of the Dual-EC engine (R24); `p`, `q` and `outlen` are constants of the row. -/
structure DualecRegs where
  s             : Bytes
  row           : Row
  reseedCounter : BitVec 64
deriving DecidableEq, Repr

/-- The buffers (R60). -/
inductive Space where
  | pers | nonce | ai | out
deriving DecidableEq, Repr

/-- The bytes of one buffer, as (offset, byte) cells in canonical form (Machine/Ops.lean). -/
abbrev Memory := List Host.Cell

/-- What is latched when a command word is accepted (R39 (a), R243): the word, the operand registers, and the
addressed engine with `p0`, the phase it had; no target when the word names no command of a present engine. -/
structure Latch where
  word     : Word
  strength : Word
  outLen   : Word
  aiLen    : Word
  persLen  : Word
  nonceLen : Word
  target   : Option (Engine × Phase)
deriving DecidableEq, Repr

/-- Which digest a `HASH_DF` micro-operation uses: "the engine's `Hash`" (R120). -/
inductive DigestSel where
  | hashDigest | dualecDigest
deriving DecidableEq, Repr

/-- The operands and the result of the micro-operation in hand: temporaries of a command (R39 (b), R83). The
rule of each micro-operation says which it reads. -/
structure Datapath where
  /-- The first byte-string operand: `buf`, `longer`, `a`, `seed_material`, `input`, `K`, `key`, `seed`, `v`, `s`. -/
  bufA     : Bytes
  /-- The second byte-string operand: `shorter`, `b`, `data`. -/
  bufB     : Bytes
  /-- `dst_len` (R101), `out_bytes` (R170). -/
  len      : Nat
  /-- `b_offset` (R101). -/
  offset   : Nat
  /-- `out_bit_len` (R120, R123). -/
  bits     : Word
  /-- `material` (R190, R191). -/
  material : Option Bytes
  /-- The digest of `HASH_DF` (R120). -/
  digest   : DigestSel
  /-- The engine `E` of `STRENGTH_CHK` (R248). -/
  engine   : Engine
  /-- The result of a unit that does not work in place. -/
  res      : Bytes
deriving DecidableEq, Repr

/-- One answer of the entropy source to `GetEntropy()` (R65). -/
inductive EntropyAnswer where
  | ok (bytes : Bytes)
  | fail
deriving DecidableEq, Repr

/-- The host's five steps (R90). -/
inductive HostStep where
  | wr (reg : Nat) (value : Word)
  | rd (reg : Nat)
  | fill (space : Space) (bytes : Bytes)
  | dump (space : Space) (n : Nat)
  | poll
deriving DecidableEq, Repr

/-- What the outside world does next. `block`: nothing, so the block has the turn. `entropy`: the source has
an answer ready. `reset`: the hardware reset (R300). -/
inductive Input where
  | host (h : HostStep)
  | block
  | entropy (a : EntropyAnswer)
  | reset
deriving DecidableEq, Repr

/-- The whole state of the block. The last five fields are the model's own: what the outside world will do
(`agenda`, `entropy`), what the host has last read (`hostReg`, `hostBytes`), and the draw counter of the free
values (`freeCount`). -/
structure State where
  build    : Build
  ctr      : CtrRegs
  hash     : HashRegs
  hmac     : HmacRegs
  dualec   : DualecRegs
  phases   : Phases
  cmd      : Word
  result   : BitVec 64
  strength : Word
  outLen   : Word
  aiLen    : Word
  persLen  : Word
  nonceLen : Word
  halt     : Bool
  err      : Code
  inflight : Option Latch
  uop      : Option Word
  dp       : Datapath
  pers     : Memory
  nonce    : Memory
  ai       : Memory
  out      : Memory
  agenda    : List Input
  entropy   : List EntropyAnswer
  hostReg   : BitVec 64
  hostBytes : Bytes
  freeCount : Nat
deriving DecidableEq, Repr

/-- Why the machine stops with a fault. -/
inductive Fault where
  /-- Raised by a host access, other than a read of `STATUS`, while `BUSY = 1`: a defect of the host program,
  which the spec does not define further (R310, U1). Safe: the hardware goes on in some way. -/
  | hostHazard
  /-- Raised by a host access to a buffer offset at or above the capacity: there is no such byte (R60, R12).
  Safe: the hardware goes on in some way. -/
  | noSuchByte (space : Space)
deriving DecidableEq, Repr

/-- Why the machine refuses. -/
inductive Refusal where
  /-- An instruction of the opcode table that has no meaning yet. Safe: nothing is claimed of it. -/
  | notModelled (mnemonic : String)
  /-- Raised by a host access to a register number 8 or above, which does not exist: "the model refuses an
  access to one" (R30, U15). Safe: the spec gives the access no effect. -/
  | noSuchRegister (reg : Nat)
deriving DecidableEq, Repr

/-- The temporaries at reset: empty, a value of the model (log entry 1). -/
def Datapath.atReset : Datapath :=
  { bufA := [], bufB := [], len := 0, offset := 0, bits := 0, material := none, digest := .hashDigest,
    engine := .ctr, res := [] }

/-- A block of the given build right after reset (R40, R300): every phase `UNINIT`, every host register 0, no
command in flight. The spec gives the working registers no value and the buffers no contents; the zeros here are
the model's (log entries 1 and 4). -/
def State.resetOf (b : Build) : State :=
  { build := b
    ctr := ⟨zeros (ctrKeyBytes b.ctr), zeros (ctrBlockBytes b.ctr), 0⟩
    hash := ⟨zeros (hashSeedBytes b.hash), zeros (hashSeedBytes b.hash), 0⟩
    hmac := ⟨zeros b.hmac.macSize, zeros b.hmac.macSize, 0⟩
    dualec := ⟨zeros (curveSeedBytes b.p256), .p256, 0⟩
    phases := ⟨.uninit, .uninit, .uninit, .uninit⟩
    cmd := 0, result := 0, strength := 0, outLen := 0, aiLen := 0, persLen := 0, nonceLen := 0
    halt := false, err := .ok, inflight := none, uop := none, dp := Datapath.atReset
    pers := [], nonce := [], ai := [], out := []
    agenda := [], entropy := [], hostReg := 0, hostBytes := [], freeCount := 0 }

/-- The block right after reset: `State.resetOf` at its build. -/
def State.reset : State := State.resetOf elaborated

end Sys2Proof.Machine
end

