-- ==== Sys2Proof/Machine/Flags.lean ====
section
/-! DEFINITION. The status register and the codes in it. The block has no condition codes (R36): its one-bit items
are `BUSY` and `HALT`, and `STATUS` collects them with the phases and `ERR` (R32). -/

namespace Sys2Proof.Machine

/-- The value of a phase in `STATUS` (R29). -/
def Phase.number : Phase → Nat
  | .uninit => 0
  | .seeded => 1
  | .generating => 2
  | .reseedRequired => 3

/-- The code of an outcome (R270). -/
def Code.number : Code → Nat
  | .ok => 0
  | .reseedRequired => 1
  | .strengthNotSupported => 2
  | .entropyUnderProvisioned => 3
  | .requestTooLarge => 4
  | .inputTooLarge => 5
  | .entropyFailure => 6
  | .contractViolation => 7
  | .illegalCommand => 8
  | .illegalState => 9

/-- The `RESULT` of a command that does not succeed: `sext_64(-code)` (R271). -/
def codeResult (c : Code) : BitVec 64 := -BitVec.ofNat 64 c.number

/-- `STATUS.BUSY`: a command has been accepted and has not completed (R32), or the sequencer has issued a
micro-operation, which it does only while `BUSY = 1` (R285). -/
def State.busy (s : State) : Bool := s.inflight.isSome || s.uop.isSome

/-- A one-bit field as a number. -/
def bit (b : Bool) : Nat := if b then 1 else 0

/-- The word a read of `STATUS` returns (R32); the reserved bits read 0. -/
def State.status (s : State) : Word :=
  BitVec.ofNat 32 (s.phases.ctr.number + s.phases.hash.number * 2 ^ 2 + s.phases.hmac.number * 2 ^ 4 +
    s.phases.dualec.number * 2 ^ 6 + bit s.busy * 2 ^ 8 + bit s.halt * 2 ^ 9 + s.err.number * 2 ^ 12)

end Sys2Proof.Machine
end

