-- ==== Sys2Proof/Machine/Ops.lean ====
section
/-! DEFINITION. The named operations over buffers, phases and registers, the completion of a command, the one shared
operation that ends a command with an outcome (the block's exception entry, R271, R282), and hardware reset, the
only way out of a halt (R284, R300). -/

namespace Sys2Proof.Machine

/-! ## Buffers (R60, R69) -/

/-- What an offset that is not listed reads as. The spec leaves buffers unspecified after reset; the value is the
model's (log entry 4). -/
def unlisted : Byte := 0

/-- One byte of a buffer. -/
def Memory.read : Memory → Nat → Byte
  | [], _ => unlisted
  | (k, b) :: rest, a => if k = a then b else Memory.read rest a

/-- Writes one byte and keeps the canonical form: writing what an unlisted offset reads as removes the entry. -/
def Memory.write : Memory → Nat → Byte → Memory
  | [], a, b => if b = unlisted then [] else [(a, b)]
  | (k, c) :: rest, a, b =>
    if a < k then (if b = unlisted then (k, c) :: rest else (a, b) :: (k, c) :: rest)
    else if a = k then (if b = unlisted then rest else (a, b) :: rest)
    else (k, c) :: Memory.write rest a b

/-- `MemRead(space, a, n)`: lowest offset leftmost (R15). -/
def Memory.readBytes (m : Memory) (a : Nat) : Nat → Bytes
  | 0 => []
  | n + 1 => Memory.read m a :: Memory.readBytes m (a + 1) n

/-- `MemWrite(space, a, len(v), v)` (R15). -/
def Memory.writeBytes (m : Memory) (a : Nat) : Bytes → Memory
  | [] => m
  | b :: bs => Memory.writeBytes (Memory.write m a b) (a + 1) bs

/-- The canonical form: offsets strictly rising, no entry equal to what an unlisted offset reads as. -/
def Memory.wf (m : Memory) : Bool :=
  decide (m.Pairwise fun x y => x.1 < y.1) && m.all fun c => c.2 != unlisted

/-- No byte is listed at or above the capacity: there is none (R60). -/
def Memory.within (cap : Nat) (m : Memory) : Bool := m.all fun c => decide (c.1 < cap)

/-- The capacity of a buffer (R12, R60). -/
def capacity (b : Build) : Space → Nat
  | .pers => b.persCap
  | .nonce => b.nonceCap
  | .ai => b.aiCap
  | .out => b.outCap

/-- A buffer of the state. -/
def State.buffer (s : State) : Space → Memory
  | .pers => s.pers
  | .nonce => s.nonce
  | .ai => s.ai
  | .out => s.out

/-- Writes bytes into a buffer from offset 0 (R69 (b), R90). -/
def State.fillBuffer (sp : Space) (bytes : Bytes) (s : State) : State :=
  match sp with
  | .pers => { s with pers := Memory.writeBytes s.pers 0 bytes }
  | .nonce => { s with nonce := Memory.writeBytes s.nonce 0 bytes }
  | .ai => { s with ai := Memory.writeBytes s.ai 0 bytes }
  | .out => { s with out := Memory.writeBytes s.out 0 bytes }

/-! ## Phases (R29, R241) -/

/-- The phase of an engine. -/
def Phases.get (p : Phases) : Engine → Phase
  | .ctr => p.ctr
  | .hash => p.hash
  | .hmac => p.hmac
  | .dualec => p.dualec

/-- The phases with that of one engine replaced. -/
def Phases.set (p : Phases) (e : Engine) (x : Phase) : Phases :=
  match e with
  | .ctr => { p with ctr := x }
  | .hash => { p with hash := x }
  | .hmac => { p with hmac := x }
  | .dualec => { p with dualec := x }

/-- The addressed engine of the command in flight with its `p0`, if there is one (R243). -/
def State.target (s : State) : Option (Engine × Phase) := s.inflight.bind (·.target)

/-- `p0`: the phase the engine had when the command in flight was accepted (R241); with no command in flight on
the engine, the phase it has. -/
def State.p0 (s : State) (e : Engine) : Phase :=
  match s.target with
  | some (e', p) => if e' = e then p else s.phases.get e
  | none => s.phases.get e

/-! ## Free values (U7, U8; log entry 3) -/

/-- Working registers of the CTR engine with no known value; the widths are the registers' (R25 (c)). -/
def freeCtr (b : Build) (n : Nat) : CtrRegs :=
  ⟨toBE (ctrKeyBytes b.ctr) (Config.free n), toBE (ctrBlockBytes b.ctr) (Config.free (n + 1)),
    BitVec.ofNat 64 (Config.free (n + 2))⟩

/-- Working registers of the Hash engine with no known value. -/
def freeHash (b : Build) (n : Nat) : HashRegs :=
  ⟨toBE (hashSeedBytes b.hash) (Config.free n), toBE (hashSeedBytes b.hash) (Config.free (n + 1)),
    BitVec.ofNat 64 (Config.free (n + 2))⟩

/-- Working registers of the HMAC engine with no known value. -/
def freeHmac (b : Build) (n : Nat) : HmacRegs :=
  ⟨toBE b.hmac.macSize (Config.free n), toBE b.hmac.macSize (Config.free (n + 1)),
    BitVec.ofNat 64 (Config.free (n + 2))⟩

/-- A row of R9 with no known value. -/
def freeRow (n : Nat) : Row :=
  if Config.free n % 3 = 0 then .p256 else if Config.free n % 3 = 1 then .p384 else .p521

/-- Working registers of the Dual-EC engine with no known value. -/
def freeDualec (b : Build) (n : Nat) : DualecRegs :=
  ⟨toBE (curveSeedBytes (curveOf b (freeRow n))) (Config.free (n + 1)), freeRow n,
    BitVec.ofNat 64 (Config.free (n + 2))⟩

/-- A buffer with no known contents. -/
def freeMemory (cap n : Nat) : Memory := Memory.writeBytes [] 0 (toBE cap (Config.free n))

/-- After a contract violation the working state of the addressed engine and the contents of `OUT` are
unspecified (R277, U8): both become free values. -/
def State.spoil (e : Option Engine) (s : State) : State :=
  { s with
    ctr := if e = some .ctr then freeCtr s.build s.freeCount else s.ctr
    hash := if e = some .hash then freeHash s.build s.freeCount else s.hash
    hmac := if e = some .hmac then freeHmac s.build s.freeCount else s.hmac
    dualec := if e = some .dualec then freeDualec s.build s.freeCount else s.dualec
    out := freeMemory s.build.outCap (s.freeCount + 3)
    freeCount := s.freeCount + 4 }

/-! ## Completion (R244, R252) and the outcomes (R271) -/

/-- The end of a command: `ERR`, `RESULT` and the phases are written and `BUSY` falls (R244). DESIGN CHOICE (log
entry 16): the temporaries `dp` stay as they are, where the spec lets them hold any value after a command (R39 (b),
U12). -/
def State.finish (c : Code) (r : BitVec 64) (ph : Phases) (s : State) : State :=
  { s with err := c, result := r, phases := ph, inflight := none, uop := none }

/-- A command succeeds: `ERR = 0`, the `RESULT` of R252, and the engine is `SEEDED` (R241). -/
def State.succeed (e : Engine) (r : Nat) (s : State) : State :=
  s.finish .ok (BitVec.ofNat 64 r) (s.phases.set e .seeded)

/-- The phases after a command of engine `e` ended with an outcome other than success (R241): `RESEED_REQUIRED`
after the reseed-required signal, as it stands after a contract violation, else `p0`. -/
def State.phasesAfter (e : Option Engine) (c : Code) (s : State) : Phases :=
  match e, c with
  | none, _ => s.phases
  | some _, .contractViolation => s.phases
  | some e, .reseedRequired => s.phases.set e .reseedRequired
  | some e, _ => s.phases.set e (s.p0 e)

/-- TAKING AN OUTCOME, the block's exception entry: `ERR` is the code, `RESULT` its negative, the phase follows
R241, `BUSY` falls, and nothing else is written (R271, R282); a contract violation also halts the block and
leaves the engine's working state and `OUT` unspecified (R277). -/
def State.raise (e : Option Engine) (c : Code) (s : State) : State :=
  if c = .contractViolation then
    State.finish c (codeResult c) (s.phasesAfter e c) { s.spoil e with halt := true }
  else
    s.finish c (codeResult c) (s.phasesAfter e c)

/-- Hardware reset (R300), the only way to clear `HALT` and to return an engine to `UNINIT`: phases and host
registers as R40 states, a command in flight abandoned; working registers and buffers hold free values, since
neither zeroisation nor survival may be assumed (R301). The ports' pending inputs are outside the block. -/
def State.hwReset (s : State) : State :=
  { s with
    phases := ⟨.uninit, .uninit, .uninit, .uninit⟩
    cmd := 0, result := 0, strength := 0, outLen := 0, aiLen := 0, persLen := 0, nonceLen := 0
    halt := false, err := .ok, inflight := none, uop := none
    ctr := freeCtr s.build s.freeCount
    hash := freeHash s.build (s.freeCount + 3)
    hmac := freeHmac s.build (s.freeCount + 6)
    dualec := freeDualec s.build (s.freeCount + 9)
    pers := freeMemory s.build.persCap (s.freeCount + 12)
    nonce := freeMemory s.build.nonceCap (s.freeCount + 13)
    ai := freeMemory s.build.aiCap (s.freeCount + 14)
    out := freeMemory s.build.outCap (s.freeCount + 15)
    freeCount := s.freeCount + 16 }

/-- `GetEntropy()` inside a command of engine `e` (R65): `Ok(E)` goes on with `E`, `Fail` ends the command with
`EntropyFailure` (R276), and while the source has not answered the block makes no move: `BUSY` stays 1 (R311). -/
def State.withEntropy (e : Engine) (k : Bytes → State → State) (s : State) : State :=
  match s.entropy with
  | [] => s
  | .fail :: rest => State.raise (some e) .entropyFailure { s with entropy := rest }
  | .ok bytes :: rest => k bytes { s with entropy := rest }

end Sys2Proof.Machine
end

