-- ==== Sys2Proof/Machine/Operands.lean ====
section
/-! DEFINITION. Every operand form: the latched registers (R243), the input strings and the output store (R69, R83),
the operands and results of the micro-operations, and the primitive port (R66). -/

namespace Sys2Proof.Machine

/-! ## Host commands (R83, R243) -/

/-- The operand registers a command reads: those latched at acceptance. Where no command is in flight, acceptance
is part of the step and the registers stand for the latch (R39 (a), R244). -/
def State.operands (s : State) : Latch :=
  match s.inflight with
  | some l => l
  | none => ⟨s.cmd, s.strength, s.outLen, s.aiLen, s.persLen, s.nonceLen, none⟩

/-- `STRENGTH`, in bits (R33). -/
def State.strengthOp (s : State) : Nat := s.operands.strength.toNat

/-- `OUT_LEN`, in bytes (R35). -/
def State.outLenOp (s : State) : Nat := s.operands.outLen.toNat

/-- `AI_LEN`, in bytes (R35). -/
def State.aiLenOp (s : State) : Nat := s.operands.aiLen.toNat

/-- `PERS_LEN`, in bytes (R35). -/
def State.persLenOp (s : State) : Nat := s.operands.persLen.toNat

/-- `NONCE_LEN`, in bytes (R35). -/
def State.nonceLenOp (s : State) : Nat := s.operands.nonceLen.toNat

/-- The nonce: `NONCE[0..NONCE_LEN)` (R69 (a), R83). -/
def State.nonceIn (s : State) : Bytes := Memory.readBytes s.nonce 0 s.nonceLenOp

/-- The personalization string: `PERS[0..PERS_LEN)` (R69 (a), R83). -/
def State.persIn (s : State) : Bytes := Memory.readBytes s.pers 0 s.persLenOp

/-- The additional input: present exactly when the flag `AI` is 1, empty or not (R35, R83). -/
def State.aiIn (ai : Bool) (s : State) : Option Bytes :=
  if ai then some (Memory.readBytes s.ai 0 s.aiLenOp) else none

/-- An absent input counts as the empty string in a concatenation (R13). -/
def orEmpty : Option Bytes → Bytes
  | some a => a
  | none => []

/-- The output store: the leftmost `OUT_LEN` bytes of the block stream go to `OUT` from offset 0 (R69 (b)). -/
def State.storeOut (n : Nat) (stream : Bytes) (s : State) : State := s.fillBuffer .out (stream.take n)

/-! ## Micro-operations (R83): where a result goes -/

/-- A micro-operation's precondition failed: `ContractViolation`, on the engine addressed by the command in
flight (R277) or, with none, on the engine whose unit the micro-operation is (DESIGN CHOICE, log entry 13). -/
def State.violate (own : Option Engine) (s : State) : State :=
  s.raise ((s.target.map (·.1)).or own) .contractViolation

/-- The result replaces the operand in place (R100, R102, R103, R104, R107). -/
def State.putInPlace (r : Option Bytes) (s : State) : State :=
  match r with
  | some b => { s with dp := { s.dp with bufA := b } }
  | none => s.violate none

/-- The result is a byte string of its own. -/
def State.putResult (own : Option Engine) (r : Option Bytes) (s : State) : State :=
  match r with
  | some b => { s with dp := { s.dp with res := b } }
  | none => s.violate own

/-! ## The primitive port (R66): each result at its stated length -/

/-- `BlockEncrypt(key, block)`: `blocksize_bits / 8` bytes. -/
def portEncrypt (p : Prims) (c : CtrCipher) (cipherKey block : Bytes) : Bytes :=
  fit (ctrBlockBytes c) (p.blockEncrypt cipherKey block)

/-- `CTR_CIPHER.expand_key(key)`: 24 bytes of odd parity (R140). -/
def portExpandKey (p : Prims) (key : Bytes) : Bytes := (fit 24 (p.expandKey key)).map oddParity

/-- `Hash(msg)` of `HASH_DIGEST`: `digest_size` bytes. -/
def portHash (p : Prims) (h : HashDigest) (msg : Bytes) : Bytes := fit h.digestSize (p.hash msg)

/-- `Hash(msg)` of `DUALEC_DIGEST`: `digest_size` bytes. -/
def portDualecHash (p : Prims) (d : DualEcDigest) (msg : Bytes) : Bytes := fit d.digestSize (p.dualecHash msg)

/-- `Mac(key, msg)`: `mac_size` bytes. -/
def portMac (p : Prims) (h : HmacMac) (key msg : Bytes) : Bytes := fit h.macSize (p.mac key msg)

/-- `ECMulX(Pt, k)` for a point of the given order: an integer below the field prime of the row's curve (R66); `none`
where `k * Pt` is the point at infinity (told by the order, log entry 5). -/
def portEcMulX (p : Prims) (row : Row) (c : Curve) (pt : Point) (order k : Nat) : Option Nat :=
  if k % order = 0 then none else some (p.ecMulX row pt k % c.prime)

end Sys2Proof.Machine
end

