-- ==== Sys2Proof/Machine/ByteMath.lean ====
section
/-! DEFINITION. The byte-math units (R100 to R108) and the meanings of their micro-operations. A unit answers `none`
where its contract fails (R106). -/

namespace Sys2Proof.Machine

/-- `INC_BE(buf)` (R100). -/
def incBE (buf : Bytes) : Bytes := toBE buf.length (be buf + 1)

/-- `XOR_INTO(dst_len, a, b, b_offset)` (R101). -/
def xorBytes (dstLen : Nat) (a b : Bytes) (bOffset : Nat) : Option Bytes :=
  if dstLen ≤ a.length ∧ dstLen + bOffset ≤ b.length then
    some (List.zipWith (fun x y => x ^^^ y) (a.take dstLen) ((b.drop bOffset).take dstLen))
  else none

/-- `ADD_BE(longer, shorter)` (R102). -/
def addBE (longer shorter : Bytes) : Option Bytes :=
  if shorter.length ≤ longer.length then some (toBE longer.length (be longer + be shorter)) else none

/-- `SHR_BITS(buf, k)` (R103). -/
def shrBytes (buf : Bytes) (k : Nat) : Option Bytes :=
  if 1 ≤ k ∧ k ≤ 7 then some (toBE buf.length (be buf / 2 ^ k)) else none

/-- `SHL_BITS(buf, k)` (R104). -/
def shlBytes (buf : Bytes) (k : Nat) : Option Bytes :=
  if 1 ≤ k ∧ k ≤ 7 then some (toBE buf.length (be buf * 2 ^ k)) else none

/-- `INC_BE` (R100): operand and result `buf` in `dp.bufA`. -/
def execIncBe (s : State) : Host.Outcome State Fault Refusal :=
  .next (s.putInPlace (some (incBE s.dp.bufA)))

/-- `XOR_INTO` (R101): `dst_len` in `dp.len`, `a` in `dp.bufA`, `b` in `dp.bufB`, `b_offset` in `dp.offset`. -/
def execXorInto (s : State) : Host.Outcome State Fault Refusal :=
  .next (s.putResult none (xorBytes s.dp.len s.dp.bufA s.dp.bufB s.dp.offset))

/-- `ADD_BE` (R102): operand and result `longer` in `dp.bufA`, `shorter` in `dp.bufB`. -/
def execAddBe (s : State) : Host.Outcome State Fault Refusal :=
  .next (s.putInPlace (addBE s.dp.bufA s.dp.bufB))

/-- `SHR_BITS` (R103): operand and result `buf` in `dp.bufA`, the count `k` in the word. -/
def execShrBits (k : BitVec 3) (s : State) : Host.Outcome State Fault Refusal :=
  .next (s.putInPlace (shrBytes s.dp.bufA k.toNat))

/-- `SHL_BITS` (R104): operand and result `buf` in `dp.bufA`, the count `k` in the word. -/
def execShlBits (k : BitVec 3) (s : State) : Host.Outcome State Fault Refusal :=
  .next (s.putInPlace (shlBytes s.dp.bufA k.toNat))

end Sys2Proof.Machine
end

