-- ==== Sys2Proof/Machine/Derivation.lean ====
section
/-! DEFINITION. The TDEA key expansion (R140), the derivation functions (R120 to R124) and the meanings of their
micro-operations. -/

namespace Sys2Proof.Machine

/-! ## hash_df -/

/-- The digests of counters `i`, `i + 1`, ... (R120). -/
def dfHashes (hash : Bytes → Bytes) (bits : Nat) (material : Bytes) (i : Nat) : Nat → Bytes
  | 0 => []
  | n + 1 => hash (toBE 1 i ++ toBE 4 bits ++ material) ++ dfHashes hash bits material (i + 1) n

/-- `HASH_DF(seed_material, out_bit_len)` over a digest of `size` bytes (R120). -/
def hashDf (hash : Bytes → Bytes) (size : Nat) (material : Bytes) (bits : Nat) : Option Bytes :=
  if ceilDiv bits 8 / size + 1 ≤ 255 then
    if bits % 8 = 0 then some ((dfHashes hash bits material 1 (ceilDiv bits 8 / size + 1)).take (ceilDiv bits 8))
    else shrBytes ((dfHashes hash bits material 1 (ceilDiv bits 8 / size + 1)).take (ceilDiv bits 8)) (8 - bits % 8)
  else none

/-! ## The cipher: key expansion, then one block -/

/-- One byte of the default TDEA expansion: the `j`-th group of seven bits from the left of a 56-bit segment in
bits 7 to 1, and an odd-parity bit in bit 0 (R140). -/
def tdeaByte (g j : Nat) : Byte := oddParity (BitVec.ofNat 8 (2 * (g / 2 ^ (49 - 7 * j) % 128)))

/-- Eight bytes from one 7-byte segment (R140). -/
def tdeaSegment (seg : Bytes) : Bytes := (List.range 8).map (tdeaByte (be seg))

/-- The default mapping of `expand_key`: three 7-byte segments to 24 bytes (R140). It is what a descriptor
takes unless it says otherwise; the block itself takes `expand_key` from its descriptor. -/
def tdeaExpandDefault (key : Bytes) : Bytes :=
  tdeaSegment (key.take 7) ++ tdeaSegment ((key.drop 7).take 7) ++ tdeaSegment ((key.drop 14).take 7)

/-- `EXPAND_KEY(key)`: the identity but for TDEA (R140). -/
def expandKeyFor (p : Prims) (c : CtrCipher) (key : Bytes) : Option Bytes :=
  if c.isTdea then (if key.length = c.expandTakes then some (portExpandKey p key) else none) else some key

/-- `BlockEncrypt(EXPAND_KEY(K), block)`: the expansion is applied at every cipher use (R140). -/
def encryptWith (p : Prims) (c : CtrCipher) (key block : Bytes) : Option Bytes :=
  (expandKeyFor p c key).map fun k => portEncrypt p c k block

/-! ## block_cipher_df -/

/-- The chaining loop of `BCC` from block `i` on, for `n` blocks (R122). -/
def bccLoop (p : Prims) (c : CtrCipher) (key data : Bytes) (i : Nat) (chain : Bytes) : Nat → Option Bytes
  | 0 => some chain
  | n + 1 =>
    match xorBytes (ctrBlockBytes c) chain data (i * ctrBlockBytes c) with
    | none => none
    | some x =>
      match encryptWith p c key x with
      | none => none
      | some y => bccLoop p c key data (i + 1) y n

/-- `BCC(K, data)` (R122). -/
def bccOf (p : Prims) (c : CtrCipher) (key data : Bytes) : Option Bytes :=
  if data.length % ctrBlockBytes c = 0 then
    bccLoop p c key data 0 (zeros (ctrBlockBytes c)) (data.length / ctrBlockBytes c)
  else none

/-- The input block string `S`: lengths, input, `80`, and zeros to a block boundary (R123). DESIGN CHOICE (log entry 19):
R123 states its operand for `len(input) < 2^32` and names no outcome for a longer one; the model goes on, with the length
modulo `2^32` in its four bytes, as `to_be` of R14 gives it. -/
def dfString (c : CtrCipher) (input : Bytes) (n : Nat) : Bytes :=
  toBE 4 input.length ++ toBE 4 n ++ input ++ [0x80] ++
    zeros ((ctrBlockBytes c - (input.length + 9) % ctrBlockBytes c) % ctrBlockBytes c)

/-- `K0`: the bytes `00 01 .. 1F` cut to the key length (R123). -/
def dfKey (c : CtrCipher) : Bytes := ((List.range 32).map (BitVec.ofNat 8)).take (ctrKeyBytes c)

/-- `BCC(K0, IV || S)` for counters `i`, `i + 1`, ... (R123). -/
def dfBlocks (p : Prims) (c : CtrCipher) (str : Bytes) (i : Nat) : Nat → Option Bytes
  | 0 => some []
  | n + 1 =>
    match bccOf p c (dfKey c) (toBE 4 i ++ zeros (ctrBlockBytes c - 4) ++ str) with
    | none => none
    | some x => (dfBlocks p c str (i + 1) n).map fun rest => x ++ rest

/-- Output feedback: `X = BlockEncrypt(EXPAND_KEY(K), X)`, `n` times (R123). -/
def feedback (p : Prims) (c : CtrCipher) (key x : Bytes) : Nat → Option Bytes
  | 0 => some []
  | n + 1 =>
    match encryptWith p c key x with
    | none => none
    | some y => (feedback p c key y n).map fun rest => y ++ rest

/-- `BLOCK_CIPHER_DF(input, out_bit_len)` (R123). -/
def blockCipherDf (p : Prims) (c : CtrCipher) (input : Bytes) (bits : Nat) : Option Bytes :=
  if bits % 8 = 0 ∧ 4 ≤ ctrBlockBytes c ∧ ctrKeyBytes c ≤ 32 then
    match dfBlocks p c (dfString c input (bits / 8)) 0
        (ceilDiv (ctrKeyBytes c + ctrBlockBytes c) (ctrBlockBytes c)) with
    | none => none
    | some temp =>
      (feedback p c (temp.take (ctrKeyBytes c)) ((temp.drop (ctrKeyBytes c)).take (ctrBlockBytes c))
        (ceilDiv (bits / 8) (ctrBlockBytes c))).map fun out => out.take (bits / 8)
  else none

/-! ## Micro-operations -/

/-- The digest of `HASH_DF`, and its size (R120). -/
def digestOf (p : Prims) (b : Build) : DigestSel → (Bytes → Bytes) × Nat
  | .hashDigest => (portHash p b.hash, b.hash.digestSize)
  | .dualecDigest => (portDualecHash p b.dualec, b.dualec.digestSize)

/-- The engine of a digest. -/
def DigestSel.engine : DigestSel → Engine
  | .hashDigest => .hash
  | .dualecDigest => .dualec

/-- `HASH_DF` over given primitives: `seed_material` in `dp.bufA`, `out_bit_len` in `dp.bits`. -/
def hashDfOp (p : Prims) (s : State) : State :=
  s.putResult (some s.dp.digest.engine)
    (hashDf (digestOf p s.build s.dp.digest).1 (digestOf p s.build s.dp.digest).2 s.dp.bufA s.dp.bits.toNat)

/-- `BCC` over given primitives: `K` in `dp.bufA`, `data` in `dp.bufB`. -/
def bccOp (p : Prims) (s : State) : State :=
  s.putResult (some .ctr) (bccOf p s.build.ctr s.dp.bufA s.dp.bufB)

/-- `BLOCK_CIPHER_DF` over given primitives: `input` in `dp.bufA`, `out_bit_len` in `dp.bits`. -/
def blockCipherDfOp (p : Prims) (s : State) : State :=
  s.putResult (some .ctr) (blockCipherDf p s.build.ctr s.dp.bufA s.dp.bits.toNat)

/-- `HASH_DF` (R120). -/
def execHashDf (s : State) : Host.Outcome State Fault Refusal := .next (hashDfOp Config.prims s)

/-- `BCC` (R122). -/
def execBcc (s : State) : Host.Outcome State Fault Refusal := .next (bccOp Config.prims s)

/-- `BLOCK_CIPHER_DF` (R123). -/
def execBlockCipherDf (s : State) : Host.Outcome State Fault Refusal := .next (blockCipherDfOp Config.prims s)

end Sys2Proof.Machine
end

