-- ==== Sys2Proof/Machine/Contract.lean ====
section
/-! DEFINITION. What the commands of all four engines share: the checks in their order (R246, R248, R250), the three
frames (R245, R247, R249) with the inline reseed (R251), and the micro-operation `STRENGTH_CHK`. -/

namespace Sys2Proof.Machine

/-- One check: the outcome if the condition holds. -/
def failIf (bad : Bool) (c : Code) : Option Code := if bad then some c else none

/-- Is a length in bytes above a limit in bits? No limit is never exceeded. -/
def exceedsBits (bytes : Nat) (limit : Option Nat) : Bool :=
  match limit with
  | some l => decide (l < bytes * 8)
  | none => false

/-- Is the strength above a bound? No bound is never exceeded. -/
def exceeds (strength : Nat) (bound : Option Nat) : Bool :=
  match bound with
  | some l => decide (l < strength)
  | none => false

/-- A command of an engine that is not in the build is no command (R87 (e)). -/
def presenceCheck (e : Engine) (s : State) : Option Code := failIf (!hasEngine s.build e) .illegalCommand

/-- The phase check (R246). -/
def phaseCheck (op : CmdOp) (p0 : Phase) : Option Code :=
  match op with
  | .instantiate => failIf (p0 != .uninit) .illegalState
  | .generate => failIf (p0 == .uninit) .illegalState
  | .reseed => failIf (p0 == .uninit) .illegalState

/-- `STRENGTH_CHK(E, S)` (R248). -/
def strengthCheck (b : Build) (e : Engine) (strength : Nat) : Option Code :=
  (failIf (exceeds strength (fixedStrengthBound e)) .strengthNotSupported).or <|
  (failIf (maxStrength b e < strength) .strengthNotSupported).or <|
  failIf (b.entropyBits < strength) .entropyUnderProvisioned

/-- The capacity check of nonce and personalization string (R61, R275). -/
def seedInputCheck (s : State) : Option Code :=
  failIf (s.build.nonceCap < s.nonceLenOp || s.build.persCap < s.persLenOp) .inputTooLarge

/-- The size check of the additional input, made only where it is present (R35, R61, R275). -/
def aiCheck (e : Engine) (ai : Bool) (s : State) : Option Code :=
  failIf (ai && (s.build.aiCap < s.aiLenOp || exceedsBits s.aiLenOp (maxAiBits e))) .inputTooLarge

/-- The size check of the output request (R61, R274). -/
def requestCheck (e : Engine) (s : State) : Option Code :=
  failIf (s.build.outCap < s.outLenOp || exceedsBits s.outLenOp (maxRequestBits s.build e)) .requestTooLarge

/-- The row of the Dual-EC engine (R24). -/
def State.curve (s : State) : Curve := curveOf s.build s.dualec.row

/-- `blocks_needed` (R218). -/
def State.blocksNeeded (s : State) : Nat := ceilDiv s.outLenOp s.curve.outlen

/-- The counter of an engine (R26). -/
def State.counter (s : State) : Engine → BitVec 64
  | .ctr => s.ctr.reseedCounter
  | .hash => s.hash.reseedCounter
  | .hmac => s.hmac.reseedCounter
  | .dualec => s.dualec.reseedCounter

/-- Is the engine past its ceiling for this request (R273)? -/
def State.pastCeiling (s : State) (e : Engine) : Bool :=
  match e with
  | .ctr => decide (reseedInterval s.build .ctr < (s.counter .ctr).toNat)
  | .hash => decide (reseedInterval s.build .hash < (s.counter .hash).toNat)
  | .hmac => decide (reseedInterval s.build .hmac < (s.counter .hmac).toNat)
  | .dualec => decide (reseedInterval s.build .dualec < (s.counter .dualec).toNat + s.blocksNeeded)

/-- The checks of INSTANTIATE before the entropy call, in the order of R250. -/
def instantiateCheck (e : Engine) (s : State) : Option Code :=
  (presenceCheck e s).or <| (phaseCheck .instantiate (s.p0 e)).or <| (seedInputCheck s).or <|
    strengthCheck s.build e s.strengthOp

/-- The checks of GENERATE before any entropy call, in the order of R250. -/
def generateCheck (e : Engine) (ai : Bool) (s : State) : Option Code :=
  (presenceCheck e s).or <| (phaseCheck .generate (s.p0 e)).or <| (requestCheck e s).or <|
    (aiCheck e ai s).or <| failIf (s.pastCeiling e) .reseedRequired

/-- The checks of RESEED before the entropy call, in the order of R250. -/
def reseedCheck (e : Engine) (ai : Bool) (s : State) : Option Code :=
  (presenceCheck e s).or <| (phaseCheck .reseed (s.p0 e)).or <| aiCheck e ai s

/-- The end of a command whose working-state update is `r`: success, or a contract violation inside it (R244). -/
def State.conclude (e : Engine) (result : Nat) (r : Option State) (s : State) : State :=
  match r with
  | some s' => s'.succeed e result
  | none => s.raise (some e) .contractViolation

/-- The INSTANTIATE frame (R245). `seed` is the engine's own seeding, from the strength and the seed material
`entropy || nonce || personalization`. -/
def instantiateFrame (e : Engine) (seed : Nat → Bytes → State → Option State) (s : State) : State :=
  match instantiateCheck e s with
  | some c => s.raise (some e) c
  | none =>
    s.withEntropy e fun entropy s1 =>
      s1.conclude e 0 (seed s.strengthOp (entropy ++ s.nonceIn ++ s.persIn) s1)

/-- Steps 4 to 8 of the GENERATE frame (R247), with the additional input `a` or none. `produce` answers the
advanced working state and the block stream. -/
def emitFrame (e : Engine) (produce : Option Bytes → Nat → State → Option (State × Bytes)) (n : Nat)
    (a : Option Bytes) (s : State) : State :=
  s.conclude e (n * 8) ((produce a n s).map fun r => r.1.storeOut n r.2)

/-- The GENERATE frame (R247) with its inline reseed (R251): the checks come first, the reseed consumes the
additional input, and the rest runs with none. -/
def generateFrame (e : Engine) (ai pr : Bool) (reseed : Bytes → Bytes → State → Option State)
    (produce : Option Bytes → Nat → State → Option (State × Bytes)) (s : State) : State :=
  match generateCheck e ai s with
  | some c => s.raise (some e) c
  | none =>
    if pr then
      s.withEntropy e fun entropy s1 =>
        match reseed entropy (orEmpty (s.aiIn ai)) s1 with
        | none => s1.raise (some e) .contractViolation
        | some s2 => emitFrame e produce s.outLenOp none s2
    else emitFrame e produce s.outLenOp (s.aiIn ai) s

/-- The RESEED frame (R249). -/
def reseedFrame (e : Engine) (ai : Bool) (reseed : Bytes → Bytes → State → Option State) (s : State) : State :=
  match reseedCheck e ai s with
  | some c => s.raise (some e) c
  | none =>
    s.withEntropy e fun entropy s1 => s1.conclude e 0 (reseed entropy (orEmpty (s.aiIn ai)) s1)

/-- `STRENGTH_CHK` (R248): `E` in `dp.engine`, `S` the latched `STRENGTH`. It writes nothing, and ends the command
in flight with the outcome it raises (DESIGN CHOICE, log entry 13: also where the micro-operation stands alone). -/
def execStrengthChk (s : State) : Host.Outcome State Fault Refusal :=
  .next (match strengthCheck s.build s.dp.engine s.strengthOp with
    | some c => s.raise (s.target.map (·.1)) c
    | none => s)

end Sys2Proof.Machine
end

