-- ==== Sys2Proof/Machine/CtrDrbg.lean ====
section
/-! DEFINITION. The CTR-DRBG engine (R140 to R149). -/

namespace Sys2Proof.Machine

/-! ## Micro-operations -/

/-- `n` keystream blocks under one key: increment `v`, then encrypt it (R141, R147). Answers the advanced `v` and
the blocks. -/
def keystream (p : Prims) (c : CtrCipher) (key v : Bytes) : Nat → Option (Bytes × Bytes)
  | 0 => some (v, [])
  | n + 1 =>
    match encryptWith p c key (incBE v) with
    | none => none
    | some x => (keystream p c key (incBE v) n).map fun r => (r.1, x ++ r.2)

/-- `CTR_UPDATE(seed)` from `key` and `v`: the new `key` and `v` (R141). -/
def ctrUpdateOf (p : Prims) (c : CtrCipher) (key v seed : Bytes) : Option (Bytes × Bytes) :=
  if seed.length = ctrSeedBytes c then
    match keystream p c key v (ceilDiv (ctrSeedBytes c) (ctrBlockBytes c)) with
    | none => none
    | some r =>
      (xorBytes (ctrSeedBytes c) (r.2.take (ctrSeedBytes c)) seed 0).map fun temp =>
        (temp.take (ctrKeyBytes c), (temp.drop (ctrKeyBytes c)).take (ctrBlockBytes c))
  else none

/-- `CTR_UPDATE` on the working registers: the counter is not touched (R141). -/
def ctrFold (p : Prims) (c : CtrCipher) (r : CtrRegs) (seed : Bytes) : Option CtrRegs :=
  (ctrUpdateOf p c r.key r.v seed).map fun kv => { r with key := kv.1, v := kv.2 }

/-- `EXPAND_KEY` over given primitives: `key` in `dp.bufA`, the cipher key to `dp.res` (R140). -/
def expandKeyOp (p : Prims) (s : State) : State :=
  s.putResult (some .ctr) (expandKeyFor p s.build.ctr s.dp.bufA)

/-- `CTR_UPDATE` over given primitives: `seed` in `dp.bufA`, the result in `CTR.key` and `CTR.v` (R141). -/
def ctrUpdateOp (p : Prims) (s : State) : State :=
  match ctrFold p s.build.ctr s.ctr s.dp.bufA with
  | some r => { s with ctr := r }
  | none => s.violate (some .ctr)

/-! ## The three commands over given primitives -/

/-- Seeding: the derived seed folded into the all-zero `key` and `v`; the counter is 1 (R145). -/
def ctrSeed (p : Prims) (c : CtrCipher) (material : Bytes) : Option CtrRegs :=
  (blockCipherDf p c material (ctrSeedlen c)).bind fun seed =>
    ctrFold p c ⟨zeros (ctrKeyBytes c), zeros (ctrBlockBytes c), 1⟩ seed

/-- `CTR_reseed_algorithm` (R148). -/
def ctrReseedOf (p : Prims) (c : CtrCipher) (r : CtrRegs) (entropy a : Bytes) : Option CtrRegs :=
  (blockCipherDf p c (entropy ++ a) (ctrSeedlen c)).bind fun seed =>
    ctrFold p c { r with reseedCounter := 1 } seed

/-- The first fold of GENERATE: with an additional input the derived seed is folded in; without one the seed is
all zero and nothing is folded (R147). Answers the working registers and the seed. -/
def ctrAbsorb (p : Prims) (c : CtrCipher) (r : CtrRegs) (a : Option Bytes) : Option (CtrRegs × Bytes) :=
  match a with
  | some a =>
    (blockCipherDf p c a (ctrSeedlen c)).bind fun seed => (ctrFold p c r seed).map fun r' => (r', seed)
  | none => some (r, zeros (ctrSeedBytes c))

/-- GENERATE's working-state update and block stream for `n` bytes (R147). -/
def ctrProduce (p : Prims) (c : CtrCipher) (r : CtrRegs) (a : Option Bytes) (n : Nat) :
    Option (CtrRegs × Bytes) :=
  match ctrAbsorb p c r a with
  | none => none
  | some (r1, seed) =>
    match keystream p c r1.key r1.v (ceilDiv n (ctrBlockBytes c)) with
    | none => none
    | some (v, out) =>
      (ctrFold p c { r1 with v := v } seed).map fun r2 => ({ r2 with reseedCounter := r2.reseedCounter + 1 }, out)

/-- `CTR.INSTANTIATE` over given primitives (R145). -/
def ctrInstantiate (p : Prims) (s : State) : State :=
  instantiateFrame .ctr (fun _ m s => (ctrSeed p s.build.ctr m).map fun r => { s with ctr := r }) s

/-- `CTR.GENERATE` over given primitives (R147). -/
def ctrGenerate (p : Prims) (ai pr : Bool) (s : State) : State :=
  generateFrame .ctr ai pr
    (fun e a s => (ctrReseedOf p s.build.ctr s.ctr e a).map fun r => { s with ctr := r })
    (fun a n s => (ctrProduce p s.build.ctr s.ctr a n).map fun r => ({ s with ctr := r.1 }, r.2)) s

/-- `CTR.RESEED` over given primitives (R148). -/
def ctrReseed (p : Prims) (ai : Bool) (s : State) : State :=
  reseedFrame .ctr ai (fun e a s => (ctrReseedOf p s.build.ctr s.ctr e a).map fun r => { s with ctr := r }) s

/-! ## Meanings -/

/-- `EXPAND_KEY` (R140). -/
def execExpandKey (s : State) : Host.Outcome State Fault Refusal := .next (expandKeyOp Config.prims s)

/-- `CTR_UPDATE` (R141). -/
def execCtrUpdate (s : State) : Host.Outcome State Fault Refusal := .next (ctrUpdateOp Config.prims s)

/-- `CTR.INSTANTIATE` (R145). -/
def execCtrInstantiate (s : State) : Host.Outcome State Fault Refusal := .next (ctrInstantiate Config.prims s)

/-- `CTR.GENERATE` (R147). -/
def execCtrGenerate (ai pr : Bool) (s : State) : Host.Outcome State Fault Refusal :=
  .next (ctrGenerate Config.prims ai pr s)

/-- `CTR.RESEED` (R148). -/
def execCtrReseed (ai : Bool) (s : State) : Host.Outcome State Fault Refusal :=
  .next (ctrReseed Config.prims ai s)

end Sys2Proof.Machine
end

