-- ==== Sys2Proof/Machine/DualecDrbg.lean ====
section
/-! DEFINITION. The Dual-EC-DRBG engine (R210 to R221). -/

namespace Sys2Proof.Machine

/-- `PAD8(s)` for a `seedlen` (R210): the significant bits moved to the left end. -/
def pad8Of (seedlen : Nat) (s : Bytes) : Option Bytes :=
  if seedlen % 8 = 0 then some s else shlBytes s (8 - seedlen % 8)

/-- `PAD8` (R210): `s` in `dp.bufA`, the `seedlen` of the engine's row. -/
def execPad8 (s : State) : Host.Outcome State Fault Refusal :=
  .next (s.putResult (some .dualec) (pad8Of s.curve.seedlen s.dp.bufA))

/-- `HASH_DF` of the engine's digest to `seedlen` bits (R215, R219, R220). -/
def dualecDf (p : Prims) (b : Build) (c : Curve) (material : Bytes) : Option Bytes :=
  hashDf (portDualecHash p b.dualec) b.dualec.digestSize material c.seedlen

/-- Seeding: the row of the strength, `s` from the seed material, the counter 0 (R215). -/
def dualecSeed (p : Prims) (b : Build) (strength : Nat) (material : Bytes) : Option DualecRegs :=
  (dualecDf p b (curveOf b (rowFor strength)) material).map fun s => ⟨s, rowFor strength, 0⟩

/-- `DUALEC_reseed_algorithm` (R220). -/
def dualecReseedOf (p : Prims) (b : Build) (r : DualecRegs) (entropy a : Bytes) : Option DualecRegs :=
  (pad8Of (curveOf b r.row).seedlen r.s).bind fun padded =>
    (dualecDf p b (curveOf b r.row) (padded ++ entropy ++ a)).map fun s => { r with s := s, reseedCounter := 0 }

/-- The first scalar `t`: `s`, or `s` XOR the derived additional input (R219). -/
def dualecAbsorb (p : Prims) (b : Build) (r : DualecRegs) (a : Option Bytes) : Option Nat :=
  match a with
  | some a =>
    (dualecDf p b (curveOf b r.row) a).bind fun d =>
      (xorBytes (curveSeedBytes (curveOf b r.row)) r.s d 0).map be
  | none => some (be r.s)

/-- `n` output blocks from the running value `sv` (R219): `sv = ECMulX(P, sv)`, `r = ECMulX(Q, sv)`, and the
low-order `outlen` bytes of `r`. Answers the last `sv` and the blocks. -/
def dualecBlocks (p : Prims) (row : Row) (c : Curve) (sv : Nat) : Nat → Option (Nat × Bytes)
  | 0 => some (sv, [])
  | n + 1 =>
    match portEcMulX p row c c.p c.pOrder sv with
    | none => none
    | some sv1 =>
      match portEcMulX p row c c.q c.qOrder sv1 with
      | none => none
      | some r => (dualecBlocks p row c sv1 n).map fun rest => (rest.1, toBE c.outlen r ++ rest.2)

/-- GENERATE's working-state update and block stream (R219): after the blocks `s` advances once more. -/
def dualecProduce (p : Prims) (b : Build) (r : DualecRegs) (a : Option Bytes) (n : Nat) :
    Option (DualecRegs × Bytes) :=
  (dualecAbsorb p b r a).bind fun t =>
    (dualecBlocks p r.row (curveOf b r.row) t (ceilDiv n (curveOf b r.row).outlen)).bind fun blocks =>
      (portEcMulX p r.row (curveOf b r.row) (curveOf b r.row).p (curveOf b r.row).pOrder blocks.1).map fun sv =>
        ({ r with
            s := toBE (curveSeedBytes (curveOf b r.row)) sv
            reseedCounter := r.reseedCounter + BitVec.ofNat 64 (ceilDiv n (curveOf b r.row).outlen) }, blocks.2)

/-- `DUALEC.INSTANTIATE` over given primitives (R215). -/
def dualecInstantiate (p : Prims) (s : State) : State :=
  instantiateFrame .dualec (fun strength m s => (dualecSeed p s.build strength m).map fun r => { s with dualec := r }) s

/-- `DUALEC.GENERATE` over given primitives (R219). -/
def dualecGenerate (p : Prims) (ai pr : Bool) (s : State) : State :=
  generateFrame .dualec ai pr
    (fun e a s => (dualecReseedOf p s.build s.dualec e a).map fun r => { s with dualec := r })
    (fun a n s => (dualecProduce p s.build s.dualec a n).map fun r => ({ s with dualec := r.1 }, r.2)) s

/-- `DUALEC.RESEED` over given primitives (R220). -/
def dualecReseed (p : Prims) (ai : Bool) (s : State) : State :=
  reseedFrame .dualec ai
    (fun e a s => (dualecReseedOf p s.build s.dualec e a).map fun r => { s with dualec := r }) s

/-- `DUALEC.INSTANTIATE` (R215). -/
def execDualecInstantiate (s : State) : Host.Outcome State Fault Refusal := .next (dualecInstantiate Config.prims s)

/-- `DUALEC.GENERATE` (R219). -/
def execDualecGenerate (ai pr : Bool) (s : State) : Host.Outcome State Fault Refusal :=
  .next (dualecGenerate Config.prims ai pr s)

/-- `DUALEC.RESEED` (R220). -/
def execDualecReseed (ai : Bool) (s : State) : Host.Outcome State Fault Refusal :=
  .next (dualecReseed Config.prims ai s)

end Sys2Proof.Machine
end

