-- ==== Sys2Proof/Machine/HashDrbg.lean ====
section
/-! DEFINITION. The Hash-DRBG engine (R170 to R177). -/

namespace Sys2Proof.Machine

/-- `n` digests of a running counter value (R170). -/
def hashBlocks (hash : Bytes → Bytes) (data : Bytes) : Nat → Bytes
  | 0 => []
  | n + 1 => hash data ++ hashBlocks hash (incBE data) n

/-- `HASHGEN(v, out_bytes)` over a digest of `size` bytes (R170). -/
def hashgenOf (hash : Bytes → Bytes) (size : Nat) (v : Bytes) (n : Nat) : Bytes :=
  (hashBlocks hash v (ceilDiv n size)).take n

/-- `HASHGEN` over given primitives: `v` in `dp.bufA`, `out_bytes` in `dp.len` (R170). -/
def hashgenOp (p : Prims) (s : State) : State :=
  s.putResult (some .hash) (some (hashgenOf (portHash p s.build.hash) s.build.hash.digestSize s.dp.bufA s.dp.len))

/-- `v` from a seed, then `c = HASH_DF(00 || v)`; the counter is 1 (R173, R176). -/
def hashFromSeed (p : Prims) (h : HashDigest) (material : Bytes) : Option HashRegs :=
  (hashDf (portHash p h) h.digestSize material h.seedlen).bind fun v =>
    (hashDf (portHash p h) h.digestSize ([0x00] ++ v) h.seedlen).map fun c => ⟨v, c, 1⟩

/-- `HASH_reseed_algorithm` (R176). -/
def hashReseedOf (p : Prims) (h : HashDigest) (r : HashRegs) (entropy a : Bytes) : Option HashRegs :=
  hashFromSeed p h ([0x01] ++ r.v ++ entropy ++ a)

/-- `v` after the additional input: `v + Hash(02 || v || a)`, or `v` where there is none (R175). -/
def hashAbsorb (p : Prims) (h : HashDigest) (v : Bytes) (a : Option Bytes) : Option Bytes :=
  match a with
  | some a => addBE v (portHash p h ([0x02] ++ v ++ a))
  | none => some v

/-- `v` after the output: `v + Hash(03 || v) + c + to_be(4, reseed_counter)`, three adds (R175). -/
def hashAdvance (p : Prims) (h : HashDigest) (v c : Bytes) (counter : BitVec 64) : Option Bytes :=
  (addBE v (portHash p h ([0x03] ++ v))).bind fun v1 =>
    (addBE v1 c).bind fun v2 => addBE v2 (toBE 4 counter.toNat)

/-- GENERATE's working-state update and output (R175). -/
def hashProduce (p : Prims) (h : HashDigest) (r : HashRegs) (a : Option Bytes) (n : Nat) :
    Option (HashRegs × Bytes) :=
  (hashAbsorb p h r.v a).bind fun v1 =>
    (hashAdvance p h v1 r.c r.reseedCounter).map fun v2 =>
      ({ r with v := v2, reseedCounter := r.reseedCounter + 1 }, hashgenOf (portHash p h) h.digestSize v1 n)

/-- `HASH.INSTANTIATE` over given primitives (R173). -/
def hashInstantiate (p : Prims) (s : State) : State :=
  instantiateFrame .hash (fun _ m s => (hashFromSeed p s.build.hash m).map fun r => { s with hash := r }) s

/-- `HASH.GENERATE` over given primitives (R175). -/
def hashGenerate (p : Prims) (ai pr : Bool) (s : State) : State :=
  generateFrame .hash ai pr
    (fun e a s => (hashReseedOf p s.build.hash s.hash e a).map fun r => { s with hash := r })
    (fun a n s => (hashProduce p s.build.hash s.hash a n).map fun r => ({ s with hash := r.1 }, r.2)) s

/-- `HASH.RESEED` over given primitives (R176). -/
def hashReseed (p : Prims) (ai : Bool) (s : State) : State :=
  reseedFrame .hash ai (fun e a s => (hashReseedOf p s.build.hash s.hash e a).map fun r => { s with hash := r }) s

/-- `HASHGEN` (R170). -/
def execHashgen (s : State) : Host.Outcome State Fault Refusal := .next (hashgenOp Config.prims s)

/-- `HASH.INSTANTIATE` (R173). -/
def execHashInstantiate (s : State) : Host.Outcome State Fault Refusal := .next (hashInstantiate Config.prims s)

/-- `HASH.GENERATE` (R175). -/
def execHashGenerate (ai pr : Bool) (s : State) : Host.Outcome State Fault Refusal :=
  .next (hashGenerate Config.prims ai pr s)

/-- `HASH.RESEED` (R176). -/
def execHashReseed (ai : Bool) (s : State) : Host.Outcome State Fault Refusal :=
  .next (hashReseed Config.prims ai s)

end Sys2Proof.Machine
end

