-- ==== Sys2Proof/Machine/HmacDrbg.lean ====
section
/-! DEFINITION. The HMAC-DRBG engine (R190 to R196). -/

namespace Sys2Proof.Machine

/-- `HMAC_UPDATE_PASS(marker, material)` (R190): the second line uses the `k` just written. -/
def hmacPassOf (p : Prims) (h : HmacMac) (r : HmacRegs) (marker : Bool) (material : Option Bytes) : HmacRegs :=
  let k := portMac p h r.k (r.v ++ toBE 1 (bit marker) ++ orEmpty material)
  { r with k := k, v := portMac p h k r.v }

/-- `HMAC_UPDATE(material)` (R191): the `01` pass runs only where material is present. -/
def hmacUpdateOf (p : Prims) (h : HmacMac) (r : HmacRegs) (material : Option Bytes) : HmacRegs :=
  if material.isSome then hmacPassOf p h (hmacPassOf p h r false material) true material
  else hmacPassOf p h r false material

/-- `HMAC_UPDATE_PASS` over given primitives: `material` in `dp.material`, `marker` in the word (R190). -/
def hmacUpdatePassOp (p : Prims) (marker : Bool) (s : State) : State :=
  { s with hmac := hmacPassOf p s.build.hmac s.hmac marker s.dp.material }

/-- `HMAC_UPDATE` over given primitives: `material` in `dp.material` (R191). -/
def hmacUpdateOp (p : Prims) (s : State) : State :=
  { s with hmac := hmacUpdateOf p s.build.hmac s.hmac s.dp.material }

/-- Seeding from `k` all `00` and `v` all `01`; the counter is 1 (R192). -/
def hmacSeed (p : Prims) (h : HmacMac) (material : Bytes) : HmacRegs :=
  hmacUpdateOf p h ⟨zeros h.macSize, fill h.macSize 0x01, 1⟩ (some material)

/-- `HMAC_reseed_algorithm` (R194). -/
def hmacReseedOf (p : Prims) (h : HmacMac) (r : HmacRegs) (entropy a : Bytes) : HmacRegs :=
  hmacUpdateOf p h { r with reseedCounter := 1 } (some (entropy ++ a))

/-- `n` rounds of the output loop: `v = Mac(k, v)`, append `v` (R193). Answers the last `v` and the blocks. -/
def hmacBlocks (p : Prims) (h : HmacMac) (k v : Bytes) : Nat → Bytes × Bytes
  | 0 => (v, [])
  | n + 1 => ((hmacBlocks p h k (portMac p h k v) n).1, portMac p h k v ++ (hmacBlocks p h k (portMac p h k v) n).2)

/-- The update before the output runs only where an additional input is present (R193). -/
def hmacAbsorb (p : Prims) (h : HmacMac) (r : HmacRegs) (a : Option Bytes) : HmacRegs :=
  if a.isSome then hmacUpdateOf p h r a else r

/-- GENERATE's working-state update and block stream: the update after the output always runs (R193, U17). -/
def hmacProduce (p : Prims) (h : HmacMac) (r : HmacRegs) (a : Option Bytes) (n : Nat) : HmacRegs × Bytes :=
  let r1 := hmacAbsorb p h r a
  let blocks := hmacBlocks p h r1.k r1.v (ceilDiv n h.macSize)
  let r2 := hmacUpdateOf p h { r1 with v := blocks.1 } a
  ({ r2 with reseedCounter := r2.reseedCounter + 1 }, blocks.2)

/-- `HMAC.INSTANTIATE` over given primitives (R192). -/
def hmacInstantiate (p : Prims) (s : State) : State :=
  instantiateFrame .hmac (fun _ m s => some { s with hmac := hmacSeed p s.build.hmac m }) s

/-- `HMAC.GENERATE` over given primitives (R193). -/
def hmacGenerate (p : Prims) (ai pr : Bool) (s : State) : State :=
  generateFrame .hmac ai pr
    (fun e a s => some { s with hmac := hmacReseedOf p s.build.hmac s.hmac e a })
    (fun a n s => some ({ s with hmac := (hmacProduce p s.build.hmac s.hmac a n).1 },
      (hmacProduce p s.build.hmac s.hmac a n).2)) s

/-- `HMAC.RESEED` over given primitives (R194). -/
def hmacReseed (p : Prims) (ai : Bool) (s : State) : State :=
  reseedFrame .hmac ai (fun e a s => some { s with hmac := hmacReseedOf p s.build.hmac s.hmac e a }) s

/-- `HMAC_UPDATE` (R191). -/
def execHmacUpdate (s : State) : Host.Outcome State Fault Refusal := .next (hmacUpdateOp Config.prims s)

/-- `HMAC_UPDATE_PASS` (R190). -/
def execHmacUpdatePass (marker : Bool) (s : State) : Host.Outcome State Fault Refusal :=
  .next (hmacUpdatePassOp Config.prims marker s)

/-- `HMAC.INSTANTIATE` (R192). -/
def execHmacInstantiate (s : State) : Host.Outcome State Fault Refusal := .next (hmacInstantiate Config.prims s)

/-- `HMAC.GENERATE` (R193). -/
def execHmacGenerate (ai pr : Bool) (s : State) : Host.Outcome State Fault Refusal :=
  .next (hmacGenerate Config.prims ai pr s)

/-- `HMAC.RESEED` (R194). -/
def execHmacReseed (ai : Bool) (s : State) : Host.Outcome State Fault Refusal :=
  .next (hmacReseed Config.prims ai s)

end Sys2Proof.Machine
end

