-- ==== Sys2Proof/Machine/Dispatch.lean ====
section
/-! DEFINITION. The dispatch: one arm per row of spec/opcode_table.json. -/

namespace Sys2Proof.Machine

def exec (i : Instr) (s : State) : Host.Outcome State Fault Refusal :=
  match i with
  | .ctrInstantiate => Sys2Proof.Machine.execCtrInstantiate s
  | .ctrGenerate ai pr => Sys2Proof.Machine.execCtrGenerate ai pr s
  | .ctrReseed ai => Sys2Proof.Machine.execCtrReseed ai s
  | .hashInstantiate => Sys2Proof.Machine.execHashInstantiate s
  | .hashGenerate ai pr => Sys2Proof.Machine.execHashGenerate ai pr s
  | .hashReseed ai => Sys2Proof.Machine.execHashReseed ai s
  | .hmacInstantiate => Sys2Proof.Machine.execHmacInstantiate s
  | .hmacGenerate ai pr => Sys2Proof.Machine.execHmacGenerate ai pr s
  | .hmacReseed ai => Sys2Proof.Machine.execHmacReseed ai s
  | .dualecInstantiate => Sys2Proof.Machine.execDualecInstantiate s
  | .dualecGenerate ai pr => Sys2Proof.Machine.execDualecGenerate ai pr s
  | .dualecReseed ai => Sys2Proof.Machine.execDualecReseed ai s
  | .incBe => Sys2Proof.Machine.execIncBe s
  | .xorInto => Sys2Proof.Machine.execXorInto s
  | .addBe => Sys2Proof.Machine.execAddBe s
  | .shrBits k => Sys2Proof.Machine.execShrBits k s
  | .shlBits k => Sys2Proof.Machine.execShlBits k s
  | .strengthChk => Sys2Proof.Machine.execStrengthChk s
  | .hashDf => Sys2Proof.Machine.execHashDf s
  | .blockCipherDf => Sys2Proof.Machine.execBlockCipherDf s
  | .bcc => Sys2Proof.Machine.execBcc s
  | .ctrUpdate => Sys2Proof.Machine.execCtrUpdate s
  | .expandKey => Sys2Proof.Machine.execExpandKey s
  | .hashgen => Sys2Proof.Machine.execHashgen s
  | .hmacUpdate => Sys2Proof.Machine.execHmacUpdate s
  | .hmacUpdatePass marker => Sys2Proof.Machine.execHmacUpdatePass marker s
  | .pad8 => Sys2Proof.Machine.execPad8 s

end Sys2Proof.Machine
end

