-- ==== Sys2Proof/WellFormed.lean ====
section
/-! DEFINITION. Which instructions have a word: the one check the encoding makes on an operand (R82 (b), R85). -/

namespace Sys2Proof

/-- A shift count is 1 to 7: with `IMM = 0` the word is reserved (R82 (b), R85). -/
def shiftCountOk (k : BitVec 3) : Bool := k != 0

/-- An instruction is well formed when the encoding admits its operands. The flags `AI`, `PR` and
`marker` are free where a constructor carries them (R84, R85). -/
def Instr.wf : Instr → Bool
  | .ctrInstantiate => true
  | .ctrGenerate _ _ => true
  | .ctrReseed _ => true
  | .hashInstantiate => true
  | .hashGenerate _ _ => true
  | .hashReseed _ => true
  | .hmacInstantiate => true
  | .hmacGenerate _ _ => true
  | .hmacReseed _ => true
  | .dualecInstantiate => true
  | .dualecGenerate _ _ => true
  | .dualecReseed _ => true
  | .incBe => true
  | .xorInto => true
  | .addBe => true
  | .shrBits k => shiftCountOk k
  | .shlBits k => shiftCountOk k
  | .strengthChk => true
  | .hashDf => true
  | .blockCipherDf => true
  | .bcc => true
  | .ctrUpdate => true
  | .expandKey => true
  | .hashgen => true
  | .hmacUpdate => true
  | .hmacUpdatePass _ => true
  | .pad8 => true

end Sys2Proof
end

