-- ==== Sys2Proof/Decode.lean ====
section
/-! DEFINITION. The decoder, total on every word and rejecting by name, and after it the encoder (R80 to R88). -/

namespace Sys2Proof

/-- Why a word is no instruction. `reservedUnit`: `UNIT` 6 to 15 (R81). `reservedOp`: no row has this
`UNIT` and `OP` (R87 (a)). `flagNotAllowed`: the reserved bits are 0 but bit 1 or 0 is not free in the row
(R87 (a)). `reservedBits`: a reserved bit is 1 (R80). `reservedShiftCount`: a shift with `IMM = 0` (R85). -/
inductive DecodeError where
  | reservedUnit
  | reservedOp
  | flagNotAllowed
  | reservedBits
  | reservedShiftCount
deriving DecidableEq, Repr

/-- One row of the opcode map: a word `w` selects it when `w & mask = mat` (R84). -/
structure OpRow where
  mat  : Word
  mask : Word
  make : Word → Instr

/-- Bit 1 of format H, the flag `AI` (R80). -/
def aiBit (w : Word) : Bool := w.getLsbD 1

/-- Bit 0 of format H, the flag `PR`; bit 0 of `IMM`, the marker (R80, R82). -/
def lowBit (w : Word) : Bool := w.getLsbD 0

/-- Field `IMM`, bits 2:0 of format M (R80). -/
def immField (w : Word) : BitVec 3 := w.extractLsb' 0 3

/-- The host commands (R84). -/
def hostRows : List OpRow :=
  [ ⟨0x20000000, 0xFFFFFFFF, fun _ => .ctrInstantiate⟩,
    ⟨0x21000000, 0xFFFFFFFC, fun w => .ctrGenerate (aiBit w) (lowBit w)⟩,
    ⟨0x22000000, 0xFFFFFFFD, fun w => .ctrReseed (aiBit w)⟩,
    ⟨0x30000000, 0xFFFFFFFF, fun _ => .hashInstantiate⟩,
    ⟨0x31000000, 0xFFFFFFFC, fun w => .hashGenerate (aiBit w) (lowBit w)⟩,
    ⟨0x32000000, 0xFFFFFFFD, fun w => .hashReseed (aiBit w)⟩,
    ⟨0x40000000, 0xFFFFFFFF, fun _ => .hmacInstantiate⟩,
    ⟨0x41000000, 0xFFFFFFFC, fun w => .hmacGenerate (aiBit w) (lowBit w)⟩,
    ⟨0x42000000, 0xFFFFFFFD, fun w => .hmacReseed (aiBit w)⟩,
    ⟨0x50000000, 0xFFFFFFFF, fun _ => .dualecInstantiate⟩,
    ⟨0x51000000, 0xFFFFFFFC, fun w => .dualecGenerate (aiBit w) (lowBit w)⟩,
    ⟨0x52000000, 0xFFFFFFFD, fun w => .dualecReseed (aiBit w)⟩ ]

/-- The micro-operations (R85). -/
def microRows : List OpRow :=
  [ ⟨0x00000000, 0xFFFFFFFF, fun _ => .incBe⟩,
    ⟨0x01000000, 0xFFFFFFFF, fun _ => .xorInto⟩,
    ⟨0x02000000, 0xFFFFFFFF, fun _ => .addBe⟩,
    ⟨0x03000000, 0xFFFFFFF8, fun w => .shrBits (immField w)⟩,
    ⟨0x04000000, 0xFFFFFFF8, fun w => .shlBits (immField w)⟩,
    ⟨0x08000000, 0xFFFFFFFF, fun _ => .strengthChk⟩,
    ⟨0x10000000, 0xFFFFFFFF, fun _ => .hashDf⟩,
    ⟨0x11000000, 0xFFFFFFFF, fun _ => .blockCipherDf⟩,
    ⟨0x12000000, 0xFFFFFFFF, fun _ => .bcc⟩,
    ⟨0x28000000, 0xFFFFFFFF, fun _ => .ctrUpdate⟩,
    ⟨0x29000000, 0xFFFFFFFF, fun _ => .expandKey⟩,
    ⟨0x38000000, 0xFFFFFFFF, fun _ => .hashgen⟩,
    ⟨0x48000000, 0xFFFFFFFF, fun _ => .hmacUpdate⟩,
    ⟨0x49000000, 0xFFFFFFFE, fun w => .hmacUpdatePass (lowBit w)⟩,
    ⟨0x58000000, 0xFFFFFFFF, fun _ => .pad8⟩ ]

/-- The whole opcode map, twenty-seven rows (R86). -/
def opTable : List OpRow := hostRows ++ microRows

/-- The word selects the row (R84). -/
def OpRow.selects (r : OpRow) (w : Word) : Bool := w &&& r.mask == r.mat

/-- Why a word that selects no row is reserved (R87). -/
def rejectReason (w : Word) : DecodeError :=
  if 6 ≤ (w.ushiftRight 28).toNat then .reservedUnit
  else if (opTable.find? fun r => r.mat.ushiftRight 24 == w.ushiftRight 24).isNone then .reservedOp
  else if w &&& (0x00FFFFFC : Word) == 0 then .flagNotAllowed
  else .reservedBits

/-- The decoder: the row the word selects, or the reason it selects none (R84, R85, R87). -/
def decode (w : Word) : Except DecodeError Instr :=
  match opTable.find? fun r => r.selects w with
  | some r => if (r.make w).wf then .ok (r.make w) else .error .reservedShiftCount
  | none => .error (rejectReason w)

/-- The instruction read from the bits `w` of a table row. Every word of the block is 32 bits, so bits of
`w` at and above bit 32 must be 0. -/
def decodeTableWord (nbits w : Nat) : Option Instr :=
  if w % 2 ^ nbits < 2 ^ 32 then (decode (BitVec.ofNat 32 (w % 2 ^ nbits))).toOption else none

/-- `AI << 1 | PR`, the low bits of a host command word (R84). -/
def flagBits (ai pr : Bool) : Word := (BitVec.ofBool ai).setWidth 32 <<< 1 ||| (BitVec.ofBool pr).setWidth 32

/-- `UNIT << 28 | OP << 24 | low` (R84, R85). -/
def unitOp (unit op : Nat) (low : Word) : Word := BitVec.ofNat 32 unit <<< 28 ||| BitVec.ofNat 32 op <<< 24 ||| low

/-- The encoder: the word of an instruction, from the field formulas of R84 and R85. -/
def encode (i : Instr) : Word :=
  match i with
  | .ctrInstantiate => unitOp 2 0 0
  | .ctrGenerate ai pr => unitOp 2 1 (flagBits ai pr)
  | .ctrReseed ai => unitOp 2 2 (flagBits ai false)
  | .hashInstantiate => unitOp 3 0 0
  | .hashGenerate ai pr => unitOp 3 1 (flagBits ai pr)
  | .hashReseed ai => unitOp 3 2 (flagBits ai false)
  | .hmacInstantiate => unitOp 4 0 0
  | .hmacGenerate ai pr => unitOp 4 1 (flagBits ai pr)
  | .hmacReseed ai => unitOp 4 2 (flagBits ai false)
  | .dualecInstantiate => unitOp 5 0 0
  | .dualecGenerate ai pr => unitOp 5 1 (flagBits ai pr)
  | .dualecReseed ai => unitOp 5 2 (flagBits ai false)
  | .incBe => unitOp 0 0 0
  | .xorInto => unitOp 0 1 0
  | .addBe => unitOp 0 2 0
  | .shrBits k => unitOp 0 3 (k.setWidth 32)
  | .shlBits k => unitOp 0 4 (k.setWidth 32)
  | .strengthChk => unitOp 0 8 0
  | .hashDf => unitOp 1 0 0
  | .blockCipherDf => unitOp 1 1 0
  | .bcc => unitOp 1 2 0
  | .ctrUpdate => unitOp 2 8 0
  | .expandKey => unitOp 2 9 0
  | .hashgen => unitOp 3 8 0
  | .hmacUpdate => unitOp 4 8 0
  | .hmacUpdatePass marker => unitOp 4 9 ((BitVec.ofBool marker).setWidth 32)
  | .pad8 => unitOp 5 8 0

end Sys2Proof
end

