-- ==== Sys2Proof/Machine/HostPort.lean ====
section
/-! DEFINITION. The host's side of the block: acceptance of a command word (R243), the register map (R30 to R35), the
buffers (R60, R90), and the hazard of an access while a command runs (R310). -/

namespace Sys2Proof.Machine

/-- The engine and operation a host command word names, where the engine is present (R84, R87, R243). -/
def commandOf (b : Build) (w : Word) : Option (Engine × CmdOp) :=
  match decode w with
  | .ok i => i.command.bind fun c => if hasEngine b c.1 then some c else none
  | .error _ => none

/-- The phases at acceptance: a GENERATE of a seeded engine makes it `GENERATING` (R243). -/
def acceptPhases (ph : Phases) (c : Option (Engine × CmdOp)) : Phases :=
  match c with
  | some (e, .generate) => if ph.get e = .uninit then ph else ph.set e .generating
  | some (_, .instantiate) => ph
  | some (_, .reseed) => ph
  | none => ph

/-- Acceptance of a word written to `CMD` (R243): the word and the operand registers are latched and `BUSY` rises. -/
def State.accept (w : Word) (s : State) : State :=
  { s with
    cmd := w
    inflight := some
      { word := w, strength := s.strength, outLen := s.outLen, aiLen := s.aiLen, persLen := s.persLen,
        nonceLen := s.nonceLen, target := (commandOf s.build w).map fun c => (c.1, s.phases.get c.1) }
    phases := acceptPhases s.phases (commandOf s.build w) }

/-- A write of `CMD` on an idle block: ignored while halted but for `ERR = 7` (R31, R277), else accepted. -/
def State.writeCmd (w : Word) (s : State) : State :=
  if s.halt then { s with err := .contractViolation } else s.accept w

/-- `WR reg, value` on an idle block (R30): `STATUS` and `RESULT` are read only, so a write changes nothing. -/
def writeReg (reg : Nat) (value : Word) (s : State) : Host.Outcome State Fault Refusal :=
  match reg with
  | 0 => .next (s.writeCmd value)
  | 1 => .next s
  | 2 => .next s
  | 3 => .next { s with strength := value }
  | 4 => .next { s with outLen := value }
  | 5 => .next { s with aiLen := value }
  | 6 => .next { s with persLen := value }
  | 7 => .next { s with nonceLen := value }
  | n + 8 => .refused (.noSuchRegister (n + 8))

/-- The value of a host register as the host reads it, zero-extended to 64 bits (R30). -/
def regValue (reg : Nat) (s : State) : Option (BitVec 64) :=
  match reg with
  | 0 => some (s.cmd.setWidth 64)
  | 1 => some (s.status.setWidth 64)
  | 2 => some s.result
  | 3 => some (s.strength.setWidth 64)
  | 4 => some (s.outLen.setWidth 64)
  | 5 => some (s.aiLen.setWidth 64)
  | 6 => some (s.persLen.setWidth 64)
  | 7 => some (s.nonceLen.setWidth 64)
  | _ + 8 => none

/-- `RD reg` (R30): no side effect on the block (R64 (c)); the host has read the value. -/
def readReg (reg : Nat) (s : State) : Host.Outcome State Fault Refusal :=
  match regValue reg s with
  | some v => .next { s with hostReg := v }
  | none => .refused (.noSuchRegister reg)

/-- `FILL space, bytes` from offset 0, within the capacity (R60, R90). -/
def fillSpace (sp : Space) (bytes : Bytes) (s : State) : Host.Outcome State Fault Refusal :=
  if capacity s.build sp < bytes.length then .fault (.noSuchByte sp) else .next (s.fillBuffer sp bytes)

/-- `DUMP space, n` from offset 0, within the capacity (R60, R90); no side effect on the block (R64 (c)). -/
def dumpSpace (sp : Space) (n : Nat) (s : State) : Host.Outcome State Fault Refusal :=
  if capacity s.build sp < n then .fault (.noSuchByte sp)
  else .next { s with hostBytes := Memory.readBytes (s.buffer sp) 0 n }

/-- An access other than a read of `STATUS`, made while `BUSY = 1`, is a hazard violation (R310, U1); a register
that does not exist is refused in any case (R30). DESIGN CHOICE (log entry 18): an access after completion goes on as a
normal one even where no read of `STATUS` has returned `BUSY = 0` yet, which R310 forbids the host and R71 makes no
synchronisation point, without saying what the block does. -/
def guarded (regExists : Bool) (s : State) (access : Host.Outcome State Fault Refusal) :
    Host.Outcome State Fault Refusal :=
  if s.busy && regExists then .fault .hostHazard else access

/-- One host access. `poll` is the read of `STATUS` that ends it (Machine/Sequencer.lean repeats it). -/
def hostAccess (h : HostStep) (s : State) : Host.Outcome State Fault Refusal :=
  match h with
  | .wr reg value => guarded (reg < 8) s (writeReg reg value s)
  | .rd reg => guarded (reg < 8 && reg != 1) s (readReg reg s)
  | .fill sp bytes => guarded true s (fillSpace sp bytes s)
  | .dump sp n => guarded true s (dumpSpace sp n s)
  | .poll => readReg 1 s

end Sys2Proof.Machine
end

