-- ==== Sys2Proof/Machine/Sequencer.lean ====
section
/-! DEFINITION. Who moves next, and what the sequencer does with its turn: it runs the micro-operation word it has
issued (R85, R87 (c)), or completes the command in flight (R244), or is idle. -/

namespace Sys2Proof.Machine

/-- The sequencer runs the micro-operation word it has issued (R285 (b)); a word of no row of R85 is a contract
violation (R87 (c), R277). -/
def runMicro (w : Word) (s : State) : Host.Outcome State Fault Refusal :=
  match decode w with
  | .ok i => if i.command.isNone then exec i s else .next (s.violate none)
  | .error _ => .next (s.violate none)

/-- The sequencer completes the command in flight (R244): a word of no row of R84, a micro-operation word among
them, is `IllegalCommand` (R87 (a), R87 (b), R278). -/
def runCommand (w : Word) (s : State) : Host.Outcome State Fault Refusal :=
  match decode w with
  | .ok i => if i.command.isSome then exec i s else .next (s.raise none .illegalCommand)
  | .error _ => .next (s.raise none .illegalCommand)

/-- The block's turn; an idle block holds all its state (R291). -/
def blockTurn (s : State) : Host.Outcome State Fault Refusal :=
  match s.uop with
  | some w => runMicro w { s with uop := none }
  | none =>
    match s.inflight with
    | some l => runCommand l.word s
    | none => .next s

/-- `POLL` (R90): reads `STATUS` until `BUSY = 0`. While `BUSY = 1` the `POLL` stays and the block has the turn. DESIGN
CHOICE (log entries 11 and 17): the reads that return `BUSY = 1` leave no trace, so that `hostReg` takes the value of the
last read alone, where a read of `STATUS` by `rd 1` is recorded each time. DESIGN CHOICE (log entry 17): the repeated `POLL` keeps its place at the head of the agenda, so an
entropy answer or a reset listed behind it does not arrive before `BUSY = 0`, and a `POLL` on a stalled command repeats
for ever; the spec does not say that `POLL` keeps them out (R311). An agenda that lists reads of `STATUS` and the answer
or reset between them shows the other orders. -/
def pollTurn (rest : List Input) (s : State) : Host.Outcome State Fault Refusal :=
  if s.busy then blockTurn s else hostAccess .poll { s with agenda := rest }

/-- One step of the whole machine: the outside world's next input, or, with none, the block's turn. -/
def turn (s : State) : Host.Outcome State Fault Refusal :=
  match s.agenda with
  | [] => blockTurn s
  | .block :: rest => blockTurn { s with agenda := rest }
  | .entropy a :: rest => .next { s with agenda := rest, entropy := s.entropy ++ [a] }
  | .reset :: rest => .next { s.hwReset with agenda := rest }
  | .host .poll :: rest => pollTurn rest s
  | .host (.wr reg value) :: rest => hostAccess (.wr reg value) { s with agenda := rest }
  | .host (.rd reg) :: rest => hostAccess (.rd reg) { s with agenda := rest }
  | .host (.fill sp bytes) :: rest => hostAccess (.fill sp bytes) { s with agenda := rest }
  | .host (.dump sp n) :: rest => hostAccess (.dump sp n) { s with agenda := rest }

/-- The word of a table row as bits numbered from its least significant bit; the bits above `nbits` are 0. -/
def tableWord (nbits w : Nat) : Word := BitVec.ofNat 32 (w % 2 ^ nbits)

/-- Is the word one of a micro-operation? -/
def isMicroWord (w : Word) : Bool :=
  match decode w with
  | .ok i => i.command.isNone
  | .error _ => false

/-- A word stored where the sequencer fetches it next: a micro-operation word as the one it has issued, any other
word as a command just accepted; the next turn is the block's. -/
def State.loadWord (w : Word) (s : State) : State :=
  if isMicroWord w then { s with uop := some w, agenda := .block :: s.agenda }
  else { s.accept w with uop := none, agenda := .block :: s.agenda }

end Sys2Proof.Machine
end

