-- ==== Sys2Proof/Machine/Step.lean ====
section
/-! DEFINITION. One step of the machine, and the place a word is fetched from. -/

namespace Sys2Proof.Machine

/-- One step: whoever has the turn moves (Machine/Sequencer.lean). -/
def step (s : State) : Host.Outcome State Fault Refusal := turn s

/-- The state with the word of an opcode-table row stored where `step` fetches its next instruction (log entry 7). -/
def State.withFetchWord (s : State) (nbits w : Nat) : State := s.loadWord (tableWord nbits w)

end Sys2Proof.Machine
end

