-- ==== Sys2Proof/Safety.lean ====
section
/-! DEFINITION. What counts as a safe run, in the terms claims use: the invariants of the block (R24, R25, R29, R241,
R277) and the outcomes a host program may cause. -/

namespace Sys2Proof.Machine

/-- Every working register keeps the width of its table (R25 (c)). -/
structure WidthsOk (s : State) : Prop where
  ctrKey  : s.ctr.key.length = ctrKeyBytes s.build.ctr
  ctrV    : s.ctr.v.length = ctrBlockBytes s.build.ctr
  hashV   : s.hash.v.length = hashSeedBytes s.build.hash
  hashC   : s.hash.c.length = hashSeedBytes s.build.hash
  hmacK   : s.hmac.k.length = s.build.hmac.macSize
  hmacV   : s.hmac.v.length = s.build.hmac.macSize
  dualecS : s.dualec.s.length = curveSeedBytes s.curve

/-- The buffers are in canonical form and list no byte that does not exist (R60). -/
def BuffersOk (s : State) : Prop :=
  ∀ sp : Space, Memory.wf (s.buffer sp) = true ∧ Memory.within (capacity s.build sp) (s.buffer sp) = true

/-- The block is halted exactly when its last outcome is a contract violation, and a halted block runs nothing
(R277). -/
structure HaltOk (s : State) : Prop where
  halted_iff : s.halt = true ↔ s.err = .contractViolation
  idle       : s.halt = true → s.busy = false

/-- The least value of a counter (R25 (a)). -/
def counterLow : Engine → Nat
  | .ctr => 1
  | .hash => 1
  | .hmac => 1
  | .dualec => 0

/-- The greatest value of a counter (R25 (b)). -/
def counterHigh (b : Build) : Engine → Nat
  | .ctr => reseedInterval b .ctr + 1
  | .hash => reseedInterval b .hash + 1
  | .hmac => reseedInterval b .hmac + 1
  | .dualec => reseedInterval b .dualec

/-- The counter of every instantiated engine is within its bounds (R25 (a), (b)). -/
def CountersOk (s : State) : Prop :=
  ∀ e : Engine, s.phases.get e ≠ .uninit →
    counterLow e ≤ (s.counter e).toNat ∧ (s.counter e).toNat ≤ counterHigh s.build e

/-- `s` of an instantiated Dual-EC engine has at most `seedlen` significant bits (R24). -/
def ScalarOk (s : State) : Prop :=
  s.phases.dualec ≠ .uninit → be s.dualec.s < 2 ^ s.curve.seedlen

/-- For CTR, Hash and HMAC the phase `RESEED_REQUIRED` means that the counter is past the ceiling (R241). -/
def SignalOk (s : State) : Prop :=
  ∀ e : Engine, e ≠ .dualec → s.p0 e = .reseedRequired → s.pastCeiling e = true

/-- An engine is `GENERATING` exactly while a GENERATE that found it seeded is in flight on it, and the latch holds
the phase it had (R29, R240, R243). -/
def FlightOk (s : State) : Prop :=
  match s.inflight with
  | none => ∀ e, s.phases.get e ≠ .generating
  | some l =>
    match commandOf s.build l.word with
    | none => l.target = none ∧ ∀ e, s.phases.get e ≠ .generating
    | some (e, op) =>
      ∃ p, p ≠ .generating ∧ l.target = some (e, p) ∧
        s.phases.get e = (if op = .generate ∧ p ≠ .uninit then .generating else p) ∧
        ∀ f, f ≠ e → s.phases.get f ≠ .generating

/-- The invariant of the block. What R25 says of counters and values holds on a block that is not halted
(R255 (d)). -/
structure Inv (s : State) : Prop where
  legal    : buildLegal s.build = true
  widths   : WidthsOk s
  buffers  : BuffersOk s
  halted   : HaltOk s
  counters : s.halt = false → CountersOk s
  scalar   : s.halt = false → ScalarOk s
  signal   : s.halt = false → SignalOk s
  flight   : s.halt = false → FlightOk s

/-- A safe outcome of a step: the machine goes on and the block is not halted. -/
def SafeOutcome : Host.Outcome State Fault Refusal → Prop
  | .next s => s.halt = false
  | .fault _ => False
  | .refused _ => False

/-! ## When a command runs to its end (R246, R248, R250) -/

/-- INSTANTIATE of an engine (R84). -/
def instantiateOf : Engine → Instr
  | .ctr => .ctrInstantiate
  | .hash => .hashInstantiate
  | .hmac => .hmacInstantiate
  | .dualec => .dualecInstantiate

/-- GENERATE of an engine (R84). -/
def generateOf (e : Engine) (ai pr : Bool) : Instr :=
  match e with
  | .ctr => .ctrGenerate ai pr
  | .hash => .hashGenerate ai pr
  | .hmac => .hmacGenerate ai pr
  | .dualec => .dualecGenerate ai pr

/-- RESEED of an engine (R84). -/
def reseedOf (e : Engine) (ai : Bool) : Instr :=
  match e with
  | .ctr => .ctrReseed ai
  | .hash => .hashReseed ai
  | .hmac => .hmacReseed ai
  | .dualec => .dualecReseed ai

/-- The strength is one the engine supports (R248, R272). -/
abbrev StrengthSupported (e : Engine) (s : State) : Prop :=
  s.strengthOp ≤ maxStrength s.build e ∧ (e = .ctr ∨ e = .dualec → s.strengthOp ≤ 256)

/-- The nonce and the personalization string fit their buffers (R275 (b)). -/
abbrev SeedInputsFit (s : State) : Prop :=
  s.nonceLenOp ≤ s.build.nonceCap ∧ s.persLenOp ≤ s.build.persCap

/-- The additional input, where there is one, fits (R275 (a)). -/
abbrev InputFits (e : Engine) (ai : Bool) (s : State) : Prop :=
  ai = true → s.aiLenOp ≤ s.build.aiCap ∧ (e = .dualec → s.aiLenOp * 8 ≤ 2 ^ 12)

/-- The request is within the engine's per-call maximum and the buffer (R274). -/
abbrev RequestFits (e : Engine) (s : State) : Prop :=
  s.outLenOp ≤ s.build.outCap ∧
    (e = .ctr → s.outLenOp * 8 ≤ if s.build.ctr.isTdea then 2 ^ 12 else 2 ^ 18) ∧
    (e = .hash ∨ e = .hmac → s.outLenOp * 8 ≤ 2 ^ 18)

/-- The counter is not past the ceiling (R273); for Dual-EC the blocks of the request count (R218). -/
abbrev BelowCeiling (e : Engine) (s : State) : Prop :=
  (e = .ctr → s.ctr.reseedCounter.toNat ≤ if s.build.ctr.isTdea then 2 ^ 31 else 2 ^ 47) ∧
    (e = .hash → s.hash.reseedCounter.toNat ≤ 2 ^ 47) ∧
    (e = .hmac → s.hmac.reseedCounter.toNat ≤ 2 ^ 47) ∧
    (e = .dualec → s.dualec.reseedCounter.toNat + ceilDiv s.outLenOp s.curve.outlen ≤ 2 ^ 31)

/-- INSTANTIATE passes every check before the entropy call (R250). -/
abbrev InstantiateReady (e : Engine) (s : State) : Prop :=
  hasEngine s.build e = true ∧ s.p0 e = .uninit ∧ SeedInputsFit s ∧ StrengthSupported e s ∧
    s.strengthOp ≤ s.build.entropyBits

/-- GENERATE passes every check before the entropy call (R250). -/
abbrev GenerateReady (e : Engine) (ai : Bool) (s : State) : Prop :=
  hasEngine s.build e = true ∧ s.p0 e ≠ .uninit ∧ RequestFits e s ∧ InputFits e ai s ∧ BelowCeiling e s

/-- RESEED passes every check before the entropy call (R250). -/
abbrev ReseedReady (e : Engine) (ai : Bool) (s : State) : Prop :=
  hasEngine s.build e = true ∧ s.p0 e ≠ .uninit ∧ InputFits e ai s

/-! ## What an instruction leaves unchanged -/

/-- The working registers of one engine are the same in two states (R20). -/
def SameRegs (e : Engine) (s t : State) : Prop :=
  match e with
  | .ctr => t.ctr = s.ctr
  | .hash => t.hash = s.hash
  | .hmac => t.hmac = s.hmac
  | .dualec => t.dualec = s.dualec

/-- The build, the host's operand registers, the input buffers and the ports are the same in two states: no
instruction writes them. -/
structure SameInputs (s t : State) : Prop where
  build     : t.build = s.build
  cmd       : t.cmd = s.cmd
  strength  : t.strength = s.strength
  outLen    : t.outLen = s.outLen
  aiLen     : t.aiLen = s.aiLen
  persLen   : t.persLen = s.persLen
  nonceLen  : t.nonceLen = s.nonceLen
  pers      : t.pers = s.pers
  nonce     : t.nonce = s.nonce
  ai        : t.ai = s.ai
  agenda    : t.agenda = s.agenda
  hostReg   : t.hostReg = s.hostReg
  hostBytes : t.hostBytes = s.hostBytes

/-- What a contract violation leaves (R277): the code, the halt, an idle block, every phase as it stands, the inputs,
and the working registers of every engine but the one addressed. Nothing is said of that engine's registers and of
`OUT`, which are unspecified. -/
structure HaltedFrom (e : Option Engine) (s t : State) : Prop where
  err    : t.err = .contractViolation
  result : t.result = BitVec.ofInt 64 (-7)
  halt   : t.halt = true
  busy   : t.busy = false
  phases : t.phases = s.phases
  inputs : SameInputs s t
  others : ∀ f : Engine, some f ≠ e → SameRegs f s t

/-- The state with the working registers of the four engines replaced. -/
def State.withRegs (c : CtrRegs) (h : HashRegs) (m : HmacRegs) (d : DualecRegs) (s : State) : State :=
  { s with ctr := c, hash := h, hmac := m, dualec := d }

/-- The state with the working registers of every `UNINIT` engine put aside (R27). -/
def State.visible (s : State) : State :=
  s.withRegs (if s.phases.ctr = .uninit then ⟨[], [], 0⟩ else s.ctr)
    (if s.phases.hash = .uninit then ⟨[], [], 0⟩ else s.hash)
    (if s.phases.hmac = .uninit then ⟨[], [], 0⟩ else s.hmac)
    (if s.phases.dualec = .uninit then ⟨[], .p256, 0⟩ else s.dualec)

/-- An outcome with a function applied to its next state. -/
def mapNext (f : State → State) : Host.Outcome State Fault Refusal → Host.Outcome State Fault Refusal
  | .next s => .next (f s)
  | .fault r => .fault r
  | .refused r => .refused r

/-! ## The byte forms of the byte-math units (R100 to R104), from the least significant byte on -/

/-- `INC_BE`, byte by byte with a carry. -/
def incBytes (c : Nat) : Bytes → Bytes
  | [] => []
  | b :: bs => BitVec.ofNat 8 (b.toNat + c) :: incBytes ((b.toNat + c) / 256) bs

/-- `ADD_BE`, byte by byte with a carry; where the shorter operand has ended only the carry is added. -/
def addBytes (c : Nat) : Bytes → Bytes → Bytes
  | [], _ => []
  | l :: ls, [] => BitVec.ofNat 8 (l.toNat + c) :: addBytes ((l.toNat + c) / 256) ls []
  | l :: ls, x :: xs => BitVec.ofNat 8 (l.toNat + x.toNat + c) :: addBytes ((l.toNat + x.toNat + c) / 256) ls xs

/-- `SHR_BITS`, byte by byte from the left: the bits shifted out of a byte enter the next one. -/
def shrLoop (k : Nat) (carry : Byte) : Bytes → Bytes
  | [] => []
  | b :: bs => (b >>> k ||| carry <<< (8 - k)) :: shrLoop k b bs

/-- `SHL_BITS`, byte by byte from the right. -/
def shlLoop (k : Nat) (carry : Byte) : Bytes → Bytes
  | [] => []
  | b :: bs => (b <<< k ||| carry >>> (8 - k)) :: shlLoop k b bs

end Sys2Proof.Machine
end

