-- ==== Sys2Proof/Certificates/Slice0/Obligations.lean ====
section
/-! DEFINITION. The statements about the model, each a `Prop` that says which rules of spec/ it rests on. Most rules of
the host's side (registers, buffers, commands, reset, hazards) are the spec's own decisions, which 92_eei_decisions.md
lists with their reasons (D2 registers, D3 encodings, D4 buffers, D5 phases, D6 hazard, D9 codes, D12 phase check, D15
reset, D13 the halt): a statement that rests on one has the basis 'derived'. Where a statement gives the whole next
state of a command, it says with the rest that the temporaries of R39 (b), which the spec lets hold any value (U12),
stay as they are: that clause is the model's choice (log entry 16). Where a step runs without a command in flight, or
in the model's order of turns, the docstring names the log entry. -/

open Sys2Proof Sys2Proof.Machine

/-! ## Encoding -/

/-- Decoding the word of a well-formed instruction gives the instruction back: no operand bit is dropped
(R84, R85, R86). -/
def Obligations.DecodeOfEncode : Prop :=
  ∀ i : Instr, i.wf = true → decode (encode i) = .ok i

/-- A word that decodes is the word of a well-formed instruction: each instruction has one word (R84, R85, R88). -/
def Obligations.EncodeOfDecode : Prop :=
  ∀ (w : Word) (i : Instr), decode w = .ok i → i.wf = true ∧ encode i = w

/-- The opcode map has twenty-seven rows and no word selects two of them (R84, R86). -/
def Obligations.RowsDoNotOverlap : Prop :=
  opTable.length = 27 ∧ opTable.Pairwise fun a b => ∀ w : Word, ¬(a.selects w = true ∧ b.selects w = true)

/-- The reserved words of R87 (a), and the shifts by 0 of R85, are no instruction. -/
def Obligations.ReservedWordsRejected : Prop :=
  ∀ (w : Word) (unit op : Nat), (w.extractLsb' 28 4).toNat = unit → (w.extractLsb' 24 4).toNat = op →
    (6 ≤ unit → decode w = .error .reservedUnit) ∧
    (2 ≤ unit → unit ≤ 5 → 3 ≤ op → op ≤ 7 → decode w = .error .reservedOp) ∧
    (2 ≤ unit → unit ≤ 5 → op ≤ 2 → w &&& (0x00FFFFFC : Word) ≠ 0 → decode w = .error .reservedBits) ∧
    (2 ≤ unit → unit ≤ 5 → op = 2 → w &&& (1 : Word) ≠ 0 → ∃ r, decode w = .error r) ∧
    (2 ≤ unit → unit ≤ 5 → op = 0 → w &&& (3 : Word) ≠ 0 → ∃ r, decode w = .error r) ∧
    (w = 0x03000000 ∨ w = 0x04000000 → decode w = .error .reservedShiftCount)

/-- Words written out from R84 and R85, as the vectors T-CMD-1 list them, decode to what they stand for. -/
def Obligations.SampleWordsDecode : Prop :=
  decode 0x20000000 = .ok .ctrInstantiate ∧ decode 0x21000003 = .ok (.ctrGenerate true true) ∧
    decode 0x22000002 = .ok (.ctrReseed true) ∧ decode 0x31000001 = .ok (.hashGenerate false true) ∧
    decode 0x42000000 = .ok (.hmacReseed false) ∧ decode 0x51000002 = .ok (.dualecGenerate true false) ∧
    decode 0x00000000 = .ok .incBe ∧ decode 0x03000007 = .ok (.shrBits 7) ∧ decode 0x10000000 = .ok .hashDf ∧
    decode 0x28000000 = .ok .ctrUpdate ∧ decode 0x38000000 = .ok .hashgen ∧
    decode 0x49000001 = .ok (.hmacUpdatePass true) ∧ decode 0x58000000 = .ok .pad8

/-! ## The step -/

/-- A step runs the decoded instruction: the block's turn on a command in flight is `exec` of that command, one atomic
step (R244); its turn on an issued micro-operation word is `exec` of that micro-operation with the word taken. When
the block has its turn is the model's choice, not a rule of the spec: that an issued micro-operation takes a step of
its own and that an agenda that has run out gives the block the turn (log entry 7), that acceptance and completion are
two steps (log entry 9), and that a `POLL` repeated while `BUSY = 1` gives the block the turn in between (log entry
17). -/
def Obligations.StepRunsTheInstruction : Prop :=
  ∀ (s : State) (i : Instr) (rest : List Input),
    (∀ l : Latch, s.uop = none → s.inflight = some l → decode l.word = .ok i → i.command.isSome = true →
      (s.agenda = [] → step s = exec i s) ∧
      (s.agenda = .block :: rest → step s = exec i { s with agenda := rest }) ∧
      (s.agenda = .host .poll :: rest → step s = exec i s)) ∧
    (∀ w : Word, s.uop = some w → decode w = .ok i → i.command.isNone = true →
      (s.agenda = [] → step s = exec i { s with uop := none }) ∧
      (s.agenda = .block :: rest → step s = exec i { s with uop := none, agenda := rest }) ∧
      (s.agenda = .host .poll :: rest → step s = exec i { s with uop := none }))

/-- The word of an instruction stored by `withFetchWord` is the one the next step runs: a host command as accepted, a
micro-operation as issued (log entry 7). -/
def Obligations.FetchedWordRuns : Prop :=
  ∀ (s : State) (i : Instr), i.wf = true →
    (i.command.isSome = true →
      step (s.withFetchWord 32 (encode i).toNat) = exec i { s.accept (encode i) with uop := none }) ∧
    (i.command.isNone = true → step (s.withFetchWord 32 (encode i).toNat) = exec i { s with uop := none })

/-- A word written to `CMD` that names no host command of a present engine (a reserved word, a micro-operation word,
an absent engine) ends with `IllegalCommand`: two steps, after which only `CMD`, `ERR` and `RESULT` differ (R278,
R87). That acceptance and completion are two steps is log entry 9; that the temporaries stay is log entry 16. An
access after completion and before a read of `STATUS` goes on as any other (log entry 18). -/
def Obligations.IllegalCommandWord : Prop :=
  ∀ (s : State) (w : Word) (rest : List Input),
    s.busy = false → s.halt = false → s.agenda = .host (.wr 0 w) :: .block :: rest →
    (∀ i, decode w = .ok i →
      i.command = none ∨ ∃ e op, i.command = some (e, op) ∧ hasEngine s.build e = false) →
    ∃ t, step s = .next t ∧ t.busy = true ∧
      step t = .next { s with
        agenda := rest, cmd := w, err := .illegalCommand, result := BitVec.ofInt 64 (-8) }

/-- The register `CMD` (R31): an accepted write stores the word, latches it with the operand registers and raises
`BUSY`; a read returns the word; a write while busy is the host's hazard; a write while halted only sets `ERR = 7`.
What the host has read stands in the model's own field (log entry 11). An access after completion and before a read of
`STATUS` goes on as any other (log entry 18). -/
def Obligations.CommandRegister : Prop :=
  ∀ (s : State) (w : Word) (rest : List Input),
    (s.agenda = .host (.wr 0 w) :: rest → s.busy = false → s.halt = false →
      ∃ t l, step s = .next t ∧ t.inflight = some l ∧ l.word = w ∧ l.strength = s.strength ∧ l.outLen = s.outLen ∧
        l.aiLen = s.aiLen ∧ l.persLen = s.persLen ∧ l.nonceLen = s.nonceLen ∧ t.busy = true ∧
        t = { s with agenda := rest, cmd := w, inflight := some l, phases := t.phases }) ∧
    (s.agenda = .host (.wr 0 w) :: rest → s.busy = true → step s = .fault .hostHazard) ∧
    (s.agenda = .host (.wr 0 w) :: rest → s.busy = false → s.halt = true →
      step s = .next { s with agenda := rest, err := .contractViolation }) ∧
    (s.agenda = .host (.rd 0) :: rest → s.busy = false →
      step s = .next { s with agenda := rest, hostReg := s.cmd.setWidth 64 }) ∧
    State.reset.cmd = 0

/-- Acceptance (R243): the latch holds the addressed engine with the phase it had, and the engine of a GENERATE that
is not `UNINIT` becomes `GENERATING`; no other phase changes. An access after completion and before a read of `STATUS`
goes on as any other (log entry 18). -/
def Obligations.AcceptanceLatchesThePhase : Prop :=
  ∀ (s : State) (w : Word) (i : Instr) (e : Engine) (op : CmdOp) (rest : List Input),
    s.agenda = .host (.wr 0 w) :: rest → s.busy = false → s.halt = false →
    decode w = .ok i → i.command = some (e, op) → hasEngine s.build e = true →
    ∃ t l, step s = .next t ∧ t.inflight = some l ∧ l.target = some (e, s.phases.get e) ∧
      t.phases = (if op = .generate ∧ s.phases.get e ≠ .uninit then s.phases.set e .generating else s.phases) ∧
      t.p0 e = s.phases.get e

/-- The host register map (R30): what a read returns, what a write changes, and that registers 8 and above do not
exist. What the host has read stands in the model's own field (log entry 11). An access after completion and before a
read of `STATUS` goes on as any other (log entry 18). That the operand registers take writes while the block is halted
is log entry 10. -/
def Obligations.HostRegisterMap : Prop :=
  ∀ (s : State) (n : Nat) (rest : List Input),
    (∀ x : BitVec 64, s.busy = false → s.agenda = .host (.rd n) :: rest →
      (n, x) ∈ [(0, s.cmd.setWidth 64), (1, s.status.setWidth 64), (2, s.result), (3, s.strength.setWidth 64),
        (4, s.outLen.setWidth 64), (5, s.aiLen.setWidth 64), (6, s.persLen.setWidth 64),
        (7, s.nonceLen.setWidth 64)] →
      step s = .next { s with agenda := rest, hostReg := x }) ∧
    (∀ (v : Word) (t : State), s.busy = false → s.agenda = .host (.wr n v) :: rest →
      (n, t) ∈ [(1, s), (2, s), (3, { s with strength := v }), (4, { s with outLen := v }),
        (5, { s with aiLen := v }), (6, { s with persLen := v }), (7, { s with nonceLen := v })] →
      step s = .next { t with agenda := rest }) ∧
    (8 ≤ n → s.agenda = .host (.rd n) :: rest → step s = .refused (.noSuchRegister n)) ∧
    (∀ v : Word, 8 ≤ n → s.agenda = .host (.wr n v) :: rest → step s = .refused (.noSuchRegister n))

/-- The fields of `STATUS` (R32) and the numbers in them: the four phases are 0 to 3 (R29), the ten codes 0 to 9
(R270). -/
def Obligations.StatusFields : Prop :=
  (∀ s : State,
    s.status.extractLsb' 0 2 = BitVec.ofNat 2 s.phases.ctr.number ∧
    s.status.extractLsb' 2 2 = BitVec.ofNat 2 s.phases.hash.number ∧
    s.status.extractLsb' 4 2 = BitVec.ofNat 2 s.phases.hmac.number ∧
    s.status.extractLsb' 6 2 = BitVec.ofNat 2 s.phases.dualec.number ∧
    s.status.extractLsb' 8 1 = BitVec.ofBool s.busy ∧
    s.status.extractLsb' 9 1 = BitVec.ofBool s.halt ∧
    s.status.extractLsb' 10 2 = 0 ∧
    s.status.extractLsb' 12 4 = BitVec.ofNat 4 s.err.number ∧
    s.status.extractLsb' 16 16 = 0) ∧
  (Phase.uninit.number = 0 ∧ Phase.seeded.number = 1 ∧ Phase.generating.number = 2 ∧
    Phase.reseedRequired.number = 3) ∧
  Code.ok.number = 0 ∧ Code.reseedRequired.number = 1 ∧ Code.strengthNotSupported.number = 2 ∧
  Code.entropyUnderProvisioned.number = 3 ∧ Code.requestTooLarge.number = 4 ∧ Code.inputTooLarge.number = 5 ∧
  Code.entropyFailure.number = 6 ∧ Code.contractViolation.number = 7 ∧ Code.illegalCommand.number = 8 ∧
  Code.illegalState.number = 9

/-- The single-owner hazard (R310): while a command runs, every access to a register or a buffer but a read of
`STATUS` is a fault of the host program; the read of `STATUS` goes on. What the host has read stands in the model's
own field (log entry 11). -/
def Obligations.BusyHazard : Prop :=
  ∀ (s : State) (h : HostStep) (rest : List Input), s.busy = true → s.agenda = .host h :: rest →
    (∀ n v, n < 8 → h = .wr n v → step s = .fault .hostHazard) ∧
    (∀ n, n < 8 → n ≠ 1 → h = .rd n → step s = .fault .hostHazard) ∧
    (∀ sp bytes, h = .fill sp bytes → step s = .fault .hostHazard) ∧
    (∀ sp n, h = .dump sp n → step s = .fault .hostHazard) ∧
    (h = .rd 1 → step s = .next { s with agenda := rest, hostReg := s.status.setWidth 64 })

/-- `FILL` and `DUMP` (R60, R90, R64 (c)): a fill writes its bytes from offset 0 and nothing else, a dump reads and
changes no state of the block. R60 gives each buffer its capacity and says nothing of an access above it: that such a
`FILL` or `DUMP` is the fault `noSuchByte` is the model's reading (log entry 10), and so are that a fill of `OUT` and
a dump of an input buffer are allowed, and that both go on while the block is halted (log entry 10). What the host has
read stands in the model's own field (log entry 11). An access after completion and before a read of `STATUS` goes on
as any other (log entry 18). -/
def Obligations.BufferAccess : Prop :=
  ∀ (s : State) (sp : Space) (rest : List Input), s.busy = false →
    (∀ bytes : Bytes, s.agenda = .host (.fill sp bytes) :: rest →
      (bytes.length ≤ capacity s.build sp → Memory.wf (s.buffer sp) = true →
        ∃ t, step s = .next t ∧
          (∀ a, Memory.read (t.buffer sp) a = (bytes[a]?).getD (Memory.read (s.buffer sp) a)) ∧
          (∀ q, q ≠ sp → t.buffer q = s.buffer q) ∧
          t = { s with agenda := rest, pers := t.pers, nonce := t.nonce, ai := t.ai, out := t.out }) ∧
      (capacity s.build sp < bytes.length → step s = .fault (.noSuchByte sp))) ∧
    (∀ n : Nat, s.agenda = .host (.dump sp n) :: rest →
      (n ≤ capacity s.build sp →
        step s = .next { s with
          agenda := rest, hostBytes := (List.range n).map fun a => Memory.read (s.buffer sp) a }) ∧
      (capacity s.build sp < n → step s = .fault (.noSuchByte sp)))

/-- No host access reads or writes a working register (R38): with other working registers the access has the same
outcome, those registers apart. -/
def Obligations.HostCannotSeeWorkingState : Prop :=
  ∀ (s : State) (x : HostStep) (c : CtrRegs) (h : HashRegs) (m : HmacRegs) (d : DualecRegs),
    hostAccess x (s.withRegs c h m d) = mapNext (State.withRegs c h m d) (hostAccess x s)

/-- Hardware reset (R300): phases, host registers and `STATUS` as the rule lists them, a command in flight abandoned,
the constants untouched. Nothing is said of working registers and buffers, which R301 leaves open. That the rest of
the agenda stays is log entry 14. -/
def Obligations.HardwareReset : Prop :=
  ∀ (s : State) (rest : List Input), s.agenda = .reset :: rest →
    ∃ t, step s = .next t ∧ t.agenda = rest ∧ t.phases = ⟨.uninit, .uninit, .uninit, .uninit⟩ ∧
      t.cmd = 0 ∧ t.result = 0 ∧ t.strength = 0 ∧ t.outLen = 0 ∧ t.aiLen = 0 ∧ t.persLen = 0 ∧ t.nonceLen = 0 ∧
      t.status = 0 ∧ t.halt = false ∧ t.err = .ok ∧ t.inflight = none ∧ t.uop = none ∧ t.build = s.build

/-- The values the spec gives for the state after reset (R40). The working registers and buffers, to which it gives
none, are not named here. -/
def Obligations.ResetValues : Prop :=
  State.reset.phases = ⟨.uninit, .uninit, .uninit, .uninit⟩ ∧ State.reset.cmd = 0 ∧ State.reset.status = 0 ∧
    State.reset.result = 0 ∧ State.reset.strength = 0 ∧ State.reset.outLen = 0 ∧ State.reset.aiLen = 0 ∧
    State.reset.persLen = 0 ∧ State.reset.nonceLen = 0 ∧ State.reset.busy = false ∧ State.reset.halt = false ∧
    State.reset.err = .ok

/-! ## Rules of the whole machine -/

/-- The invariant holds right after reset (R24, R25, R29, R277; log entries 1, 2 and 4). -/
def Obligations.ResetKeepsTheInvariant : Prop := Inv State.reset

/-- Every step keeps the invariant: register widths, counter bounds, the canonical form of the buffers, the phase and
the latch in agreement, and the halt (R24, R25, R60, R241, R243, R255 (d), R277). -/
def Obligations.StepKeepsTheInvariant : Prop :=
  ∀ s t : State, Inv s → step s = .next t → Inv t

/-- Nothing but a hardware reset returns an engine to `UNINIT` or clears the halt (R241, R300). -/
def Obligations.OnlyResetUninstantiates : Prop :=
  ∀ s t : State, Inv s → (∀ rest, s.agenda ≠ .reset :: rest) → step s = .next t →
    (∀ e, s.phases.get e ≠ .uninit → t.phases.get e ≠ .uninit) ∧ (s.halt = true → t.halt = true)

/-- A command on one engine leaves the working registers and the phase of the other three unchanged
(R20, R241, R255 (c)). -/
def Obligations.EnginesAreIsolated : Prop :=
  ∀ (i : Instr) (e f : Engine) (op : CmdOp) (s t : State),
    i.command = some (e, op) → f ≠ e → exec i s = .next t → SameRegs f s t ∧ t.phases.get f = s.phases.get f

/-- No step of a host command, and no other step but that of an issued micro-operation, reads a working register of an
`UNINIT` engine: two states with no micro-operation issued that differ in such registers alone take steps that differ
in them alone (R27). So no run of host commands depends on the values the model gives these registers at reset (log
entry 1). A micro-operation that stands alone may read them (log entries 1 and 13); nothing is said of its step. -/
def Obligations.HostCommandsNeverReadUninitRegisters : Prop :=
  ∀ s s' : State, Inv s → s.uop = none → s.visible = s'.visible →
    mapNext State.visible (step s) = mapNext State.visible (step s')

/-- A GENERATE with prediction resistance that succeeds equals a RESEED with the same additional input followed by a
GENERATE with none, on the whole state (R91, R251, R255 (f)). Each is run with no command in flight, where the model
takes the registers as the latch and the present phase as `p0`, and leaves `CMD` as it is (log entry 9): the equality
of whole states holds in that reading. The temporaries stay by log entry 16. -/
def Obligations.PredictionResistanceIsReseedThenGenerate : Prop :=
  ∀ (e : Engine) (ai : Bool) (s u : State) (entropy : Bytes) (rest : List EntropyAnswer),
    s.inflight = none → s.entropy = .ok entropy :: rest →
    exec (generateOf e ai true) s = .next u → u.err = .ok →
    ∃ t, exec (reseedOf e ai) s = .next t ∧ exec (generateOf e false false) t = .next u

/-- The frame of every instruction: it writes no operand register of the host, not `CMD`, no input buffer, not the
build, the agenda or what the host has read (R30, R60); of `OUT`, a GENERATE writes the bytes at offsets below
`OUT_LEN` and any other instruction none (R69 (b), (c)), a contract violation apart, after which `OUT` is
unspecified (R277). -/
def Obligations.InstructionFrame : Prop :=
  ∀ (i : Instr) (s t : State), exec i s = .next t →
    SameInputs s t ∧
    (Memory.wf s.out = true → s.halt = false → t.halt = false →
      ∀ a, (∀ e ai pr, i = generateOf e ai pr → s.outLenOp ≤ a) → Memory.read t.out a = Memory.read s.out a)

/-! ## Outcomes -/

/-- Outcomes are all-or-nothing (R271, R282): a command that ends with a code other than 0 and 7 has written only
`ERR`, `RESULT`, the phase of R241 and `BUSY`; only an entropy failure has taken an answer of the source. The other
case is the stall: no answer, and nothing has happened (R311); that the waiting block takes a step that returns the
state is log entry 8. The temporaries stay by log entry 16. -/
def Obligations.OutcomesAreAllOrNothing : Prop :=
  ∀ (i : Instr) (e : Engine) (op : CmdOp) (s t : State),
    i.command = some (e, op) → exec i s = .next t → t.err ≠ .ok → t.err ≠ .contractViolation →
    (s.entropy = [] ∧ t = s) ∨
      ((if t.err = .entropyFailure then s.entropy = .fail :: t.entropy else t.entropy = s.entropy) ∧
        t = { s with
          err := t.err
          result := -BitVec.ofNat 64 t.err.number
          phases := s.phases.set e (if t.err = .reseedRequired then .reseedRequired else s.p0 e)
          inflight := none
          uop := none
          entropy := t.entropy })

/-- INSTANTIATE of any engine completes, with the first failing check in the order of R250 as its outcome, and success
where none fails (R246, R248, R272, R275, R276, R280, R283). The entropy source is asked last: an answer is needed
only where every earlier check passes, and without one that command waits (EntropyFailureAndStall). -/
def Obligations.InstantiateOutcome : Prop :=
  ∀ (e : Engine) (s : State), buildLegal s.build = true → (InstantiateReady e s → s.entropy ≠ []) →
    ∃ t, exec (instantiateOf e) s = .next t ∧ t.busy = false ∧
      t.err =
        if hasEngine s.build e = false then .illegalCommand
        else if s.p0 e ≠ .uninit then .illegalState
        else if ¬SeedInputsFit s then .inputTooLarge
        else if ¬StrengthSupported e s then .strengthNotSupported
        else if s.build.entropyBits < s.strengthOp then .entropyUnderProvisioned
        else if s.entropy.head? = some .fail then .entropyFailure
        else .ok

/-- GENERATE of any engine completes, with the first failing check in the order of R250 as its outcome, else success;
for Dual-EC alone a contract violation is possible after the checks (R66, R246, R273, R274, R275, R276, R277, R283).
An answer of the entropy source is needed only with prediction resistance, and only where every earlier check passes;
without one that command waits (EntropyFailureAndStall). -/
def Obligations.GenerateOutcome : Prop :=
  ∀ (e : Engine) (ai pr : Bool) (s : State), buildLegal s.build = true → WidthsOk s →
    (pr = true → GenerateReady e ai s → s.entropy ≠ []) →
    ∃ (t : State) (last : Code), exec (generateOf e ai pr) s = .next t ∧ t.busy = false ∧
      (last = .ok ∨ (e = .dualec ∧ last = .contractViolation)) ∧
      t.err =
        if hasEngine s.build e = false then .illegalCommand
        else if s.p0 e = .uninit then .illegalState
        else if ¬RequestFits e s then .requestTooLarge
        else if ¬InputFits e ai s then .inputTooLarge
        else if ¬BelowCeiling e s then .reseedRequired
        else if pr = true ∧ s.entropy.head? = some .fail then .entropyFailure
        else last

/-- RESEED of any engine completes, with the first failing check in the order of R250 as its outcome, and success where
none fails (R246, R249, R275, R276, R283). An answer of the entropy source is needed only where every earlier check
passes; without one that command waits (EntropyFailureAndStall). -/
def Obligations.ReseedOutcome : Prop :=
  ∀ (e : Engine) (ai : Bool) (s : State), buildLegal s.build = true → WidthsOk s →
    (ReseedReady e ai s → s.entropy ≠ []) →
    ∃ t, exec (reseedOf e ai) s = .next t ∧ t.busy = false ∧
      t.err =
        if hasEngine s.build e = false then .illegalCommand
        else if s.p0 e = .uninit then .illegalState
        else if ¬InputFits e ai s then .inputTooLarge
        else if s.entropy.head? = some .fail then .entropyFailure
        else .ok

/-- `RequestTooLarge` (R274): a GENERATE whose request is above the engine's per-call maximum or above `OUT_CAP`
generates nothing and changes no state but the outcome; any other GENERATE has another outcome, or is still waiting
for its entropy. The `RESULT` is -4 (R271) and the phase is the one at acceptance (R241). That the waiting block takes
a step that returns the state is log entry 8; that the temporaries stay is log entry 16. -/
def Obligations.RequestTooLarge : Prop :=
  ∀ (e : Engine) (ai pr : Bool) (s : State) (tooLarge : Prop), hasEngine s.build e = true → s.p0 e ≠ .uninit →
    (tooLarge ↔ s.build.outCap < s.outLenOp ∨
      (e = .ctr ∧ (if s.build.ctr.isTdea then 2 ^ 12 else 2 ^ 18) < s.outLenOp * 8) ∨
      ((e = .hash ∨ e = .hmac) ∧ 2 ^ 18 < s.outLenOp * 8)) →
    (tooLarge →
      exec (generateOf e ai pr) s = .next { s with
        err := .requestTooLarge, result := BitVec.ofInt 64 (-4), phases := s.phases.set e (s.p0 e)
        inflight := none, uop := none }) ∧
    (¬tooLarge → ∀ t, exec (generateOf e ai pr) s = .next t → t = s ∨ t.err ≠ .requestTooLarge)

/-- `IllegalState` (R279): INSTANTIATE on an engine that is not `UNINIT`, GENERATE and RESEED on one that is; the
engine keeps its phase and nothing else changes. The temporaries stay by log entry 16. -/
def Obligations.IllegalState : Prop :=
  ∀ (e : Engine) (i : Instr) (s : State), hasEngine s.build e = true →
    ((i = instantiateOf e ∧ s.p0 e ≠ .uninit) ∨
      (((∃ ai pr, i = generateOf e ai pr) ∨ ∃ ai, i = reseedOf e ai) ∧ s.p0 e = .uninit)) →
    exec i s = .next { s with
      err := .illegalState, result := BitVec.ofInt 64 (-9), phases := s.phases.set e (s.p0 e)
      inflight := none, uop := none }

/-- The ceiling (R273, R142, R171, R195, R218): a GENERATE past it, with prediction resistance or without, answers -1,
records the signal in the phase and changes nothing else; it does not reseed (R251). The temporaries stay by log entry
16. -/
def Obligations.ReseedRequiredSignal : Prop :=
  ∀ (e : Engine) (ai pr : Bool) (s : State), hasEngine s.build e = true → s.p0 e ≠ .uninit →
    RequestFits e s → InputFits e ai s → ¬BelowCeiling e s →
    exec (generateOf e ai pr) s = .next { s with
      err := .reseedRequired, result := BitVec.ofInt 64 (-1), phases := s.phases.set e .reseedRequired
      inflight := none, uop := none }

/-- What the entropy port's answer does to a command that has passed its checks: `Fail` ends it with `EntropyFailure`
and no other change (R276; the temporaries stay by log entry 16). With no answer R311 gives the block no next step;
the model writes this stuck state as a step that returns the state unchanged, its own choice (log entry 8), so the
block stays where it is until an answer or a reset arrives. -/
def Obligations.EntropyFailureAndStall : Prop :=
  ∀ (e : Engine) (i : Instr) (ai : Bool) (s : State),
    ((i = instantiateOf e ∧ InstantiateReady e s) ∨ (i = generateOf e ai true ∧ GenerateReady e ai s) ∨
      (i = reseedOf e ai ∧ ReseedReady e ai s)) →
    (∀ rest, s.entropy = .fail :: rest →
      exec i s = .next { s with
        err := .entropyFailure, result := BitVec.ofInt 64 (-6), phases := s.phases.set e (s.p0 e)
        inflight := none, uop := none, entropy := rest }) ∧
    (s.entropy = [] → exec i s = .next s)

/-! ## The CTR engine -/

/-- `CTR.INSTANTIATE` runs to its end (R145): the derived seed is folded into all-zero `key` and `v`, the counter is
1, and nothing else but the outcome is written. The temporaries stay by log entry 16. The all-zero start and the
derivation function are the spec's general knowledge (G2 and G1, log entry 15). That it also takes a string of 2^32
bytes or more is log entry 19. -/
def Obligations.CtrInstantiateCompletes : Prop :=
  ∀ (s : State) (entropy : Bytes) (rest : List EntropyAnswer),
    buildLegal s.build = true → InstantiateReady .ctr s → s.entropy = .ok entropy :: rest →
    ∃ seed kv,
      blockCipherDf Config.prims s.build.ctr (entropy ++ s.nonceIn ++ s.persIn) (ctrSeedlen s.build.ctr) = some seed ∧
      ctrUpdateOf Config.prims s.build.ctr (zeros (ctrKeyBytes s.build.ctr)) (zeros (ctrBlockBytes s.build.ctr)) seed =
        some kv ∧
      exec .ctrInstantiate s = .next { s with
        ctr := ⟨kv.1, kv.2, 1⟩, entropy := rest, err := .ok, result := 0
        phases := s.phases.set .ctr .seeded, inflight := none, uop := none }

/-- `CTR.GENERATE` runs to its end in every form (R147): from the working registers, or from the reseeded ones with
prediction resistance, the additional input is folded in where there is one; block `j` of the output is the cipher on
`v + j + 1`, all under one key; the seed is folded in once more, the counter is one higher, and `RESULT` is the number
of bits. The temporaries stay by log entry 16. The derivation function is the spec's general knowledge (G1, log entry
15). That it also takes a string of 2^32 bytes or more is log entry 19. -/
def Obligations.CtrGenerateCompletes : Prop :=
  ∀ (s : State) (ai pr : Bool) (entropy : Bytes) (rest : List EntropyAnswer),
    buildLegal s.build = true → WidthsOk s → GenerateReady .ctr ai s → (pr = true → s.entropy = .ok entropy :: rest) →
    ∃ (r0 r1 : CtrRegs) (seed cipherKey v : Bytes) (kv : Bytes × Bytes) (blocks : Nat),
      (pr = false → r0 = s.ctr) ∧
      (pr = true → ctrReseedOf Config.prims s.build.ctr s.ctr entropy (orEmpty (s.aiIn ai)) = some r0) ∧
      (pr = true ∨ ai = false → r1 = r0 ∧ seed = zeros (ctrSeedBytes s.build.ctr)) ∧
      (pr = false → ai = true → ∃ kv1,
        blockCipherDf Config.prims s.build.ctr (orEmpty (s.aiIn ai)) (ctrSeedlen s.build.ctr) = some seed ∧
        ctrUpdateOf Config.prims s.build.ctr r0.key r0.v seed = some kv1 ∧
        r1 = { r0 with key := kv1.1, v := kv1.2 }) ∧
      blocks = ceilDiv s.outLenOp (ctrBlockBytes s.build.ctr) ∧
      expandKeyFor Config.prims s.build.ctr r1.key = some cipherKey ∧
      v = toBE (ctrBlockBytes s.build.ctr) (be r1.v + blocks) ∧
      ctrUpdateOf Config.prims s.build.ctr r1.key v seed = some kv ∧
      exec (.ctrGenerate ai pr) s = .next { s with
        ctr := ⟨kv.1, kv.2, r0.reseedCounter + 1⟩
        out := Memory.writeBytes s.out 0 ((((List.range blocks).map fun j =>
          portEncrypt Config.prims s.build.ctr cipherKey
            (toBE (ctrBlockBytes s.build.ctr) (be r1.v + j + 1))).flatten).take s.outLenOp)
        entropy := if pr then rest else s.entropy
        err := .ok, result := BitVec.ofNat 64 (s.outLenOp * 8)
        phases := s.phases.set .ctr .seeded, inflight := none, uop := none }

/-- `CTR.RESEED` runs to its end (R148): the seed derived from entropy and additional input is folded into the
registers, and the counter is 1. The temporaries stay by log entry 16. The derivation function is the spec's general
knowledge (G1, log entry 15). That it also takes a string of 2^32 bytes or more is log entry 19. -/
def Obligations.CtrReseedCompletes : Prop :=
  ∀ (s : State) (ai : Bool) (entropy : Bytes) (rest : List EntropyAnswer),
    buildLegal s.build = true → WidthsOk s → ReseedReady .ctr ai s → s.entropy = .ok entropy :: rest →
    ∃ seed kv,
      blockCipherDf Config.prims s.build.ctr (entropy ++ orEmpty (s.aiIn ai)) (ctrSeedlen s.build.ctr) = some seed ∧
      ctrUpdateOf Config.prims s.build.ctr s.ctr.key s.ctr.v seed = some kv ∧
      exec (.ctrReseed ai) s = .next { s with
        ctr := ⟨kv.1, kv.2, 1⟩, entropy := rest, err := .ok, result := 0
        phases := s.phases.set .ctr .seeded, inflight := none, uop := none }

/-- `CTR_UPDATE` (R141): the keystream of the old key, cut to the seed's length and XORed with the seed, becomes `key
|| v`; a seed of another length is a contract violation. The violation halts the block (R277, the spec's decision
D13); that with no command in flight its engine is CTR is the model's choice (log entry 13). -/
def Obligations.CtrUpdateCompletes : Prop :=
  ∀ s : State, ctrLegal s.build.ctr = true → WidthsOk s →
    (s.dp.bufA.length = ctrSeedBytes s.build.ctr →
      ∃ cipherKey temp, expandKeyFor Config.prims s.build.ctr s.ctr.key = some cipherKey ∧
        temp = List.zipWith (fun x y => x ^^^ y)
          ((((List.range (ceilDiv (ctrSeedBytes s.build.ctr) (ctrBlockBytes s.build.ctr))).map fun j =>
            portEncrypt Config.prims s.build.ctr cipherKey (toBE s.ctr.v.length (be s.ctr.v + j + 1))).flatten).take
              (ctrSeedBytes s.build.ctr)) s.dp.bufA ∧
        exec .ctrUpdate s = .next { s with
          ctr := { s.ctr with
            key := temp.take (ctrKeyBytes s.build.ctr), v := temp.drop (ctrKeyBytes s.build.ctr) } }) ∧
    (s.dp.bufA.length ≠ ctrSeedBytes s.build.ctr →
      ∃ t, exec .ctrUpdate s = .next t ∧ HaltedFrom ((s.target.map (·.1)).or (some .ctr)) s t)

/-- `EXPAND_KEY` (R140): the key itself unless TDEA; for TDEA 24 bytes, each with an odd number of one bits, from a
key of the length the descriptor takes, and a contract violation for another. The violation halts the block (R277, the
spec's decision D13); that with no command in flight its engine is CTR is the model's choice (log entry 13). That what
the port answers is brought to 24 bytes of odd parity is log entry 6. -/
def Obligations.ExpandKeyCompletes : Prop :=
  ∀ s : State,
    (s.build.ctr.isTdea = false → exec .expandKey s = .next { s with dp := { s.dp with res := s.dp.bufA } }) ∧
    (s.build.ctr.isTdea = true → s.dp.bufA.length = s.build.ctr.expandTakes →
      ∃ r : Bytes, exec .expandKey s = .next { s with dp := { s.dp with res := r } } ∧
        r = portExpandKey Config.prims s.dp.bufA ∧ r.length = 24 ∧
        ∀ b ∈ r, ((List.range 8).countP fun j => b.getLsbD j) % 2 = 1) ∧
    (s.build.ctr.isTdea = true → s.dp.bufA.length ≠ s.build.ctr.expandTakes →
      ∃ t, exec .expandKey s = .next t ∧ HaltedFrom ((s.target.map (·.1)).or (some .ctr)) s t)

/-- `BCC` (R122): the chain of encrypted XORs over the blocks of the data from a zero block; data that is not whole
blocks is a contract violation. The violation halts the block (R277, the spec's decision D13); that with no command in
flight its engine is CTR is the model's choice (log entry 13). The passage itself is the spec's general knowledge (G1,
log entry 15). -/
def Obligations.BccCompletes : Prop :=
  ∀ s : State, ctrLegal s.build.ctr = true → s.dp.bufA.length = ctrKeyBytes s.build.ctr →
    (∀ m, s.dp.bufB.length = m * ctrBlockBytes s.build.ctr →
      ∃ cipherKey, expandKeyFor Config.prims s.build.ctr s.dp.bufA = some cipherKey ∧
        exec .bcc s = .next { s with dp := { s.dp with
          res := (List.range m).foldl (fun chain i =>
            portEncrypt Config.prims s.build.ctr cipherKey (List.zipWith (fun x y => x ^^^ y) chain
              ((s.dp.bufB.drop (i * ctrBlockBytes s.build.ctr)).take (ctrBlockBytes s.build.ctr))))
            (zeros (ctrBlockBytes s.build.ctr)) } }) ∧
    (s.dp.bufB.length % ctrBlockBytes s.build.ctr ≠ 0 →
      ∃ t, exec .bcc s = .next t ∧ HaltedFrom ((s.target.map (·.1)).or (some .ctr)) s t)

/-- `BLOCK_CIPHER_DF` (R123): the padded string, `BCC` of it under the fixed key for each counter, and output feedback
under the key and the block so found; `out_bit_len / 8` bytes come out. A length that is not whole bytes is a contract
violation. The violation halts the block (R277, the spec's decision D13); that with no command in flight its engine is
CTR is the model's choice (log entry 13). The passage itself is the spec's general knowledge (G1, log entry 15). That
an `input` of 2^32 bytes or more runs too, its length written modulo 2^32, is the model's choice (log entry 19). -/
def Obligations.BlockCipherDfCompletes : Prop :=
  ∀ s : State, ctrLegal s.build.ctr = true →
    (s.dp.bits.toNat % 8 = 0 →
      ∃ (pad : Nat) (str temp cipherKey : Bytes) (y x : Nat → Bytes),
        pad < ctrBlockBytes s.build.ctr ∧ str.length % ctrBlockBytes s.build.ctr = 0 ∧
        str = toBE 4 s.dp.bufA.length ++ toBE 4 (s.dp.bits.toNat / 8) ++ s.dp.bufA ++ [0x80] ++ zeros pad ∧
        (∀ i, i < ceilDiv (ctrKeyBytes s.build.ctr + ctrBlockBytes s.build.ctr) (ctrBlockBytes s.build.ctr) →
          bccOf Config.prims s.build.ctr (((List.range 32).map (BitVec.ofNat 8)).take (ctrKeyBytes s.build.ctr))
            (toBE 4 i ++ zeros (ctrBlockBytes s.build.ctr - 4) ++ str) = some (y i)) ∧
        temp = ((List.range (ceilDiv (ctrKeyBytes s.build.ctr + ctrBlockBytes s.build.ctr)
          (ctrBlockBytes s.build.ctr))).map y).flatten ∧
        expandKeyFor Config.prims s.build.ctr (temp.take (ctrKeyBytes s.build.ctr)) = some cipherKey ∧
        x 0 = (temp.drop (ctrKeyBytes s.build.ctr)).take (ctrBlockBytes s.build.ctr) ∧
        (∀ j, x (j + 1) = portEncrypt Config.prims s.build.ctr cipherKey (x j)) ∧
        exec .blockCipherDf s = .next { s with dp := { s.dp with
          res := (((List.range (ceilDiv (s.dp.bits.toNat / 8) (ctrBlockBytes s.build.ctr))).map fun j =>
            x (j + 1)).flatten).take (s.dp.bits.toNat / 8) } }) ∧
    (s.dp.bits.toNat % 8 ≠ 0 →
      ∃ t, exec .blockCipherDf s = .next t ∧ HaltedFrom ((s.target.map (·.1)).or (some .ctr)) s t)

/-! ## The Hash engine -/

/-- `HASH.INSTANTIATE` runs to its end (R173): `v` from the seed material, `c` from `00 || v`, the counter 1. The
temporaries stay by log entry 16. -/
def Obligations.HashInstantiateCompletes : Prop :=
  ∀ (s : State) (entropy : Bytes) (rest : List EntropyAnswer),
    buildLegal s.build = true → InstantiateReady .hash s → s.entropy = .ok entropy :: rest →
    ∃ v c,
      hashDf (portHash Config.prims s.build.hash) s.build.hash.digestSize (entropy ++ s.nonceIn ++ s.persIn)
        s.build.hash.seedlen = some v ∧
      hashDf (portHash Config.prims s.build.hash) s.build.hash.digestSize (0x00 :: v) s.build.hash.seedlen = some c ∧
      exec .hashInstantiate s = .next { s with
        hash := ⟨v, c, 1⟩, entropy := rest, err := .ok, result := 0
        phases := s.phases.set .hash .seeded, inflight := none, uop := none }

/-- `HASH.GENERATE` runs to its end in every form (R175): `v1` is `v`, plus the digest of `02 || v || input` where
there is an input; the output is `HASHGEN` of `v1`; the new `v` is `v1 + Hash(03 || v1) + c + counter` modulo
`2^seedlen`, with the low 32 bits of the counter before its increment; `c` stays. The temporaries stay by log entry
16. -/
def Obligations.HashGenerateCompletes : Prop :=
  ∀ (s : State) (ai pr : Bool) (entropy : Bytes) (rest : List EntropyAnswer),
    buildLegal s.build = true → WidthsOk s → GenerateReady .hash ai s → (pr = true → s.entropy = .ok entropy :: rest) →
    ∃ (r0 : HashRegs) (v1 v2 : Bytes),
      (pr = false → r0 = s.hash) ∧
      (pr = true → hashReseedOf Config.prims s.build.hash s.hash entropy (orEmpty (s.aiIn ai)) = some r0) ∧
      (pr = true ∨ ai = false → v1 = r0.v) ∧
      (pr = false → ai = true → v1.length = r0.v.length ∧
        be v1 = (be r0.v + be (portHash Config.prims s.build.hash ([0x02] ++ r0.v ++ orEmpty (s.aiIn ai)))) %
          2 ^ s.build.hash.seedlen) ∧
      v2.length = hashSeedBytes s.build.hash ∧
      be v2 = (be v1 + be (portHash Config.prims s.build.hash ([0x03] ++ v1)) + be r0.c +
        r0.reseedCounter.toNat % 2 ^ 32) % 2 ^ s.build.hash.seedlen ∧
      exec (.hashGenerate ai pr) s = .next { s with
        hash := ⟨v2, r0.c, r0.reseedCounter + 1⟩
        out := Memory.writeBytes s.out 0
          (hashgenOf (portHash Config.prims s.build.hash) s.build.hash.digestSize v1 s.outLenOp)
        entropy := if pr then rest else s.entropy
        err := .ok, result := BitVec.ofNat 64 (s.outLenOp * 8)
        phases := s.phases.set .hash .seeded, inflight := none, uop := none }

/-- `HASH.RESEED` runs to its end (R176): `v` from `01 || old v || entropy || input`, `c` from `00 || new v`, the
counter 1. The temporaries stay by log entry 16. -/
def Obligations.HashReseedCompletes : Prop :=
  ∀ (s : State) (ai : Bool) (entropy : Bytes) (rest : List EntropyAnswer),
    buildLegal s.build = true → ReseedReady .hash ai s → s.entropy = .ok entropy :: rest →
    ∃ v c,
      hashDf (portHash Config.prims s.build.hash) s.build.hash.digestSize
        ([0x01] ++ s.hash.v ++ entropy ++ orEmpty (s.aiIn ai)) s.build.hash.seedlen = some v ∧
      hashDf (portHash Config.prims s.build.hash) s.build.hash.digestSize (0x00 :: v) s.build.hash.seedlen = some c ∧
      exec (.hashReseed ai) s = .next { s with
        hash := ⟨v, c, 1⟩, entropy := rest, err := .ok, result := 0
        phases := s.phases.set .hash .seeded, inflight := none, uop := none }

/-- `HASH_DF` (R120, R121): the leftmost `out_bit_len` bits of the digest stream, right-aligned in `ceil(out_bit_len /
8)` bytes; a counter above 255 is a contract violation. The violation halts the block (R277, the spec's decision D13);
that with no command in flight its engine is that of the digest is the model's choice (log entry 13). -/
def Obligations.HashDfCompletes : Prop :=
  ∀ s : State, 0 < (digestOf Config.prims s.build s.dp.digest).2 →
    (ceilDiv s.dp.bits.toNat 8 / (digestOf Config.prims s.build s.dp.digest).2 + 1 ≤ 255 →
      ∃ r : Bytes, exec .hashDf s = .next { s with dp := { s.dp with res := r } } ∧
        r.length = ceilDiv s.dp.bits.toNat 8 ∧
        be r = be ((((List.range (ceilDiv s.dp.bits.toNat 8 / (digestOf Config.prims s.build s.dp.digest).2 + 1)).map
          fun j => (digestOf Config.prims s.build s.dp.digest).1
            (toBE 1 (j + 1) ++ toBE 4 s.dp.bits.toNat ++ s.dp.bufA)).flatten).take (ceilDiv s.dp.bits.toNat 8)) /
          2 ^ ((8 - s.dp.bits.toNat % 8) % 8)) ∧
    (255 < ceilDiv s.dp.bits.toNat 8 / (digestOf Config.prims s.build s.dp.digest).2 + 1 →
      ∃ t, exec .hashDf s = .next t ∧ HaltedFrom ((s.target.map (·.1)).or (some s.dp.digest.engine)) s t)

/-- `HASHGEN` (R170): the digests of `v`, `v + 1`, `v + 2` and so on modulo its width, cut to the bytes asked for; the
register `HASH.v` and the operand keep their values. -/
def Obligations.HashgenCompletes : Prop :=
  decode 0x38000000 = .ok .hashgen ∧
  ∀ s : State, ∃ r : Bytes,
    r = (((List.range (ceilDiv s.dp.len s.build.hash.digestSize)).map fun j =>
      portHash Config.prims s.build.hash (toBE s.dp.bufA.length (be s.dp.bufA + j))).flatten).take s.dp.len ∧
    (hashLegal s.build.hash = true → r.length = s.dp.len) ∧
    exec .hashgen s = .next { s with dp := { s.dp with res := r } }

/-! ## The HMAC engine -/

/-- `HMAC.INSTANTIATE` runs to its end (R192): both passes of the update over the seed material, from an all-zero `k`
and a `v` of `01` bytes; the counter is 1. The temporaries stay by log entry 16. The all-zero start of `k` is the
spec's general knowledge (G2, log entry 15). -/
def Obligations.HmacInstantiateCompletes : Prop :=
  ∀ (s : State) (entropy : Bytes) (rest : List EntropyAnswer),
    InstantiateReady .hmac s → s.entropy = .ok entropy :: rest →
    ∃ k1 v1 k2 v2,
      k1 = portMac Config.prims s.build.hmac (zeros s.build.hmac.macSize)
        (fill s.build.hmac.macSize 0x01 ++ [0x00] ++ (entropy ++ s.nonceIn ++ s.persIn)) ∧
      v1 = portMac Config.prims s.build.hmac k1 (fill s.build.hmac.macSize 0x01) ∧
      k2 = portMac Config.prims s.build.hmac k1 (v1 ++ [0x01] ++ (entropy ++ s.nonceIn ++ s.persIn)) ∧
      v2 = portMac Config.prims s.build.hmac k2 v1 ∧
      exec .hmacInstantiate s = .next { s with
        hmac := ⟨k2, v2, 1⟩, entropy := rest, err := .ok, result := 0
        phases := s.phases.set .hmac .seeded, inflight := none, uop := none }

/-- `HMAC.GENERATE` runs to its end in every form (R193): the update with the additional input where there is one, the
iterated MAC of `v` as output, and then the update that always runs; the counter is one higher. The temporaries stay
by log entry 16. -/
def Obligations.HmacGenerateCompletes : Prop :=
  ∀ (s : State) (ai pr : Bool) (entropy : Bytes) (rest : List EntropyAnswer),
    GenerateReady .hmac ai s → (pr = true → s.entropy = .ok entropy :: rest) →
    ∃ (r0 r1 r2 : HmacRegs) (blocks : Nat) (a : Option Bytes),
      (pr = false → r0 = s.hmac ∧ a = s.aiIn ai) ∧
      (pr = true → r0 = hmacReseedOf Config.prims s.build.hmac s.hmac entropy (orEmpty (s.aiIn ai)) ∧ a = none) ∧
      (a = none → r1 = r0) ∧ (a ≠ none → r1 = hmacUpdateOf Config.prims s.build.hmac r0 a) ∧
      blocks = ceilDiv s.outLenOp s.build.hmac.macSize ∧
      r2 = hmacUpdateOf Config.prims s.build.hmac
        { r1 with v := (portMac Config.prims s.build.hmac r1.k)^[blocks] r1.v } a ∧
      exec (.hmacGenerate ai pr) s = .next { s with
        hmac := { r2 with reseedCounter := r0.reseedCounter + 1 }
        out := Memory.writeBytes s.out 0 ((((List.range blocks).map fun j =>
          (portMac Config.prims s.build.hmac r1.k)^[j + 1] r1.v).flatten).take s.outLenOp)
        entropy := if pr then rest else s.entropy
        err := .ok, result := BitVec.ofNat 64 (s.outLenOp * 8)
        phases := s.phases.set .hmac .seeded, inflight := none, uop := none }

/-- `HMAC.RESEED` runs to its end (R194): both passes of the update over entropy and additional input, from the old
`k` and `v`; the counter is 1. The temporaries stay by log entry 16. -/
def Obligations.HmacReseedCompletes : Prop :=
  ∀ (s : State) (ai : Bool) (entropy : Bytes) (rest : List EntropyAnswer),
    ReseedReady .hmac ai s → s.entropy = .ok entropy :: rest →
    ∃ k1 v1 k2 v2,
      k1 = portMac Config.prims s.build.hmac s.hmac.k (s.hmac.v ++ [0x00] ++ (entropy ++ orEmpty (s.aiIn ai))) ∧
      v1 = portMac Config.prims s.build.hmac k1 s.hmac.v ∧
      k2 = portMac Config.prims s.build.hmac k1 (v1 ++ [0x01] ++ (entropy ++ orEmpty (s.aiIn ai))) ∧
      v2 = portMac Config.prims s.build.hmac k2 v1 ∧
      exec (.hmacReseed ai) s = .next { s with
        hmac := ⟨k2, v2, 1⟩, entropy := rest, err := .ok, result := 0
        phases := s.phases.set .hmac .seeded, inflight := none, uop := none }

/-- `HMAC_UPDATE_PASS` (R190): the new `k`, then `v` under the new `k`; absent and empty material are the same. -/
def Obligations.HmacUpdatePassCompletes : Prop :=
  ∀ (s : State) (marker : Bool),
    decode (0x49000000 ||| (BitVec.ofBool marker).setWidth 32) = .ok (.hmacUpdatePass marker) ∧
    ∃ k v : Bytes,
      k = portMac Config.prims s.build.hmac s.hmac.k
        (s.hmac.v ++ [if marker then 0x01 else 0x00] ++ orEmpty s.dp.material) ∧
      v = portMac Config.prims s.build.hmac k s.hmac.v ∧
      k.length = s.build.hmac.macSize ∧ v.length = s.build.hmac.macSize ∧
      exec (.hmacUpdatePass marker) s = .next { s with hmac := { s.hmac with k := k, v := v } } ∧
      (s.dp.material = none →
        exec (.hmacUpdatePass marker) { s with dp := { s.dp with material := some [] } } =
          .next { s with hmac := { s.hmac with k := k, v := v }, dp := { s.dp with material := some [] } })

/-- `HMAC_UPDATE` (R191): the `00` pass, and after it the `01` pass exactly where material is present, empty or not. -/
def Obligations.HmacUpdateCompletes : Prop :=
  decode 0x48000000 = .ok .hmacUpdate ∧
  ∀ s : State, ∃ t1 t2 : State,
    exec (.hmacUpdatePass false) s = .next t1 ∧ exec (.hmacUpdatePass true) t1 = .next t2 ∧
    (s.dp.material = none → exec .hmacUpdate s = .next t1) ∧
    (s.dp.material ≠ none → exec .hmacUpdate s = .next t2)

/-! ## The Dual-EC engine -/

/-- `DUALEC.INSTANTIATE` runs to its end (R215): the row of the strength, `s` from the seed material, the counter 0.
The temporaries stay by log entry 16. -/
def Obligations.DualecInstantiateCompletes : Prop :=
  ∀ (s : State) (entropy : Bytes) (rest : List EntropyAnswer) (row : Row),
    buildLegal s.build = true → InstantiateReady .dualec s → s.entropy = .ok entropy :: rest →
    row = (if s.strengthOp ≤ 128 then .p256 else if s.strengthOp ≤ 192 then .p384 else .p521) →
    ∃ x,
      hashDf (portDualecHash Config.prims s.build.dualec) s.build.dualec.digestSize (entropy ++ s.nonceIn ++ s.persIn)
        (curveOf s.build row).seedlen = some x ∧
      exec .dualecInstantiate s = .next { s with
        dualec := ⟨x, row, 0⟩, entropy := rest, err := .ok, result := 0
        phases := s.phases.set .dualec .seeded, inflight := none, uop := none }

/-- `DUALEC.GENERATE` in every form (R219): the running values `sv`, the values `r` of the output points, the
low-order `outlen` bytes of each `r` as a block, one more advance of `s`, and one count per block. Where one of the
multiples is the point at infinity the command ends with a contract violation instead; that infinity is told by the
order of the point, and that the port's answer is reduced by the field prime (R66), is the model's (log entry 5). The
temporaries stay by log entry 16. -/
def Obligations.DualecGenerateResult : Prop :=
  ∀ (s : State) (ai pr : Bool) (entropy : Bytes) (rest : List EntropyAnswer) (r0 : DualecRegs) (t : Nat)
    (sv r : Nat → Option Nat) (blocks : Nat) (c : Curve),
    GenerateReady .dualec ai s → (pr = true → s.entropy = .ok entropy :: rest) →
    (pr = false → r0 = s.dualec) →
    (pr = true → dualecReseedOf Config.prims s.build s.dualec entropy (orEmpty (s.aiIn ai)) = some r0) →
    c = s.curve → blocks = ceilDiv s.outLenOp c.outlen →
    (pr = true ∨ ai = false → t = be r0.s) →
    (pr = false → ai = true → ∃ d x,
      hashDf (portDualecHash Config.prims s.build.dualec) s.build.dualec.digestSize (orEmpty (s.aiIn ai)) c.seedlen =
        some d ∧ xorBytes (curveSeedBytes c) r0.s d 0 = some x ∧ t = be x) →
    sv 0 = some t →
    (∀ j, sv (j + 1) = (sv j).bind fun k => portEcMulX Config.prims s.dualec.row c c.p c.pOrder k) →
    (∀ j, r j = (sv (j + 1)).bind fun k => portEcMulX Config.prims s.dualec.row c c.q c.qOrder k) →
    ((∀ j, j < blocks → r j ≠ none) → sv (blocks + 1) ≠ none →
      exec (.dualecGenerate ai pr) s = .next { s with
        dualec := ⟨toBE (curveSeedBytes c) ((sv (blocks + 1)).getD 0), s.dualec.row,
          r0.reseedCounter + BitVec.ofNat 64 blocks⟩
        out := Memory.writeBytes s.out 0
          ((((List.range blocks).map fun j => toBE c.outlen ((r j).getD 0)).flatten).take s.outLenOp)
        entropy := if pr then rest else s.entropy
        err := .ok, result := BitVec.ofNat 64 (s.outLenOp * 8)
        phases := s.phases.set .dualec .seeded, inflight := none, uop := none }) ∧
    ((∃ j, j < blocks ∧ r j = none) ∨ sv (blocks + 1) = none →
      ∃ u, exec (.dualecGenerate ai pr) s = .next u ∧ HaltedFrom (some .dualec) s u)

/-- `DUALEC.GENERATE` of no bytes, without inputs, completes where `s * P` is not the point at infinity: `s` still
advances and the counter stays (R219 (d)). That infinity is told by the order of the point is the model's (log entry
5). The temporaries stay by log entry 16. -/
def Obligations.DualecGenerateOfNoBytesCompletes : Prop :=
  ∀ s : State, GenerateReady .dualec false s → s.outLenOp = 0 → be s.dualec.s % s.curve.pOrder ≠ 0 →
    ∃ x, portEcMulX Config.prims s.dualec.row s.curve s.curve.p s.curve.pOrder (be s.dualec.s) = some x ∧
      exec (.dualecGenerate false false) s = .next { s with
        dualec := { s.dualec with s := toBE (curveSeedBytes s.curve) x }
        err := .ok, result := 0, phases := s.phases.set .dualec .seeded, inflight := none, uop := none }

/-- `DUALEC.GENERATE` that is asked for the point at infinity at once is a contract violation (R66, R219 (g), R277).
That infinity is told by the order of the point is the model's (log entry 5). -/
def Obligations.DualecInfinityHalts : Prop :=
  ∀ s : State, GenerateReady .dualec false s → be s.dualec.s % s.curve.pOrder = 0 →
    ∃ t, exec (.dualecGenerate false false) s = .next t ∧ HaltedFrom (some .dualec) s t

/-- `DUALEC.RESEED` runs to its end (R220): `s` from `PAD8(old s) || entropy || input`, the counter 0, the row as it
was. The temporaries stay by log entry 16. -/
def Obligations.DualecReseedCompletes : Prop :=
  ∀ (s : State) (ai : Bool) (entropy : Bytes) (rest : List EntropyAnswer),
    buildLegal s.build = true → ReseedReady .dualec ai s → s.entropy = .ok entropy :: rest →
    ∃ padded x,
      padded = toBE s.dualec.s.length (be s.dualec.s * 2 ^ ((8 - s.curve.seedlen % 8) % 8)) ∧
      hashDf (portDualecHash Config.prims s.build.dualec) s.build.dualec.digestSize
        (padded ++ entropy ++ orEmpty (s.aiIn ai)) s.curve.seedlen = some x ∧
      exec (.dualecReseed ai) s = .next { s with
        dualec := ⟨x, s.dualec.row, 0⟩, entropy := rest, err := .ok, result := 0
        phases := s.phases.set .dualec .seeded, inflight := none, uop := none }

/-- `PAD8` (R210): the significant bits moved to the left end; nothing is lost where `s` has at most `seedlen` bits, and
`DUALEC.s` itself is not changed. -/
def Obligations.Pad8Completes : Prop :=
  ∀ s : State,
    exec .pad8 s = .next { s with dp := { s.dp with
      res := toBE s.dp.bufA.length (be s.dp.bufA * 2 ^ ((8 - s.curve.seedlen % 8) % 8)) } } ∧
    (s.dp.bufA.length = curveSeedBytes s.curve → be s.dp.bufA < 2 ^ s.curve.seedlen →
      be (toBE s.dp.bufA.length (be s.dp.bufA * 2 ^ ((8 - s.curve.seedlen % 8) % 8))) =
        be s.dp.bufA * 2 ^ ((8 - s.curve.seedlen % 8) % 8))

/-! ## The utility unit -/

/-- `INC_BE` (R100): one added modulo the width, which the byte form with its carry computes too; a buffer of `FF` bytes
wraps, and as many increments as the buffer has values return it to zero. -/
def Obligations.IncBeCompletes : Prop :=
  decode 0x00000000 = .ok .incBe ∧
  (∀ s : State, exec .incBe s = .next { s with dp := { s.dp with
    bufA := toBE s.dp.bufA.length (be s.dp.bufA + 1) } }) ∧
  (∀ buf : Bytes, toBE buf.length (be buf + 1) = (incBytes 1 buf.reverse).reverse) ∧
  (∀ n : Nat, incBE (fill n 0xFF) = zeros n) ∧
  (∀ n : Nat, incBE^[256 ^ n] (zeros n) = zeros n)

/-- `XOR_INTO` (R101): byte `i` of the result is `a[i] XOR b[i + b_offset]`; an operand too short is a contract
violation. The violation halts the block (R277, the spec's decision D13) and ends the command in flight; that with no
command in flight no engine is addressed is the model's choice (log entry 13). -/
def Obligations.XorIntoCompletes : Prop :=
  decode 0x01000000 = .ok .xorInto ∧
  ∀ s : State,
    (s.dp.len ≤ s.dp.bufA.length → s.dp.len + s.dp.offset ≤ s.dp.bufB.length →
      ∃ r : Bytes, exec .xorInto s = .next { s with dp := { s.dp with res := r } } ∧ r.length = s.dp.len ∧
        ∀ i, i < s.dp.len → r.getD i 0 = s.dp.bufA.getD i 0 ^^^ s.dp.bufB.getD (i + s.dp.offset) 0) ∧
    (s.dp.bufA.length < s.dp.len ∨ s.dp.bufB.length < s.dp.len + s.dp.offset →
      ∃ t, exec .xorInto s = .next t ∧ HaltedFrom (s.target.map (·.1)) s t)

/-- `ADD_BE` (R102): the sum modulo the width of the longer operand, which the byte form with its carry computes too;
a shorter operand that is longer is a contract violation. The violation halts the block (R277, the spec's decision
D13) and ends the command in flight; that with no command in flight no engine is addressed is the model's choice (log
entry 13). -/
def Obligations.AddBeCompletes : Prop :=
  decode 0x02000000 = .ok .addBe ∧
  (∀ s : State,
    (s.dp.bufB.length ≤ s.dp.bufA.length →
      exec .addBe s = .next { s with dp := { s.dp with
        bufA := toBE s.dp.bufA.length (be s.dp.bufA + be s.dp.bufB) } }) ∧
    (s.dp.bufA.length < s.dp.bufB.length →
      ∃ t, exec .addBe s = .next t ∧ HaltedFrom (s.target.map (·.1)) s t)) ∧
  (∀ longer shorter : Bytes, shorter.length ≤ longer.length →
    toBE longer.length (be longer + be shorter) = (addBytes 0 longer.reverse shorter.reverse).reverse)

/-- `SHR_BITS` and `SHL_BITS` (R103, R104): the quotient and the product by `2^k`, which the byte forms compute too; a
count of 0 is a contract violation; the right shift undoes the left one exactly where no set bit is lost. The
violation halts the block (R277, the spec's decision D13) and ends the command in flight; that with no command in
flight no engine is addressed is the model's choice (log entry 13). -/
def Obligations.ShiftBitsComplete : Prop :=
  (∀ (s : State) (k : BitVec 3), k ≠ 0 →
    exec (.shrBits k) s = .next { s with dp := { s.dp with
      bufA := toBE s.dp.bufA.length (be s.dp.bufA / 2 ^ k.toNat) } } ∧
    exec (.shlBits k) s = .next { s with dp := { s.dp with
      bufA := toBE s.dp.bufA.length (be s.dp.bufA * 2 ^ k.toNat) } }) ∧
  (∀ s : State,
    (∃ t, exec (.shrBits 0) s = .next t ∧ HaltedFrom (s.target.map (·.1)) s t) ∧
    ∃ t, exec (.shlBits 0) s = .next t ∧ HaltedFrom (s.target.map (·.1)) s t) ∧
  (∀ (buf : Bytes) (k : Nat), 1 ≤ k → k ≤ 7 →
    toBE buf.length (be buf / 2 ^ k) = shrLoop k 0 buf ∧
    toBE buf.length (be buf * 2 ^ k) = (shlLoop k 0 buf.reverse).reverse ∧
    (((shlBytes buf k).bind fun x => shrBytes x k) = some buf ↔ be buf * 2 ^ k < 256 ^ buf.length))

/-- `STRENGTH_CHK` (R248): it writes nothing where the strength is supported and the entropy source provides for it;
else the first failing test's code is recorded as R271 says, the engine of the command in flight is left in the phase
it had at acceptance (R241: INSTANTIATE with any error leaves `UNINIT`), and no working register and no buffer is
written. Equality passes. That a micro-operation that raises ends the command in flight, and that with none in flight
the code is recorded and every phase stays, is the model's choice (log entry 13). -/
def Obligations.StrengthChkCompletes : Prop :=
  ∀ s : State,
    (StrengthSupported s.dp.engine s → s.strengthOp ≤ s.build.entropyBits → exec .strengthChk s = .next s) ∧
    (¬StrengthSupported s.dp.engine s →
      ∃ t, exec .strengthChk s = .next t ∧ t.err = .strengthNotSupported ∧ t.result = BitVec.ofInt 64 (-2) ∧
        t.phases = (match s.target with
          | some (e, p0) => s.phases.set e p0
          | none => s.phases) ∧
        t.busy = false ∧ t.halt = s.halt ∧ t.out = s.out ∧ t.entropy = s.entropy ∧ SameInputs s t ∧
        ∀ f, SameRegs f s t) ∧
    (StrengthSupported s.dp.engine s → s.build.entropyBits < s.strengthOp →
      ∃ t, exec .strengthChk s = .next t ∧ t.err = .entropyUnderProvisioned ∧ t.result = BitVec.ofInt 64 (-3) ∧
        t.phases = (match s.target with
          | some (e, p0) => s.phases.set e p0
          | none => s.phases) ∧
        t.busy = false ∧ t.halt = s.halt ∧ t.out = s.out ∧ t.entropy = s.entropy ∧ SameInputs s t ∧
        ∀ f, SameRegs f s t)
end

