-- ==== Sys2Proof/Laws/Bytes.lean ====
section
/-! SUPPORT. The big-endian view of byte strings (R14) and what each byte-math unit can do (R100 to R104). -/

namespace Sys2Proof.Machine

@[simp] theorem toBE_length (n x : Nat) : (toBE n x).length = n := by
  induction n with
  | zero => rfl
  | succ n ih => simp [toBE, ih]

theorem be_lt (b : Bytes) : be b < 256 ^ b.length := by
  induction b with
  | nil => simp [be]
  | cons x xs ih =>
    have hx : x.toNat < 256 := x.isLt
    simp only [be, List.length_cons, pow_succ]
    nlinarith

/-- `be(to_be(n, x)) = x mod 256^n` (R14). -/
@[simp] theorem be_toBE (n x : Nat) : be (toBE n x) = x % 256 ^ n := by
  induction n with
  | zero => simp [toBE, be, Nat.mod_one]
  | succ n ih =>
    simp only [toBE, be, toBE_length, ih, BitVec.toNat_ofNat]
    have : (2 : Nat) ^ 8 = 256 := by norm_num
    rw [this, pow_succ, Nat.mod_mul]
    ring

/-- A byte string is determined by its length and its value. -/
theorem be_inj {a b : Bytes} (hl : a.length = b.length) (h : be a = be b) : a = b := by
  induction a generalizing b with
  | nil => cases b with
    | nil => rfl
    | cons y ys => simp at hl
  | cons x xs ih =>
    cases b with
    | nil => simp at hl
    | cons y ys =>
      have hl' : xs.length = ys.length := by simpa using hl
      have h1 := be_lt xs
      have h2 := be_lt ys
      simp only [be, hl'] at h
      rw [hl'] at h1
      have hd : x.toNat = y.toNat := by
        have e1 : (x.toNat * 256 ^ ys.length + be xs) / 256 ^ ys.length = x.toNat := by
          rw [Nat.add_comm, Nat.add_mul_div_right _ _ (by positivity), Nat.div_eq_of_lt h1, Nat.zero_add]
        have e2 : (y.toNat * 256 ^ ys.length + be ys) / 256 ^ ys.length = y.toNat := by
          rw [Nat.add_comm, Nat.add_mul_div_right _ _ (by positivity), Nat.div_eq_of_lt h2, Nat.zero_add]
        rw [← e1, ← e2, h]
      have ht : be xs = be ys := by
        rw [hd] at h
        exact Nat.add_left_cancel h
      rw [BitVec.eq_of_toNat_eq hd, ih hl' ht]

/-- `to_be(len(B), be(B)) = B`. -/
@[simp] theorem toBE_be (b : Bytes) : toBE b.length (be b) = b :=
  be_inj (toBE_length _ _) (by rw [be_toBE]; exact Nat.mod_eq_of_lt (be_lt b))

theorem be_append (a b : Bytes) : be (a ++ b) = be a * 256 ^ b.length + be b := by
  induction a with
  | nil => simp [be]
  | cons x xs ih =>
    simp only [List.cons_append, be, List.length_append, ih, pow_add]
    ring

@[simp] theorem fill_length (n : Nat) (c : Byte) : (fill n c).length = n := by simp [fill]

@[simp] theorem zeros_length (n : Nat) : (zeros n).length = n := by simp [zeros]

@[simp] theorem be_zeros (n : Nat) : be (zeros n) = 0 := by
  induction n with
  | zero => rfl
  | succ n ih => simpa [zeros, fill, List.replicate_succ, be] using ih

@[simp] theorem fit_length (n : Nat) (b : Bytes) : (fit n b).length = n := by
  simp [fit]; omega

/-- The port leaves a result of the stated length unchanged (R66). -/
theorem fit_of_length (b : Bytes) : fit b.length b = b := by simp [fit, zeros, fill]

theorem ceilDiv_mul_ge (a b : Nat) (hb : 0 < b) : a ≤ ceilDiv a b * b := by
  unfold ceilDiv
  have := Nat.lt_div_mul_add (a := a + b - 1) hb
  omega

/-! ## The units -/

@[simp] theorem incBE_length (b : Bytes) : (incBE b).length = b.length := by simp [incBE]

/-- `INC_BE` adds one and wraps (R100). -/
theorem be_incBE (b : Bytes) : be (incBE b) = (be b + 1) % 256 ^ b.length := by simp [incBE]

/-- What `XOR_INTO` can do (R101): it fails exactly where an operand is too short. -/
theorem xorBytes_eq_none_iff (n : Nat) (a b : Bytes) (off : Nat) :
    xorBytes n a b off = none ↔ ¬(n ≤ a.length ∧ n + off ≤ b.length) := by
  unfold xorBytes; split <;> simp_all

theorem xorBytes_length {n : Nat} {a b r : Bytes} {off : Nat} (h : xorBytes n a b off = some r) : r.length = n := by
  unfold xorBytes at h
  split at h
  · obtain rfl := Option.some.inj h
    simp; omega
  · cases h

/-- What `ADD_BE` can do (R102). -/
theorem addBE_cases (l s : Bytes) :
    (s.length ≤ l.length ∧ ∃ r, addBE l s = some r ∧ r.length = l.length ∧ be r = (be l + be s) % 256 ^ l.length) ∨
      (l.length < s.length ∧ addBE l s = none) := by
  unfold addBE
  split
  · exact .inl ⟨‹_›, _, rfl, by simp, by simp⟩
  · exact .inr ⟨by omega, rfl⟩

theorem addBE_length {l s r : Bytes} (h : addBE l s = some r) : r.length = l.length := by
  unfold addBE at h
  split at h
  · obtain rfl := Option.some.inj h; simp
  · cases h

theorem addBE_some {l s : Bytes} (h : s.length ≤ l.length) : ∃ r, addBE l s = some r ∧ r.length = l.length := by
  unfold addBE; rw [if_pos h]; exact ⟨_, rfl, by simp⟩

/-- What `SHR_BITS` can do (R103). -/
theorem shrBytes_cases (b : Bytes) (k : Nat) :
    (1 ≤ k ∧ k ≤ 7 ∧ ∃ r, shrBytes b k = some r ∧ r.length = b.length ∧ be r = be b / 2 ^ k) ∨
      (¬(1 ≤ k ∧ k ≤ 7) ∧ shrBytes b k = none) := by
  unfold shrBytes
  split
  · rename_i h
    refine .inl ⟨h.1, h.2, _, rfl, by simp, ?_⟩
    rw [be_toBE]
    exact Nat.mod_eq_of_lt (lt_of_le_of_lt (Nat.div_le_self _ _) (be_lt b))
  · exact .inr ⟨‹_›, rfl⟩

/-- What `SHL_BITS` can do (R104). -/
theorem shlBytes_cases (b : Bytes) (k : Nat) :
    (1 ≤ k ∧ k ≤ 7 ∧ ∃ r, shlBytes b k = some r ∧ r.length = b.length ∧ be r = be b * 2 ^ k % 256 ^ b.length) ∨
      (¬(1 ≤ k ∧ k ≤ 7) ∧ shlBytes b k = none) := by
  unfold shlBytes
  split
  · rename_i h
    exact .inl ⟨h.1, h.2, _, rfl, by simp, by simp⟩
  · exact .inr ⟨‹_›, rfl⟩

theorem shrBytes_length {b r : Bytes} {k : Nat} (h : shrBytes b k = some r) : r.length = b.length := by
  rcases shrBytes_cases b k with ⟨-, -, r', h', hl, -⟩ | ⟨-, h'⟩ <;> rw [h'] at h
  · obtain rfl := Option.some.inj h; exact hl
  · cases h

theorem shlBytes_length {b r : Bytes} {k : Nat} (h : shlBytes b k = some r) : r.length = b.length := by
  rcases shlBytes_cases b k with ⟨-, -, r', h', hl, -⟩ | ⟨-, h'⟩ <;> rw [h'] at h
  · obtain rfl := Option.some.inj h; exact hl
  · cases h

/-! ## Parity (R140) -/

theorem oddParity_upper (b : Byte) : oddParity b &&& 0xFE = b &&& 0xFE := by
  revert b; decide +kernel

/-- A byte of odd parity is unchanged, so the port leaves a conforming `expand_key` alone. -/
theorem oddParity_idem (b : Byte) : oddParity (oddParity b) = oddParity b := by
  revert b; decide +kernel

end Sys2Proof.Machine
end

