-- ==== Sys2Proof/Laws/Memory.lean ====
section
/-! SUPPORT. Reads after writes, and that every buffer operation keeps the canonical form (R60, R69). -/

namespace Sys2Proof.Machine

theorem Memory.wf_iff (m : Memory) :
    Memory.wf m = true ↔ m.Pairwise (fun x y => x.1 < y.1) ∧ ∀ c ∈ m, c.2 ≠ unlisted := by
  simp [Memory.wf]

theorem Memory.wf_nil : Memory.wf [] = true := by decide

theorem Memory.wf_tail {c : Host.Cell} {m : Memory} (h : Memory.wf (c :: m) = true) : Memory.wf m = true := by
  rw [Memory.wf_iff] at *
  exact ⟨(List.pairwise_cons.1 h.1).2, fun x hx => h.2 x (List.mem_cons_of_mem _ hx)⟩

/-- A write adds no offset but its own. -/
theorem Memory.mem_write {m : Memory} {a : Nat} {b : Byte} {c : Host.Cell} (h : c ∈ Memory.write m a b) :
    c ∈ m ∨ (c = (a, b) ∧ b ≠ unlisted) := by
  induction m with
  | nil =>
    unfold Memory.write at h
    split at h
    · simp at h
    · exact .inr ⟨by simpa using h, ‹_›⟩
  | cons x xs ih =>
    obtain ⟨k, y⟩ := x
    unfold Memory.write at h
    split at h
    · split at h
      · exact .inl h
      · rcases List.mem_cons.1 h with rfl | h
        · exact .inr ⟨rfl, ‹_›⟩
        · exact .inl h
    · split at h
      · split at h
        · exact .inl (List.mem_cons_of_mem _ h)
        · rcases List.mem_cons.1 h with rfl | h
          · exact .inr ⟨rfl, ‹_›⟩
          · exact .inl (List.mem_cons_of_mem _ h)
      · rcases List.mem_cons.1 h with rfl | h
        · exact .inl (List.mem_cons_self ..)
        · rcases ih h with h | h
          · exact .inl (List.mem_cons_of_mem _ h)
          · exact .inr h

/-- A write keeps the canonical form. -/
theorem Memory.write_wf {m : Memory} (a : Nat) (b : Byte) (h : Memory.wf m = true) :
    Memory.wf (Memory.write m a b) = true := by
  induction m with
  | nil =>
    unfold Memory.write
    split
    · exact h
    · rw [Memory.wf_iff]; simp [*]
  | cons x xs ih =>
    obtain ⟨k, y⟩ := x
    have ht := Memory.wf_tail h
    rw [Memory.wf_iff] at h
    have hp := List.pairwise_cons.1 h.1
    unfold Memory.write
    split
    · split
      · rw [Memory.wf_iff]; exact h
      · rw [Memory.wf_iff]
        refine ⟨List.pairwise_cons.2 ⟨fun c hc => ?_, h.1⟩, fun c hc => ?_⟩
        · rcases List.mem_cons.1 hc with rfl | hc
          · assumption
          · exact lt_trans ‹a < k› (hp.1 c hc)
        · rcases List.mem_cons.1 hc with rfl | hc
          · assumption
          · exact h.2 c hc
    · split
      · rename_i hak
        split
        · exact ht
        · rw [Memory.wf_iff]
          refine ⟨List.pairwise_cons.2 ⟨fun c hc => ?_, hp.2⟩, fun c hc => ?_⟩
          · rw [hak]; exact hp.1 c hc
          · rcases List.mem_cons.1 hc with rfl | hc
            · assumption
            · exact h.2 c (List.mem_cons_of_mem _ hc)
      · have ih' := ih ht
        rw [Memory.wf_iff] at ih' ⊢
        refine ⟨List.pairwise_cons.2 ⟨fun c hc => ?_, ih'.1⟩, fun c hc => ?_⟩
        · rcases Memory.mem_write hc with hc | ⟨rfl, -⟩
          · exact hp.1 c hc
          · show k < a; omega
        · rcases List.mem_cons.1 hc with rfl | hc
          · exact h.2 _ (List.mem_cons_self ..)
          · exact ih'.2 c hc

theorem Memory.writeBytes_wf {m : Memory} (a : Nat) (bs : Bytes) (h : Memory.wf m = true) :
    Memory.wf (Memory.writeBytes m a bs) = true := by
  induction bs generalizing m a with
  | nil => exact h
  | cons b bs ih => exact ih (a + 1) (Memory.write_wf a b h)

theorem Memory.within_iff (cap : Nat) (m : Memory) : Memory.within cap m = true ↔ ∀ c ∈ m, c.1 < cap := by
  simp [Memory.within]

theorem Memory.writeBytes_within {m : Memory} {cap a : Nat} {bs : Bytes} (h : Memory.within cap m = true)
    (hb : a + bs.length ≤ cap) : Memory.within cap (Memory.writeBytes m a bs) = true := by
  induction bs generalizing m a with
  | nil => exact h
  | cons b bs ih =>
    simp only [List.length_cons] at hb
    refine ih ?_ (by omega)
    rw [Memory.within_iff] at *
    intro c hc
    rcases Memory.mem_write hc with hc | ⟨rfl, -⟩
    · exact h c hc
    · show a < cap; omega

/-- An offset below every listed one is not listed. -/
theorem Memory.read_of_lt {m : Memory} {a : Nat} (h : ∀ c ∈ m, a < c.1) : Memory.read m a = unlisted := by
  induction m with
  | nil => rfl
  | cons x xs ih =>
    have hx := h x (List.mem_cons_self ..)
    unfold Memory.read
    rw [if_neg (by omega)]
    exact ih fun c hc => h c (List.mem_cons_of_mem _ hc)

/-- A read after a write: the written offset gives the value, every other reads as before. -/
theorem Memory.read_write {m : Memory} (a : Nat) (b : Byte) (x : Nat) (h : Memory.wf m = true) :
    Memory.read (Memory.write m a b) x = if x = a then b else Memory.read m x := by
  induction m with
  | nil =>
    unfold Memory.write
    split
    · split <;> simp_all [Memory.read]
    · simp only [Memory.read]
      split
      · rw [if_pos (by omega)]
      · rw [if_neg (by omega)]
  | cons c cs ih =>
    obtain ⟨k, y⟩ := c
    have ht := Memory.wf_tail h
    rw [Memory.wf_iff] at h
    have hp := List.pairwise_cons.1 h.1
    have hlow : Memory.read cs k = unlisted := Memory.read_of_lt hp.1
    unfold Memory.write
    split
    · rename_i hak
      have hk : Memory.read ((k, y) :: cs) a = unlisted := Memory.read_of_lt fun c hc => by
        rcases List.mem_cons.1 hc with rfl | hc
        · exact hak
        · exact lt_trans hak (hp.1 c hc)
      split
      · split
        · rename_i hb hx; rw [hx, hb, hk]
        · rfl
      · by_cases hx : x = a
        · simp [Memory.read, hx]
        · rw [if_neg hx]
          conv_lhs => unfold Memory.read
          rw [if_neg (by omega)]
    · split
      · rename_i hak
        subst hak
        split
        · rename_i hb
          by_cases hx : x = a
          · rw [if_pos hx, hx, hlow, hb]
          · rw [if_neg hx]
            conv_rhs => unfold Memory.read
            rw [if_neg (by omega)]
        · by_cases hx : x = a
          · simp [Memory.read, hx]
          · simp only [Memory.read, if_neg hx, if_neg (show ¬a = x by omega)]
      · simp only [Memory.read]
        rw [ih ht]
        by_cases hkx : k = x
        · rw [if_pos hkx, if_neg (by omega), if_pos hkx]
        · rw [if_neg hkx, if_neg hkx]

/-- A read after a write of bytes from offset `a` (R69). -/
theorem Memory.read_writeBytes {m : Memory} (a : Nat) (bs : Bytes) (x : Nat) (h : Memory.wf m = true) :
    Memory.read (Memory.writeBytes m a bs) x =
      if a ≤ x then (bs[x - a]?).getD (Memory.read m x) else Memory.read m x := by
  induction bs generalizing m a with
  | nil => simp [Memory.writeBytes]
  | cons b bs ih =>
    simp only [Memory.writeBytes]
    rw [ih (a + 1) (Memory.write_wf a b h), Memory.read_write a b x h]
    by_cases h1 : a + 1 ≤ x
    · have hx : x - a = (x - (a + 1)) + 1 := by omega
      have hxa : x ≠ a := by omega
      rw [if_pos h1, if_neg hxa, if_pos (show a ≤ x by omega), hx, List.getElem?_cons_succ]
    · rw [if_neg h1]
      by_cases h2 : x = a
      · subst h2; simp
      · rw [if_neg h2, if_neg (by omega)]

@[simp] theorem Memory.readBytes_length (m : Memory) (a n : Nat) : (Memory.readBytes m a n).length = n := by
  induction n generalizing a with
  | zero => rfl
  | succ n ih => simp [Memory.readBytes, ih]

theorem Memory.readBytes_getElem? (m : Memory) (a n i : Nat) (h : i < n) :
    (Memory.readBytes m a n)[i]? = some (Memory.read m (a + i)) := by
  induction n generalizing a i with
  | zero => omega
  | succ n ih =>
    cases i with
    | zero => simp [Memory.readBytes]
    | succ i =>
      simp only [Memory.readBytes, List.getElem?_cons_succ]
      rw [ih (a + 1) i (by omega)]
      congr 2; omega

/-- What was written is read back (R15). -/
theorem Memory.readBytes_writeBytes {m : Memory} (bs : Bytes) (n : Nat) (hn : n ≤ bs.length)
    (h : Memory.wf m = true) : Memory.readBytes (Memory.writeBytes m 0 bs) 0 n = bs.take n := by
  apply List.ext_getElem?
  intro i
  by_cases hi : i < n
  · rw [Memory.readBytes_getElem? _ _ _ _ hi, Memory.read_writeBytes 0 bs _ h]
    simp [hi, List.getElem?_eq_getElem (show i < bs.length by omega)]
  · rw [List.getElem?_eq_none (by simp; omega), List.getElem?_eq_none (by simp; omega)]

/-- Two buffers in canonical form that read alike are equal. -/
theorem Memory.ext_read {m m' : Memory} (h : Memory.wf m = true) (h' : Memory.wf m' = true)
    (hr : ∀ a, Memory.read m a = Memory.read m' a) : m = m' := by
  induction m generalizing m' with
  | nil =>
    cases m' with
    | nil => rfl
    | cons c cs =>
      have := hr c.1
      rw [Memory.wf_iff] at h'
      simp [Memory.read] at this
      exact absurd this.symm (h'.2 c (List.mem_cons_self ..))
  | cons c cs ih =>
    obtain ⟨k, y⟩ := c
    have hh := (Memory.wf_iff _).1 h
    have hp := List.pairwise_cons.1 hh.1
    have hy : y ≠ unlisted := hh.2 (k, y) (List.mem_cons_self ..)
    cases m' with
    | nil =>
      have := hr k
      simp [Memory.read] at this
      exact absurd this hy
    | cons d ds =>
      obtain ⟨l, z⟩ := d
      have hh' := (Memory.wf_iff _).1 h'
      have hp' := List.pairwise_cons.1 hh'.1
      have hz : z ≠ unlisted := hh'.2 (l, z) (List.mem_cons_self ..)
      have hkl : k = l := by
        rcases Nat.lt_trichotomy k l with hlt | heq | hgt
        · have e := hr k
          rw [Memory.read_of_lt (m := (l, z) :: ds) (a := k) fun c hc => by
            rcases List.mem_cons.1 hc with rfl | hc
            · exact hlt
            · exact lt_trans hlt (hp'.1 c hc)] at e
          simp [Memory.read] at e
          exact absurd e hy
        · exact heq
        · have e := hr l
          rw [Memory.read_of_lt (m := (k, y) :: cs) (a := l) fun c hc => by
            rcases List.mem_cons.1 hc with rfl | hc
            · exact hgt
            · exact lt_trans hgt (hp.1 c hc)] at e
          simp [Memory.read] at e
          exact absurd e.symm hz
      subst hkl
      have hyz : y = z := by simpa [Memory.read] using hr k
      subst hyz
      congr 1
      refine ih (Memory.wf_tail h) (Memory.wf_tail h') fun a => ?_
      by_cases ha : k = a
      · subst ha
        rw [Memory.read_of_lt hp.1, Memory.read_of_lt hp'.1]
      · simpa [Memory.read, ha] using hr a

/-- A buffer of free contents is in canonical form and within its capacity. -/
theorem freeMemory_wf (cap n : Nat) : Memory.wf (freeMemory cap n) = true :=
  Memory.writeBytes_wf 0 _ Memory.wf_nil

theorem freeMemory_within (cap n : Nat) : Memory.within cap (freeMemory cap n) = true :=
  Memory.writeBytes_within rfl (by simp)

end Sys2Proof.Machine
end

