-- ==== Sys2Proof/Laws/State.lean ====
section
/-! SUPPORT. One lemma per field per named update of the state, so that no later proof unfolds a record update. -/

namespace Sys2Proof.Machine

/-! ## finish -/

@[simp] theorem State.finish_build (c : Code) (r : BitVec 64) (ph : Phases) (s : State) : (s.finish c r ph).build = s.build := rfl
@[simp] theorem State.finish_ctr (c : Code) (r : BitVec 64) (ph : Phases) (s : State) : (s.finish c r ph).ctr = s.ctr := rfl
@[simp] theorem State.finish_hash (c : Code) (r : BitVec 64) (ph : Phases) (s : State) : (s.finish c r ph).hash = s.hash := rfl
@[simp] theorem State.finish_hmac (c : Code) (r : BitVec 64) (ph : Phases) (s : State) : (s.finish c r ph).hmac = s.hmac := rfl
@[simp] theorem State.finish_dualec (c : Code) (r : BitVec 64) (ph : Phases) (s : State) : (s.finish c r ph).dualec = s.dualec := rfl
@[simp] theorem State.finish_phases (c : Code) (r : BitVec 64) (ph : Phases) (s : State) : (s.finish c r ph).phases = ph := rfl
@[simp] theorem State.finish_cmd (c : Code) (r : BitVec 64) (ph : Phases) (s : State) : (s.finish c r ph).cmd = s.cmd := rfl
@[simp] theorem State.finish_result (c : Code) (r : BitVec 64) (ph : Phases) (s : State) : (s.finish c r ph).result = r := rfl
@[simp] theorem State.finish_strength (c : Code) (r : BitVec 64) (ph : Phases) (s : State) : (s.finish c r ph).strength = s.strength := rfl
@[simp] theorem State.finish_outLen (c : Code) (r : BitVec 64) (ph : Phases) (s : State) : (s.finish c r ph).outLen = s.outLen := rfl
@[simp] theorem State.finish_aiLen (c : Code) (r : BitVec 64) (ph : Phases) (s : State) : (s.finish c r ph).aiLen = s.aiLen := rfl
@[simp] theorem State.finish_persLen (c : Code) (r : BitVec 64) (ph : Phases) (s : State) : (s.finish c r ph).persLen = s.persLen := rfl
@[simp] theorem State.finish_nonceLen (c : Code) (r : BitVec 64) (ph : Phases) (s : State) : (s.finish c r ph).nonceLen = s.nonceLen := rfl
@[simp] theorem State.finish_halt (c : Code) (r : BitVec 64) (ph : Phases) (s : State) : (s.finish c r ph).halt = s.halt := rfl
@[simp] theorem State.finish_err (c : Code) (r : BitVec 64) (ph : Phases) (s : State) : (s.finish c r ph).err = c := rfl
@[simp] theorem State.finish_inflight (c : Code) (r : BitVec 64) (ph : Phases) (s : State) : (s.finish c r ph).inflight = none := rfl
@[simp] theorem State.finish_uop (c : Code) (r : BitVec 64) (ph : Phases) (s : State) : (s.finish c r ph).uop = none := rfl
@[simp] theorem State.finish_dp (c : Code) (r : BitVec 64) (ph : Phases) (s : State) : (s.finish c r ph).dp = s.dp := rfl
@[simp] theorem State.finish_pers (c : Code) (r : BitVec 64) (ph : Phases) (s : State) : (s.finish c r ph).pers = s.pers := rfl
@[simp] theorem State.finish_nonce (c : Code) (r : BitVec 64) (ph : Phases) (s : State) : (s.finish c r ph).nonce = s.nonce := rfl
@[simp] theorem State.finish_ai (c : Code) (r : BitVec 64) (ph : Phases) (s : State) : (s.finish c r ph).ai = s.ai := rfl
@[simp] theorem State.finish_out (c : Code) (r : BitVec 64) (ph : Phases) (s : State) : (s.finish c r ph).out = s.out := rfl
@[simp] theorem State.finish_agenda (c : Code) (r : BitVec 64) (ph : Phases) (s : State) : (s.finish c r ph).agenda = s.agenda := rfl
@[simp] theorem State.finish_entropy (c : Code) (r : BitVec 64) (ph : Phases) (s : State) : (s.finish c r ph).entropy = s.entropy := rfl
@[simp] theorem State.finish_hostReg (c : Code) (r : BitVec 64) (ph : Phases) (s : State) : (s.finish c r ph).hostReg = s.hostReg := rfl
@[simp] theorem State.finish_hostBytes (c : Code) (r : BitVec 64) (ph : Phases) (s : State) : (s.finish c r ph).hostBytes = s.hostBytes := rfl
@[simp] theorem State.finish_freeCount (c : Code) (r : BitVec 64) (ph : Phases) (s : State) : (s.finish c r ph).freeCount = s.freeCount := rfl

/-! ## succeed -/

@[simp] theorem State.succeed_build (e : Engine) (r : Nat) (s : State) : (s.succeed e r).build = s.build := rfl
@[simp] theorem State.succeed_ctr (e : Engine) (r : Nat) (s : State) : (s.succeed e r).ctr = s.ctr := rfl
@[simp] theorem State.succeed_hash (e : Engine) (r : Nat) (s : State) : (s.succeed e r).hash = s.hash := rfl
@[simp] theorem State.succeed_hmac (e : Engine) (r : Nat) (s : State) : (s.succeed e r).hmac = s.hmac := rfl
@[simp] theorem State.succeed_dualec (e : Engine) (r : Nat) (s : State) : (s.succeed e r).dualec = s.dualec := rfl
@[simp] theorem State.succeed_phases (e : Engine) (r : Nat) (s : State) : (s.succeed e r).phases = s.phases.set e .seeded := rfl
@[simp] theorem State.succeed_cmd (e : Engine) (r : Nat) (s : State) : (s.succeed e r).cmd = s.cmd := rfl
@[simp] theorem State.succeed_result (e : Engine) (r : Nat) (s : State) : (s.succeed e r).result = BitVec.ofNat 64 r := rfl
@[simp] theorem State.succeed_strength (e : Engine) (r : Nat) (s : State) : (s.succeed e r).strength = s.strength := rfl
@[simp] theorem State.succeed_outLen (e : Engine) (r : Nat) (s : State) : (s.succeed e r).outLen = s.outLen := rfl
@[simp] theorem State.succeed_aiLen (e : Engine) (r : Nat) (s : State) : (s.succeed e r).aiLen = s.aiLen := rfl
@[simp] theorem State.succeed_persLen (e : Engine) (r : Nat) (s : State) : (s.succeed e r).persLen = s.persLen := rfl
@[simp] theorem State.succeed_nonceLen (e : Engine) (r : Nat) (s : State) : (s.succeed e r).nonceLen = s.nonceLen := rfl
@[simp] theorem State.succeed_halt (e : Engine) (r : Nat) (s : State) : (s.succeed e r).halt = s.halt := rfl
@[simp] theorem State.succeed_err (e : Engine) (r : Nat) (s : State) : (s.succeed e r).err = .ok := rfl
@[simp] theorem State.succeed_inflight (e : Engine) (r : Nat) (s : State) : (s.succeed e r).inflight = none := rfl
@[simp] theorem State.succeed_uop (e : Engine) (r : Nat) (s : State) : (s.succeed e r).uop = none := rfl
@[simp] theorem State.succeed_dp (e : Engine) (r : Nat) (s : State) : (s.succeed e r).dp = s.dp := rfl
@[simp] theorem State.succeed_pers (e : Engine) (r : Nat) (s : State) : (s.succeed e r).pers = s.pers := rfl
@[simp] theorem State.succeed_nonce (e : Engine) (r : Nat) (s : State) : (s.succeed e r).nonce = s.nonce := rfl
@[simp] theorem State.succeed_ai (e : Engine) (r : Nat) (s : State) : (s.succeed e r).ai = s.ai := rfl
@[simp] theorem State.succeed_out (e : Engine) (r : Nat) (s : State) : (s.succeed e r).out = s.out := rfl
@[simp] theorem State.succeed_agenda (e : Engine) (r : Nat) (s : State) : (s.succeed e r).agenda = s.agenda := rfl
@[simp] theorem State.succeed_entropy (e : Engine) (r : Nat) (s : State) : (s.succeed e r).entropy = s.entropy := rfl
@[simp] theorem State.succeed_hostReg (e : Engine) (r : Nat) (s : State) : (s.succeed e r).hostReg = s.hostReg := rfl
@[simp] theorem State.succeed_hostBytes (e : Engine) (r : Nat) (s : State) : (s.succeed e r).hostBytes = s.hostBytes := rfl
@[simp] theorem State.succeed_freeCount (e : Engine) (r : Nat) (s : State) : (s.succeed e r).freeCount = s.freeCount := rfl

/-! ## spoil -/

@[simp] theorem State.spoil_build (e : Option Engine) (s : State) : (s.spoil e).build = s.build := rfl
@[simp] theorem State.spoil_ctr (e : Option Engine) (s : State) : (s.spoil e).ctr = (if e = some .ctr then freeCtr s.build s.freeCount else s.ctr) := rfl
@[simp] theorem State.spoil_hash (e : Option Engine) (s : State) : (s.spoil e).hash = (if e = some .hash then freeHash s.build s.freeCount else s.hash) := rfl
@[simp] theorem State.spoil_hmac (e : Option Engine) (s : State) : (s.spoil e).hmac = (if e = some .hmac then freeHmac s.build s.freeCount else s.hmac) := rfl
@[simp] theorem State.spoil_dualec (e : Option Engine) (s : State) : (s.spoil e).dualec = (if e = some .dualec then freeDualec s.build s.freeCount else s.dualec) := rfl
@[simp] theorem State.spoil_phases (e : Option Engine) (s : State) : (s.spoil e).phases = s.phases := rfl
@[simp] theorem State.spoil_cmd (e : Option Engine) (s : State) : (s.spoil e).cmd = s.cmd := rfl
@[simp] theorem State.spoil_result (e : Option Engine) (s : State) : (s.spoil e).result = s.result := rfl
@[simp] theorem State.spoil_strength (e : Option Engine) (s : State) : (s.spoil e).strength = s.strength := rfl
@[simp] theorem State.spoil_outLen (e : Option Engine) (s : State) : (s.spoil e).outLen = s.outLen := rfl
@[simp] theorem State.spoil_aiLen (e : Option Engine) (s : State) : (s.spoil e).aiLen = s.aiLen := rfl
@[simp] theorem State.spoil_persLen (e : Option Engine) (s : State) : (s.spoil e).persLen = s.persLen := rfl
@[simp] theorem State.spoil_nonceLen (e : Option Engine) (s : State) : (s.spoil e).nonceLen = s.nonceLen := rfl
@[simp] theorem State.spoil_halt (e : Option Engine) (s : State) : (s.spoil e).halt = s.halt := rfl
@[simp] theorem State.spoil_err (e : Option Engine) (s : State) : (s.spoil e).err = s.err := rfl
@[simp] theorem State.spoil_inflight (e : Option Engine) (s : State) : (s.spoil e).inflight = s.inflight := rfl
@[simp] theorem State.spoil_uop (e : Option Engine) (s : State) : (s.spoil e).uop = s.uop := rfl
@[simp] theorem State.spoil_dp (e : Option Engine) (s : State) : (s.spoil e).dp = s.dp := rfl
@[simp] theorem State.spoil_pers (e : Option Engine) (s : State) : (s.spoil e).pers = s.pers := rfl
@[simp] theorem State.spoil_nonce (e : Option Engine) (s : State) : (s.spoil e).nonce = s.nonce := rfl
@[simp] theorem State.spoil_ai (e : Option Engine) (s : State) : (s.spoil e).ai = s.ai := rfl
@[simp] theorem State.spoil_out (e : Option Engine) (s : State) : (s.spoil e).out = freeMemory s.build.outCap (s.freeCount + 3) := rfl
@[simp] theorem State.spoil_agenda (e : Option Engine) (s : State) : (s.spoil e).agenda = s.agenda := rfl
@[simp] theorem State.spoil_entropy (e : Option Engine) (s : State) : (s.spoil e).entropy = s.entropy := rfl
@[simp] theorem State.spoil_hostReg (e : Option Engine) (s : State) : (s.spoil e).hostReg = s.hostReg := rfl
@[simp] theorem State.spoil_hostBytes (e : Option Engine) (s : State) : (s.spoil e).hostBytes = s.hostBytes := rfl
@[simp] theorem State.spoil_freeCount (e : Option Engine) (s : State) : (s.spoil e).freeCount = s.freeCount + 4 := rfl

/-! ## accept -/

@[simp] theorem State.accept_build (w : Word) (s : State) : (s.accept w).build = s.build := rfl
@[simp] theorem State.accept_ctr (w : Word) (s : State) : (s.accept w).ctr = s.ctr := rfl
@[simp] theorem State.accept_hash (w : Word) (s : State) : (s.accept w).hash = s.hash := rfl
@[simp] theorem State.accept_hmac (w : Word) (s : State) : (s.accept w).hmac = s.hmac := rfl
@[simp] theorem State.accept_dualec (w : Word) (s : State) : (s.accept w).dualec = s.dualec := rfl
@[simp] theorem State.accept_phases (w : Word) (s : State) : (s.accept w).phases = acceptPhases s.phases (commandOf s.build w) := rfl
@[simp] theorem State.accept_cmd (w : Word) (s : State) : (s.accept w).cmd = w := rfl
@[simp] theorem State.accept_result (w : Word) (s : State) : (s.accept w).result = s.result := rfl
@[simp] theorem State.accept_strength (w : Word) (s : State) : (s.accept w).strength = s.strength := rfl
@[simp] theorem State.accept_outLen (w : Word) (s : State) : (s.accept w).outLen = s.outLen := rfl
@[simp] theorem State.accept_aiLen (w : Word) (s : State) : (s.accept w).aiLen = s.aiLen := rfl
@[simp] theorem State.accept_persLen (w : Word) (s : State) : (s.accept w).persLen = s.persLen := rfl
@[simp] theorem State.accept_nonceLen (w : Word) (s : State) : (s.accept w).nonceLen = s.nonceLen := rfl
@[simp] theorem State.accept_halt (w : Word) (s : State) : (s.accept w).halt = s.halt := rfl
@[simp] theorem State.accept_err (w : Word) (s : State) : (s.accept w).err = s.err := rfl
@[simp] theorem State.accept_inflight (w : Word) (s : State) : (s.accept w).inflight = some ⟨w, s.strength, s.outLen, s.aiLen, s.persLen, s.nonceLen, (commandOf s.build w).map fun c => (c.1, s.phases.get c.1)⟩ := rfl
@[simp] theorem State.accept_uop (w : Word) (s : State) : (s.accept w).uop = s.uop := rfl
@[simp] theorem State.accept_dp (w : Word) (s : State) : (s.accept w).dp = s.dp := rfl
@[simp] theorem State.accept_pers (w : Word) (s : State) : (s.accept w).pers = s.pers := rfl
@[simp] theorem State.accept_nonce (w : Word) (s : State) : (s.accept w).nonce = s.nonce := rfl
@[simp] theorem State.accept_ai (w : Word) (s : State) : (s.accept w).ai = s.ai := rfl
@[simp] theorem State.accept_out (w : Word) (s : State) : (s.accept w).out = s.out := rfl
@[simp] theorem State.accept_agenda (w : Word) (s : State) : (s.accept w).agenda = s.agenda := rfl
@[simp] theorem State.accept_entropy (w : Word) (s : State) : (s.accept w).entropy = s.entropy := rfl
@[simp] theorem State.accept_hostReg (w : Word) (s : State) : (s.accept w).hostReg = s.hostReg := rfl
@[simp] theorem State.accept_hostBytes (w : Word) (s : State) : (s.accept w).hostBytes = s.hostBytes := rfl
@[simp] theorem State.accept_freeCount (w : Word) (s : State) : (s.accept w).freeCount = s.freeCount := rfl

/-! ## hwReset -/

@[simp] theorem State.hwReset_build (s : State) : (s.hwReset).build = s.build := rfl
@[simp] theorem State.hwReset_ctr (s : State) : (s.hwReset).ctr = freeCtr s.build s.freeCount := rfl
@[simp] theorem State.hwReset_hash (s : State) : (s.hwReset).hash = freeHash s.build (s.freeCount + 3) := rfl
@[simp] theorem State.hwReset_hmac (s : State) : (s.hwReset).hmac = freeHmac s.build (s.freeCount + 6) := rfl
@[simp] theorem State.hwReset_dualec (s : State) : (s.hwReset).dualec = freeDualec s.build (s.freeCount + 9) := rfl
@[simp] theorem State.hwReset_phases (s : State) : (s.hwReset).phases = ⟨.uninit, .uninit, .uninit, .uninit⟩ := rfl
@[simp] theorem State.hwReset_cmd (s : State) : (s.hwReset).cmd = 0 := rfl
@[simp] theorem State.hwReset_result (s : State) : (s.hwReset).result = 0 := rfl
@[simp] theorem State.hwReset_strength (s : State) : (s.hwReset).strength = 0 := rfl
@[simp] theorem State.hwReset_outLen (s : State) : (s.hwReset).outLen = 0 := rfl
@[simp] theorem State.hwReset_aiLen (s : State) : (s.hwReset).aiLen = 0 := rfl
@[simp] theorem State.hwReset_persLen (s : State) : (s.hwReset).persLen = 0 := rfl
@[simp] theorem State.hwReset_nonceLen (s : State) : (s.hwReset).nonceLen = 0 := rfl
@[simp] theorem State.hwReset_halt (s : State) : (s.hwReset).halt = false := rfl
@[simp] theorem State.hwReset_err (s : State) : (s.hwReset).err = .ok := rfl
@[simp] theorem State.hwReset_inflight (s : State) : (s.hwReset).inflight = none := rfl
@[simp] theorem State.hwReset_uop (s : State) : (s.hwReset).uop = none := rfl
@[simp] theorem State.hwReset_dp (s : State) : (s.hwReset).dp = s.dp := rfl
@[simp] theorem State.hwReset_pers (s : State) : (s.hwReset).pers = freeMemory s.build.persCap (s.freeCount + 12) := rfl
@[simp] theorem State.hwReset_nonce (s : State) : (s.hwReset).nonce = freeMemory s.build.nonceCap (s.freeCount + 13) := rfl
@[simp] theorem State.hwReset_ai (s : State) : (s.hwReset).ai = freeMemory s.build.aiCap (s.freeCount + 14) := rfl
@[simp] theorem State.hwReset_out (s : State) : (s.hwReset).out = freeMemory s.build.outCap (s.freeCount + 15) := rfl
@[simp] theorem State.hwReset_agenda (s : State) : (s.hwReset).agenda = s.agenda := rfl
@[simp] theorem State.hwReset_entropy (s : State) : (s.hwReset).entropy = s.entropy := rfl
@[simp] theorem State.hwReset_hostReg (s : State) : (s.hwReset).hostReg = s.hostReg := rfl
@[simp] theorem State.hwReset_hostBytes (s : State) : (s.hwReset).hostBytes = s.hostBytes := rfl
@[simp] theorem State.hwReset_freeCount (s : State) : (s.hwReset).freeCount = s.freeCount + 16 := rfl

/-! ## raise: an outcome other than a contract violation writes `ERR`, `RESULT`, the phases and `BUSY` alone -/

@[simp] theorem State.raise_build (e : Option Engine) (c : Code) (s : State) : (s.raise e c).build = s.build := by
  unfold State.raise; split <;> rfl
@[simp] theorem State.raise_phases (e : Option Engine) (c : Code) (s : State) : (s.raise e c).phases = s.phasesAfter e c := by
  unfold State.raise; split <;> rfl
@[simp] theorem State.raise_cmd (e : Option Engine) (c : Code) (s : State) : (s.raise e c).cmd = s.cmd := by
  unfold State.raise; split <;> rfl
@[simp] theorem State.raise_result (e : Option Engine) (c : Code) (s : State) : (s.raise e c).result = codeResult c := by
  unfold State.raise; split <;> rfl
@[simp] theorem State.raise_strength (e : Option Engine) (c : Code) (s : State) : (s.raise e c).strength = s.strength := by
  unfold State.raise; split <;> rfl
@[simp] theorem State.raise_outLen (e : Option Engine) (c : Code) (s : State) : (s.raise e c).outLen = s.outLen := by
  unfold State.raise; split <;> rfl
@[simp] theorem State.raise_aiLen (e : Option Engine) (c : Code) (s : State) : (s.raise e c).aiLen = s.aiLen := by
  unfold State.raise; split <;> rfl
@[simp] theorem State.raise_persLen (e : Option Engine) (c : Code) (s : State) : (s.raise e c).persLen = s.persLen := by
  unfold State.raise; split <;> rfl
@[simp] theorem State.raise_nonceLen (e : Option Engine) (c : Code) (s : State) : (s.raise e c).nonceLen = s.nonceLen := by
  unfold State.raise; split <;> rfl
@[simp] theorem State.raise_err (e : Option Engine) (c : Code) (s : State) : (s.raise e c).err = c := by
  unfold State.raise; split <;> rfl
@[simp] theorem State.raise_inflight (e : Option Engine) (c : Code) (s : State) : (s.raise e c).inflight = none := by
  unfold State.raise; split <;> rfl
@[simp] theorem State.raise_uop (e : Option Engine) (c : Code) (s : State) : (s.raise e c).uop = none := by
  unfold State.raise; split <;> rfl
@[simp] theorem State.raise_dp (e : Option Engine) (c : Code) (s : State) : (s.raise e c).dp = s.dp := by
  unfold State.raise; split <;> rfl
@[simp] theorem State.raise_pers (e : Option Engine) (c : Code) (s : State) : (s.raise e c).pers = s.pers := by
  unfold State.raise; split <;> rfl
@[simp] theorem State.raise_nonce (e : Option Engine) (c : Code) (s : State) : (s.raise e c).nonce = s.nonce := by
  unfold State.raise; split <;> rfl
@[simp] theorem State.raise_ai (e : Option Engine) (c : Code) (s : State) : (s.raise e c).ai = s.ai := by
  unfold State.raise; split <;> rfl
@[simp] theorem State.raise_agenda (e : Option Engine) (c : Code) (s : State) : (s.raise e c).agenda = s.agenda := by
  unfold State.raise; split <;> rfl
@[simp] theorem State.raise_entropy (e : Option Engine) (c : Code) (s : State) : (s.raise e c).entropy = s.entropy := by
  unfold State.raise; split <;> rfl
@[simp] theorem State.raise_hostReg (e : Option Engine) (c : Code) (s : State) : (s.raise e c).hostReg = s.hostReg := by
  unfold State.raise; split <;> rfl
@[simp] theorem State.raise_hostBytes (e : Option Engine) (c : Code) (s : State) : (s.raise e c).hostBytes = s.hostBytes := by
  unfold State.raise; split <;> rfl

theorem State.raise_of_ne (e : Option Engine) (c : Code) (s : State) (h : c ≠ .contractViolation) :
    s.raise e c = s.finish c (codeResult c) (s.phasesAfter e c) := by
  unfold State.raise; rw [if_neg h]

theorem State.raise_violation (e : Option Engine) (s : State) :
    s.raise e .contractViolation =
      State.finish .contractViolation (codeResult .contractViolation) s.phases { s.spoil e with halt := true } := by
  cases e <;> rfl

/-! ## fillBuffer and storeOut -/

@[simp] theorem State.fillBuffer_build (sp : Space) (b : Bytes) (s : State) : (s.fillBuffer sp b).build = s.build := by
  cases sp <;> rfl
@[simp] theorem State.fillBuffer_ctr (sp : Space) (b : Bytes) (s : State) : (s.fillBuffer sp b).ctr = s.ctr := by
  cases sp <;> rfl
@[simp] theorem State.fillBuffer_hash (sp : Space) (b : Bytes) (s : State) : (s.fillBuffer sp b).hash = s.hash := by
  cases sp <;> rfl
@[simp] theorem State.fillBuffer_hmac (sp : Space) (b : Bytes) (s : State) : (s.fillBuffer sp b).hmac = s.hmac := by
  cases sp <;> rfl
@[simp] theorem State.fillBuffer_dualec (sp : Space) (b : Bytes) (s : State) : (s.fillBuffer sp b).dualec = s.dualec := by
  cases sp <;> rfl
@[simp] theorem State.fillBuffer_phases (sp : Space) (b : Bytes) (s : State) : (s.fillBuffer sp b).phases = s.phases := by
  cases sp <;> rfl
@[simp] theorem State.fillBuffer_cmd (sp : Space) (b : Bytes) (s : State) : (s.fillBuffer sp b).cmd = s.cmd := by
  cases sp <;> rfl
@[simp] theorem State.fillBuffer_result (sp : Space) (b : Bytes) (s : State) : (s.fillBuffer sp b).result = s.result := by
  cases sp <;> rfl
@[simp] theorem State.fillBuffer_strength (sp : Space) (b : Bytes) (s : State) : (s.fillBuffer sp b).strength = s.strength := by
  cases sp <;> rfl
@[simp] theorem State.fillBuffer_outLen (sp : Space) (b : Bytes) (s : State) : (s.fillBuffer sp b).outLen = s.outLen := by
  cases sp <;> rfl
@[simp] theorem State.fillBuffer_aiLen (sp : Space) (b : Bytes) (s : State) : (s.fillBuffer sp b).aiLen = s.aiLen := by
  cases sp <;> rfl
@[simp] theorem State.fillBuffer_persLen (sp : Space) (b : Bytes) (s : State) : (s.fillBuffer sp b).persLen = s.persLen := by
  cases sp <;> rfl
@[simp] theorem State.fillBuffer_nonceLen (sp : Space) (b : Bytes) (s : State) : (s.fillBuffer sp b).nonceLen = s.nonceLen := by
  cases sp <;> rfl
@[simp] theorem State.fillBuffer_halt (sp : Space) (b : Bytes) (s : State) : (s.fillBuffer sp b).halt = s.halt := by
  cases sp <;> rfl
@[simp] theorem State.fillBuffer_err (sp : Space) (b : Bytes) (s : State) : (s.fillBuffer sp b).err = s.err := by
  cases sp <;> rfl
@[simp] theorem State.fillBuffer_inflight (sp : Space) (b : Bytes) (s : State) : (s.fillBuffer sp b).inflight = s.inflight := by
  cases sp <;> rfl
@[simp] theorem State.fillBuffer_uop (sp : Space) (b : Bytes) (s : State) : (s.fillBuffer sp b).uop = s.uop := by
  cases sp <;> rfl
@[simp] theorem State.fillBuffer_dp (sp : Space) (b : Bytes) (s : State) : (s.fillBuffer sp b).dp = s.dp := by
  cases sp <;> rfl
@[simp] theorem State.fillBuffer_agenda (sp : Space) (b : Bytes) (s : State) : (s.fillBuffer sp b).agenda = s.agenda := by
  cases sp <;> rfl
@[simp] theorem State.fillBuffer_entropy (sp : Space) (b : Bytes) (s : State) : (s.fillBuffer sp b).entropy = s.entropy := by
  cases sp <;> rfl
@[simp] theorem State.fillBuffer_hostReg (sp : Space) (b : Bytes) (s : State) : (s.fillBuffer sp b).hostReg = s.hostReg := by
  cases sp <;> rfl
@[simp] theorem State.fillBuffer_hostBytes (sp : Space) (b : Bytes) (s : State) : (s.fillBuffer sp b).hostBytes = s.hostBytes := by
  cases sp <;> rfl
@[simp] theorem State.fillBuffer_freeCount (sp : Space) (b : Bytes) (s : State) : (s.fillBuffer sp b).freeCount = s.freeCount := by
  cases sp <;> rfl

@[simp] theorem State.fillBuffer_same (sp : Space) (b : Bytes) (s : State) :
    (s.fillBuffer sp b).buffer sp = Memory.writeBytes (s.buffer sp) 0 b := by
  cases sp <;> rfl

theorem State.fillBuffer_other (sp sp' : Space) (b : Bytes) (s : State) (h : sp' ≠ sp) :
    (s.fillBuffer sp b).buffer sp' = s.buffer sp' := by
  cases sp <;> cases sp' <;> first | rfl | exact absurd rfl h

@[simp] theorem State.storeOut_build (n : Nat) (b : Bytes) (s : State) : (s.storeOut n b).build = s.build := rfl
@[simp] theorem State.storeOut_ctr (n : Nat) (b : Bytes) (s : State) : (s.storeOut n b).ctr = s.ctr := rfl
@[simp] theorem State.storeOut_hash (n : Nat) (b : Bytes) (s : State) : (s.storeOut n b).hash = s.hash := rfl
@[simp] theorem State.storeOut_hmac (n : Nat) (b : Bytes) (s : State) : (s.storeOut n b).hmac = s.hmac := rfl
@[simp] theorem State.storeOut_dualec (n : Nat) (b : Bytes) (s : State) : (s.storeOut n b).dualec = s.dualec := rfl
@[simp] theorem State.storeOut_phases (n : Nat) (b : Bytes) (s : State) : (s.storeOut n b).phases = s.phases := rfl
@[simp] theorem State.storeOut_cmd (n : Nat) (b : Bytes) (s : State) : (s.storeOut n b).cmd = s.cmd := rfl
@[simp] theorem State.storeOut_result (n : Nat) (b : Bytes) (s : State) : (s.storeOut n b).result = s.result := rfl
@[simp] theorem State.storeOut_strength (n : Nat) (b : Bytes) (s : State) : (s.storeOut n b).strength = s.strength := rfl
@[simp] theorem State.storeOut_outLen (n : Nat) (b : Bytes) (s : State) : (s.storeOut n b).outLen = s.outLen := rfl
@[simp] theorem State.storeOut_aiLen (n : Nat) (b : Bytes) (s : State) : (s.storeOut n b).aiLen = s.aiLen := rfl
@[simp] theorem State.storeOut_persLen (n : Nat) (b : Bytes) (s : State) : (s.storeOut n b).persLen = s.persLen := rfl
@[simp] theorem State.storeOut_nonceLen (n : Nat) (b : Bytes) (s : State) : (s.storeOut n b).nonceLen = s.nonceLen := rfl
@[simp] theorem State.storeOut_halt (n : Nat) (b : Bytes) (s : State) : (s.storeOut n b).halt = s.halt := rfl
@[simp] theorem State.storeOut_err (n : Nat) (b : Bytes) (s : State) : (s.storeOut n b).err = s.err := rfl
@[simp] theorem State.storeOut_inflight (n : Nat) (b : Bytes) (s : State) : (s.storeOut n b).inflight = s.inflight := rfl
@[simp] theorem State.storeOut_uop (n : Nat) (b : Bytes) (s : State) : (s.storeOut n b).uop = s.uop := rfl
@[simp] theorem State.storeOut_dp (n : Nat) (b : Bytes) (s : State) : (s.storeOut n b).dp = s.dp := rfl
@[simp] theorem State.storeOut_pers (n : Nat) (b : Bytes) (s : State) : (s.storeOut n b).pers = s.pers := rfl
@[simp] theorem State.storeOut_nonce (n : Nat) (b : Bytes) (s : State) : (s.storeOut n b).nonce = s.nonce := rfl
@[simp] theorem State.storeOut_ai (n : Nat) (b : Bytes) (s : State) : (s.storeOut n b).ai = s.ai := rfl
@[simp] theorem State.storeOut_out (n : Nat) (b : Bytes) (s : State) : (s.storeOut n b).out = Memory.writeBytes s.out 0 (b.take n) := rfl
@[simp] theorem State.storeOut_agenda (n : Nat) (b : Bytes) (s : State) : (s.storeOut n b).agenda = s.agenda := rfl
@[simp] theorem State.storeOut_entropy (n : Nat) (b : Bytes) (s : State) : (s.storeOut n b).entropy = s.entropy := rfl
@[simp] theorem State.storeOut_hostReg (n : Nat) (b : Bytes) (s : State) : (s.storeOut n b).hostReg = s.hostReg := rfl
@[simp] theorem State.storeOut_hostBytes (n : Nat) (b : Bytes) (s : State) : (s.storeOut n b).hostBytes = s.hostBytes := rfl
@[simp] theorem State.storeOut_freeCount (n : Nat) (b : Bytes) (s : State) : (s.storeOut n b).freeCount = s.freeCount := rfl

/-! ## Phases -/

@[simp] theorem Phases.get_set_same (p : Phases) (e : Engine) (x : Phase) : (p.set e x).get e = x := by
  cases e <;> rfl

theorem Phases.get_set_other (p : Phases) (e f : Engine) (x : Phase) (h : f ≠ e) : (p.set e x).get f = p.get f := by
  cases e <;> cases f <;> first | rfl | exact absurd rfl h

theorem Phases.get_set (p : Phases) (e f : Engine) (x : Phase) :
    (p.set e x).get f = if f = e then x else p.get f := by
  cases e <;> cases f <;> rfl

@[simp] theorem Phases.set_get (p : Phases) (e : Engine) : p.set e (p.get e) = p := by
  cases e <;> rfl

@[simp] theorem Phases.set_set (p : Phases) (e : Engine) (x y : Phase) : (p.set e x).set e y = p.set e y := by
  cases e <;> rfl

end Sys2Proof.Machine
end

