-- ==== Sys2Proof/Laws/Ops.lean ====
section
/-! SUPPORT. What each shared operation over the state can do: taking an outcome, asking for entropy, ending a command,
and the three frames (R244 to R251). -/

namespace Sys2Proof.Machine

/-! ## Phases after an outcome (R241) -/

theorem State.phasesAfter_other (e : Engine) (c : Code) (s : State) (f : Engine) (h : f ≠ e) :
    (s.phasesAfter (some e) c).get f = s.phases.get f := by
  unfold State.phasesAfter
  split <;> simp_all [Phases.get_set_other]

theorem State.phasesAfter_signal (e : Engine) (s : State) :
    s.phasesAfter (some e) .reseedRequired = s.phases.set e .reseedRequired := rfl

/-- An error leaves the engine in the phase it had at acceptance. -/
theorem State.phasesAfter_error (e : Engine) (c : Code) (s : State) (h1 : c ≠ .contractViolation)
    (h2 : c ≠ .reseedRequired) : s.phasesAfter (some e) c = s.phases.set e (s.p0 e) := by
  cases c <;> first | rfl | exact absurd rfl h1 | exact absurd rfl h2

/-! ## Taking an outcome (R271, R277, R282) -/

/-- Everything taking an outcome can do to the working state, `OUT` and `HALT`: nothing, but for a contract
violation, which halts the block and leaves free values in the addressed engine and in `OUT`. -/
theorem State.raise_cases (e : Option Engine) (c : Code) (s : State) :
    (c ≠ .contractViolation ∧ (s.raise e c).ctr = s.ctr ∧ (s.raise e c).hash = s.hash ∧
        (s.raise e c).hmac = s.hmac ∧ (s.raise e c).dualec = s.dualec ∧ (s.raise e c).out = s.out ∧
        (s.raise e c).halt = s.halt ∧ (s.raise e c).freeCount = s.freeCount) ∨
      (c = .contractViolation ∧ (s.raise e c).ctr = (s.spoil e).ctr ∧ (s.raise e c).hash = (s.spoil e).hash ∧
        (s.raise e c).hmac = (s.spoil e).hmac ∧ (s.raise e c).dualec = (s.spoil e).dualec ∧
        (s.raise e c).out = (s.spoil e).out ∧ (s.raise e c).halt = true ∧
        (s.raise e c).freeCount = s.freeCount + 4) := by
  by_cases h : c = .contractViolation
  · right; subst h; rw [State.raise_violation]; exact ⟨rfl, rfl, rfl, rfl, rfl, rfl, rfl, rfl⟩
  · left; rw [State.raise_of_ne e c s h]; exact ⟨h, rfl, rfl, rfl, rfl, rfl, rfl, rfl⟩

/-- Taking an outcome ends what is running. -/
@[simp] theorem State.raise_busy (e : Option Engine) (c : Code) (s : State) : (s.raise e c).busy = false := by
  unfold State.raise; split <;> rfl

/-- An error leaves the engine of the command in flight in the phase it had at acceptance; without a command no phase
changes (R241). -/
theorem State.raise_phases_target (c : Code) (s : State) (h1 : c ≠ .contractViolation) (h2 : c ≠ .reseedRequired) :
    (s.raise (s.target.map (·.1)) c).phases = (match s.target with
      | some (e, p0) => s.phases.set e p0
      | none => s.phases) := by
  rw [State.raise_of_ne _ _ _ h1]
  cases ht : s.target with
  | none => rfl
  | some x =>
    show s.phasesAfter (some x.1) c = _
    rw [State.phasesAfter_error _ _ _ h1 h2]
    simp [State.p0, ht]

/-! ## Asking for entropy (R65, R276, R311) -/

theorem State.withEntropy_nil (e : Engine) (k : Bytes → State → State) (s : State) (h : s.entropy = []) :
    s.withEntropy e k = s := by
  unfold State.withEntropy; rw [h]

theorem State.withEntropy_fail (e : Engine) (k : Bytes → State → State) (s : State) (rest : List EntropyAnswer)
    (h : s.entropy = .fail :: rest) :
    s.withEntropy e k = State.raise (some e) .entropyFailure { s with entropy := rest } := by
  unfold State.withEntropy; rw [h]

theorem State.withEntropy_ok (e : Engine) (k : Bytes → State → State) (s : State) (bytes : Bytes)
    (rest : List EntropyAnswer) (h : s.entropy = .ok bytes :: rest) :
    s.withEntropy e k = k bytes { s with entropy := rest } := by
  unfold State.withEntropy; rw [h]

/-! ## The end of a command -/

theorem State.conclude_some (e : Engine) (r : Nat) (s s' : State) : s.conclude e r (some s') = s'.succeed e r := rfl

theorem State.conclude_none (e : Engine) (r : Nat) (s : State) :
    s.conclude e r none = s.raise (some e) .contractViolation := rfl

/-! ## The frames -/

/-- Everything INSTANTIATE can do (R245): its first failing check, waiting, an entropy failure, or its seeding's
success or violation. -/
theorem instantiateFrame_cases (e : Engine) (seed : Nat → Bytes → State → Option State) (s : State) :
    (∃ c, instantiateCheck e s = some c ∧ instantiateFrame e seed s = s.raise (some e) c) ∨
    (instantiateCheck e s = none ∧
      ((s.entropy = [] ∧ instantiateFrame e seed s = s) ∨
       (∃ rest, s.entropy = .fail :: rest ∧ instantiateFrame e seed s =
          State.raise (some e) .entropyFailure { s with entropy := rest }) ∨
       (∃ bytes rest, s.entropy = .ok bytes :: rest ∧ instantiateFrame e seed s =
          State.conclude e 0 (seed s.strengthOp (bytes ++ s.nonceIn ++ s.persIn) { s with entropy := rest })
            { s with entropy := rest }))) := by
  unfold instantiateFrame
  cases hc : instantiateCheck e s with
  | some c => exact .inl ⟨c, rfl, rfl⟩
  | none =>
    refine .inr ⟨rfl, ?_⟩
    match h : s.entropy with
    | [] => exact .inl ⟨rfl, State.withEntropy_nil e _ s h⟩
    | .fail :: rest => exact .inr (.inl ⟨rest, rfl, State.withEntropy_fail e _ s rest h⟩)
    | .ok bytes :: rest => exact .inr (.inr ⟨bytes, rest, rfl, State.withEntropy_ok e _ s bytes rest h⟩)

/-- Everything RESEED can do (R249). -/
theorem reseedFrame_cases (e : Engine) (ai : Bool) (reseed : Bytes → Bytes → State → Option State) (s : State) :
    (∃ c, reseedCheck e ai s = some c ∧ reseedFrame e ai reseed s = s.raise (some e) c) ∨
    (reseedCheck e ai s = none ∧
      ((s.entropy = [] ∧ reseedFrame e ai reseed s = s) ∨
       (∃ rest, s.entropy = .fail :: rest ∧ reseedFrame e ai reseed s =
          State.raise (some e) .entropyFailure { s with entropy := rest }) ∨
       (∃ bytes rest, s.entropy = .ok bytes :: rest ∧ reseedFrame e ai reseed s =
          State.conclude e 0 (reseed bytes (orEmpty (s.aiIn ai)) { s with entropy := rest })
            { s with entropy := rest }))) := by
  unfold reseedFrame
  cases hc : reseedCheck e ai s with
  | some c => exact .inl ⟨c, rfl, rfl⟩
  | none =>
    refine .inr ⟨rfl, ?_⟩
    match h : s.entropy with
    | [] => exact .inl ⟨rfl, State.withEntropy_nil e _ s h⟩
    | .fail :: rest => exact .inr (.inl ⟨rest, rfl, State.withEntropy_fail e _ s rest h⟩)
    | .ok bytes :: rest => exact .inr (.inr ⟨bytes, rest, rfl, State.withEntropy_ok e _ s bytes rest h⟩)

/-- Everything GENERATE can do (R247, R251). -/
theorem generateFrame_cases (e : Engine) (ai pr : Bool) (reseed : Bytes → Bytes → State → Option State)
    (produce : Option Bytes → Nat → State → Option (State × Bytes)) (s : State) :
    (∃ c, generateCheck e ai s = some c ∧ generateFrame e ai pr reseed produce s = s.raise (some e) c) ∨
    (generateCheck e ai s = none ∧
      ((pr = false ∧ generateFrame e ai pr reseed produce s = emitFrame e produce s.outLenOp (s.aiIn ai) s) ∨
       (pr = true ∧ s.entropy = [] ∧ generateFrame e ai pr reseed produce s = s) ∨
       (pr = true ∧ ∃ rest, s.entropy = .fail :: rest ∧ generateFrame e ai pr reseed produce s =
          State.raise (some e) .entropyFailure { s with entropy := rest }) ∨
       (pr = true ∧ ∃ bytes rest, s.entropy = .ok bytes :: rest ∧
          ((∃ s2, reseed bytes (orEmpty (s.aiIn ai)) { s with entropy := rest } = some s2 ∧
              generateFrame e ai pr reseed produce s = emitFrame e produce s.outLenOp none s2) ∨
           (reseed bytes (orEmpty (s.aiIn ai)) { s with entropy := rest } = none ∧
              generateFrame e ai pr reseed produce s =
                State.raise (some e) .contractViolation { s with entropy := rest }))))) := by
  unfold generateFrame
  cases hc : generateCheck e ai s with
  | some c => exact .inl ⟨c, rfl, rfl⟩
  | none =>
    refine .inr ⟨rfl, ?_⟩
    cases pr with
    | false => exact .inl ⟨rfl, rfl⟩
    | true =>
      right
      simp only [if_true]
      match h : s.entropy with
      | [] => exact .inl ⟨trivial, rfl, State.withEntropy_nil e _ s h⟩
      | .fail :: rest => exact .inr (.inl ⟨trivial, rest, rfl, State.withEntropy_fail e _ s rest h⟩)
      | .ok bytes :: rest =>
        refine .inr (.inr ⟨trivial, bytes, rest, rfl, ?_⟩)
        rw [State.withEntropy_ok e _ s bytes rest h]
        cases hr : reseed bytes (orEmpty (s.aiIn ai)) { s with entropy := rest } with
        | none => exact .inr ⟨rfl, rfl⟩
        | some s2 => exact .inl ⟨s2, rfl, rfl⟩

/-- Everything the output part of GENERATE can do (R247). -/
theorem emitFrame_cases (e : Engine) (produce : Option Bytes → Nat → State → Option (State × Bytes)) (n : Nat)
    (a : Option Bytes) (s : State) :
    (∃ s' out, produce a n s = some (s', out) ∧ emitFrame e produce n a s = (s'.storeOut n out).succeed e (n * 8)) ∨
      (produce a n s = none ∧ emitFrame e produce n a s = s.raise (some e) .contractViolation) := by
  unfold emitFrame
  cases h : produce a n s with
  | none => exact .inr ⟨rfl, rfl⟩
  | some r => exact .inl ⟨r.1, r.2, rfl, rfl⟩

/-! ## The checks (R250) -/

theorem failIf_eq_none {b : Bool} {c : Code} : failIf b c = none ↔ b = false := by
  cases b <;> simp [failIf]

theorem failIf_eq_some {b : Bool} {c d : Code} : failIf b c = some d ↔ b = true ∧ c = d := by
  cases b <;> simp [failIf]

/-- No check of a command raises a contract violation. -/
theorem instantiateCheck_ne_violation (e : Engine) (s : State) : instantiateCheck e s ≠ some .contractViolation := by
  intro h
  unfold instantiateCheck presenceCheck phaseCheck seedInputCheck strengthCheck at h
  simp [Option.or_eq_some_iff, failIf_eq_some] at h

theorem generateCheck_ne_violation (e : Engine) (ai : Bool) (s : State) :
    generateCheck e ai s ≠ some .contractViolation := by
  intro h
  unfold generateCheck presenceCheck phaseCheck requestCheck aiCheck at h
  simp [Option.or_eq_some_iff, failIf_eq_some] at h

theorem reseedCheck_ne_violation (e : Engine) (ai : Bool) (s : State) : reseedCheck e ai s ≠ some .contractViolation := by
  intro h
  unfold reseedCheck presenceCheck phaseCheck aiCheck at h
  simp [Option.or_eq_some_iff, failIf_eq_some] at h

end Sys2Proof.Machine
end

