-- ==== Sys2Proof/Laws/Checks.lean ====
section
/-! SUPPORT. The checks of the three commands as one conditional each, in the terms of Safety.lean (R246 to R250). -/

namespace Sys2Proof.Machine

theorem failIf_eq_ite {b : Bool} {p : Prop} [Decidable p] (h : b = true ↔ p) (c : Code) :
    failIf b c = if p then some c else none := by
  unfold failIf
  by_cases hp : p
  · rw [if_pos hp, if_pos (h.2 hp)]
  · rw [if_neg hp, if_neg (fun k => hp (h.1 k))]

/-- A check in front of others. -/
theorem or_check {p : Prop} [Decidable p] (c : Code) (x : Option Code) :
    (if p then some c else none).or x = if p then some c else x := by
  split <;> rfl

theorem presenceCheck_eq (e : Engine) (s : State) :
    presenceCheck e s = if hasEngine s.build e = false then some .illegalCommand else none :=
  failIf_eq_ite (by simp) _

theorem phaseCheck_eq (op : CmdOp) (p : Phase) :
    phaseCheck op p = if (op = .instantiate ↔ p ≠ .uninit) then some .illegalState else none := by
  cases op <;> cases p <;> rfl

theorem strengthCheck_eq (e : Engine) (s : State) :
    strengthCheck s.build e s.strengthOp =
      if ¬StrengthSupported e s then some .strengthNotSupported
      else if s.build.entropyBits < s.strengthOp then some .entropyUnderProvisioned
      else none := by
  unfold strengthCheck failIf exceeds StrengthSupported
  cases e <;> simp [fixedStrengthBound] <;> split_ifs <;> simp_all <;> omega

theorem seedInputCheck_eq (s : State) :
    seedInputCheck s = if ¬SeedInputsFit s then some .inputTooLarge else none := by
  unfold seedInputCheck failIf SeedInputsFit
  by_cases h : s.build.nonceCap < s.nonceLenOp ∨ s.build.persCap < s.persLenOp
  · rw [if_pos (by simpa using h), if_pos (by omega)]
  · rw [if_neg (by simpa using h), if_neg (by omega)]

theorem aiCheck_eq (e : Engine) (ai : Bool) (s : State) :
    aiCheck e ai s = if ¬InputFits e ai s then some .inputTooLarge else none := by
  unfold aiCheck failIf exceedsBits InputFits
  cases ai <;> cases e <;> simp [maxAiBits]
  split_ifs <;> first | rfl | omega

theorem requestCheck_eq (e : Engine) (s : State) :
    requestCheck e s = if ¬RequestFits e s then some .requestTooLarge else none := by
  unfold requestCheck failIf exceedsBits RequestFits
  cases e <;> simp [maxRequestBits] <;> split_ifs <;> simp_all <;> omega

theorem pastCeiling_iff (e : Engine) (s : State) : s.pastCeiling e = true ↔ ¬BelowCeiling e s := by
  unfold State.pastCeiling BelowCeiling
  cases e <;> simp only [reseedInterval, State.counter, State.blocksNeeded, reduceCtorEq, false_imp_iff, true_imp_iff,
    true_and, and_true, not_le] <;> exact decide_eq_true_iff

theorem instantiateCheck_eq (e : Engine) (s : State) :
    instantiateCheck e s =
      if hasEngine s.build e = false then some .illegalCommand
      else if s.p0 e ≠ .uninit then some .illegalState
      else if ¬SeedInputsFit s then some .inputTooLarge
      else if ¬StrengthSupported e s then some .strengthNotSupported
      else if s.build.entropyBits < s.strengthOp then some .entropyUnderProvisioned
      else none := by
  have hp : phaseCheck .instantiate (s.p0 e) = if s.p0 e ≠ .uninit then some .illegalState else none :=
    failIf_eq_ite (by simp) _
  rw [instantiateCheck, presenceCheck_eq, hp, seedInputCheck_eq, strengthCheck_eq, or_check, or_check, or_check]

theorem generateCheck_eq (e : Engine) (ai : Bool) (s : State) :
    generateCheck e ai s =
      if hasEngine s.build e = false then some .illegalCommand
      else if s.p0 e = .uninit then some .illegalState
      else if ¬RequestFits e s then some .requestTooLarge
      else if ¬InputFits e ai s then some .inputTooLarge
      else if ¬BelowCeiling e s then some .reseedRequired
      else none := by
  have hp : phaseCheck .generate (s.p0 e) = if s.p0 e = .uninit then some .illegalState else none :=
    failIf_eq_ite (by simp) _
  rw [generateCheck, presenceCheck_eq, hp, requestCheck_eq, aiCheck_eq, failIf_eq_ite (pastCeiling_iff e s), or_check,
    or_check, or_check, or_check]

theorem reseedCheck_eq (e : Engine) (ai : Bool) (s : State) :
    reseedCheck e ai s =
      if hasEngine s.build e = false then some .illegalCommand
      else if s.p0 e = .uninit then some .illegalState
      else if ¬InputFits e ai s then some .inputTooLarge
      else none := by
  have hp : phaseCheck .reseed (s.p0 e) = if s.p0 e = .uninit then some .illegalState else none :=
    failIf_eq_ite (by simp) _
  rw [reseedCheck, presenceCheck_eq, hp, aiCheck_eq, or_check, or_check]

theorem check_none {p : Prop} [Decidable p] {c : Code} {x : Option Code} :
    (if p then some c else x) = none ↔ ¬p ∧ x = none := by
  split <;> simp_all

/-- A command passes its checks exactly where it is ready. -/
theorem instantiateCheck_none (e : Engine) (s : State) : instantiateCheck e s = none ↔ InstantiateReady e s := by
  simp only [instantiateCheck_eq, check_none, InstantiateReady, not_not, and_true, Bool.not_eq_false, not_lt, ne_eq]

theorem generateCheck_none (e : Engine) (ai : Bool) (s : State) :
    generateCheck e ai s = none ↔ GenerateReady e ai s := by
  simp only [generateCheck_eq, check_none, GenerateReady, not_not, and_true, Bool.not_eq_false, ne_eq]

theorem reseedCheck_none (e : Engine) (ai : Bool) (s : State) : reseedCheck e ai s = none ↔ ReseedReady e ai s := by
  simp only [reseedCheck_eq, check_none, ReseedReady, not_not, and_true, Bool.not_eq_false, ne_eq]

end Sys2Proof.Machine
end

