-- ==== Sys2Proof/Laws/Units.lean ====
section
/-! SUPPORT. What the derivation functions and the engines' working-state updates can do: on a legal build no
precondition of theirs fails (R106, R277), and every result has its stated length (R25 (c), R66). -/

namespace Sys2Proof.Machine

/-! ## The port -/

@[simp] theorem portEncrypt_length (p : Prims) (c : CtrCipher) (k b : Bytes) :
    (portEncrypt p c k b).length = ctrBlockBytes c := by simp [portEncrypt]

@[simp] theorem portHash_length (p : Prims) (h : HashDigest) (m : Bytes) : (portHash p h m).length = h.digestSize := by
  simp [portHash]

@[simp] theorem portDualecHash_length (p : Prims) (d : DualEcDigest) (m : Bytes) :
    (portDualecHash p d m).length = d.digestSize := by simp [portDualecHash]

@[simp] theorem portMac_length (p : Prims) (h : HmacMac) (k m : Bytes) : (portMac p h k m).length = h.macSize := by
  simp [portMac]

@[simp] theorem portExpandKey_length (p : Prims) (k : Bytes) : (portExpandKey p k).length = 24 := by
  simp [portExpandKey]

/-- What `ECMulX` answers is below the field prime (R66). -/
theorem portEcMulX_lt {p : Prims} {row : Row} {c : Curve} {pt : Point} {o k x : Nat}
    (h : portEcMulX p row c pt o k = some x) (hp : 0 < c.prime) : x < c.prime := by
  unfold portEcMulX at h
  split at h
  · cases h
  · obtain rfl := Option.some.inj h
    exact Nat.mod_lt _ hp

/-! ## Legal descriptors -/

/-- What a legal cipher descriptor guarantees (R6, R7, R123, R277). -/
structure CipherFacts (c : CtrCipher) : Prop where
  block   : 4 ≤ ctrBlockBytes c
  key     : ctrKeyBytes c ≤ 32
  whole   : ctrSeedlen c % 8 = 0
  seed    : ctrSeedBytes c = ctrKeyBytes c + ctrBlockBytes c
  seedDiv : ctrSeedlen c / 8 = ctrSeedBytes c
  takes   : c.isTdea = true → c.expandTakes = ctrKeyBytes c

theorem cipherFacts {c : CtrCipher} (h : ctrLegal c = true) : CipherFacts c := by
  simp only [ctrLegal, Bool.and_eq_true, beq_iff_eq, decide_eq_true_eq, Bool.or_eq_true,
    Bool.not_eq_true'] at h
  obtain ⟨⟨⟨⟨h1, h2⟩, h3⟩, h4⟩, h5⟩ := h
  refine ⟨?_, ?_, ?_, ?_, ?_, ?_⟩
  · unfold ctrBlockBytes; omega
  · unfold ctrKeyBytes ceilDiv; omega
  · unfold ctrSeedlen; omega
  · unfold ctrSeedBytes ctrSeedlen ctrKeyBytes ctrBlockBytes ceilDiv; omega
  · unfold ctrSeedBytes ctrSeedlen ceilDiv; omega
  · intro ht
    rcases h5 with h5 | h5
    · rw [ht] at h5; cases h5
    · exact h5.2

theorem buildLegal_ctr {b : Build} (h : buildLegal b = true) : ctrLegal b.ctr = true := by
  simp only [buildLegal, Bool.and_eq_true] at h
  exact h.1.1.1.1.1.1.1

theorem buildLegal_hash {b : Build} (h : buildLegal b = true) : hashLegal b.hash = true := by
  simp only [buildLegal, Bool.and_eq_true] at h
  exact h.1.1.1.1.1.1.2

theorem buildLegal_curve {b : Build} (h : buildLegal b = true) (r : Row) :
    0 < (curveOf b r).outlen ∧ curveSeedBytes (curveOf b r) < 255 * b.dualec.digestSize := by
  simp only [buildLegal, Bool.and_eq_true, curveLegal, beq_iff_eq, decide_eq_true_eq] at h
  cases r
  · exact ⟨by show 0 < b.p256.outlen; omega, h.1.1.1.1.2.1.2⟩
  · exact ⟨by show 0 < b.p384.outlen; omega, h.1.1.1.2.1.2⟩
  · exact ⟨by show 0 < b.p521.outlen; omega, h.1.1.2.1.2⟩

/-- The field prime of a legal row (R24, R219 (f)). -/
theorem buildLegal_prime {b : Build} (h : buildLegal b = true) (r : Row) :
    0 < (curveOf b r).prime ∧ (curveOf b r).prime < 2 ^ (curveOf b r).seedlen := by
  simp only [buildLegal, Bool.and_eq_true, curveLegal, pointBelow, decide_eq_true_eq] at h
  cases r
  · exact ⟨lt_of_le_of_lt (Nat.zero_le _) h.1.1.1.1.2.2.2.1, h.1.1.1.1.2.2.1.1⟩
  · exact ⟨lt_of_le_of_lt (Nat.zero_le _) h.1.1.1.2.2.2.1, h.1.1.1.2.2.1.1⟩
  · exact ⟨lt_of_le_of_lt (Nat.zero_le _) h.1.1.2.2.2.1, h.1.1.2.2.1.1⟩

theorem elaborated_legal : buildLegal elaborated = true := by
  unfold elaborated
  split
  · assumption
  · decide +kernel

/-! ## The cipher -/

/-- A key that `EXPAND_KEY` takes (R140). -/
def KeyTaken (c : CtrCipher) (key : Bytes) : Prop := c.isTdea = true → key.length = c.expandTakes

theorem KeyTaken.of_length {c : CtrCipher} (h : ctrLegal c = true) {key : Bytes} (hk : key.length = ctrKeyBytes c) :
    KeyTaken c key := fun ht => by rw [hk, (cipherFacts h).takes ht]

/-- What `EXPAND_KEY` can do (R140). -/
theorem expandKeyFor_cases (p : Prims) (c : CtrCipher) (key : Bytes) :
    (c.isTdea = false ∧ expandKeyFor p c key = some key) ∨
    (c.isTdea = true ∧ key.length = c.expandTakes ∧ expandKeyFor p c key = some (portExpandKey p key)) ∨
    (c.isTdea = true ∧ key.length ≠ c.expandTakes ∧ expandKeyFor p c key = none) := by
  cases h : c.isTdea with
  | false => exact .inl ⟨rfl, by simp [expandKeyFor, h]⟩
  | true =>
    by_cases hl : key.length = c.expandTakes
    · exact .inr (.inl ⟨rfl, hl, by simp [expandKeyFor, h, hl]⟩)
    · exact .inr (.inr ⟨rfl, hl, by simp [expandKeyFor, h, hl]⟩)

theorem encryptWith_some {p : Prims} {c : CtrCipher} {key : Bytes} (hk : KeyTaken c key) (b : Bytes) :
    ∃ y, encryptWith p c key b = some y ∧ y.length = ctrBlockBytes c := by
  unfold encryptWith
  rcases expandKeyFor_cases p c key with ⟨-, h⟩ | ⟨-, -, h⟩ | ⟨ht, hl, -⟩
  · exact ⟨_, by rw [h]; rfl, by simp⟩
  · exact ⟨_, by rw [h]; rfl, by simp⟩
  · exact absurd (hk ht) hl

theorem encryptWith_length {p : Prims} {c : CtrCipher} {key b y : Bytes} (h : encryptWith p c key b = some y) :
    y.length = ctrBlockBytes c := by
  unfold encryptWith at h
  obtain ⟨k, -, rfl⟩ := Option.map_eq_some_iff.1 h
  simp

theorem xorBytes_some {n : Nat} {a b : Bytes} {off : Nat} (ha : n ≤ a.length) (hb : n + off ≤ b.length) :
    ∃ r, xorBytes n a b off = some r ∧ r.length = n := by
  cases h : xorBytes n a b off with
  | none => exact absurd ⟨ha, hb⟩ ((xorBytes_eq_none_iff ..).1 h)
  | some r => exact ⟨r, rfl, xorBytes_length h⟩

/-! ## BCC and block_cipher_df -/

theorem bccLoop_some {p : Prims} {c : CtrCipher} {key : Bytes} (hk : KeyTaken c key) (data : Bytes) (n : Nat) :
    ∀ (i : Nat) (chain : Bytes), chain.length = ctrBlockBytes c → (i + n) * ctrBlockBytes c ≤ data.length →
      ∃ y, bccLoop p c key data i chain n = some y ∧ y.length = ctrBlockBytes c := by
  induction n with
  | zero => intro i chain hc _; exact ⟨chain, rfl, hc⟩
  | succ n ih =>
    intro i chain hc hd
    have hd1 : ctrBlockBytes c + i * ctrBlockBytes c ≤ data.length := by
      have : (i + (n + 1)) * ctrBlockBytes c = ctrBlockBytes c + i * ctrBlockBytes c + n * ctrBlockBytes c := by ring
      omega
    obtain ⟨x, hx, -⟩ := xorBytes_some (n := ctrBlockBytes c) (a := chain) (b := data)
      (off := i * ctrBlockBytes c) hc.ge hd1
    obtain ⟨y, hy, hyl⟩ := encryptWith_some (p := p) hk x
    obtain ⟨z, hz, hzl⟩ := ih (i + 1) y hyl (by
      have : (i + 1 + n) * ctrBlockBytes c = (i + (n + 1)) * ctrBlockBytes c := by ring
      omega)
    exact ⟨z, by simp only [bccLoop, hx, hy, hz], hzl⟩

/-- `BCC` runs on whole blocks and answers one block (R122). -/
theorem bccOf_some {p : Prims} {c : CtrCipher} {key data : Bytes} (hk : KeyTaken c key)
    (hd : data.length % ctrBlockBytes c = 0) : ∃ y, bccOf p c key data = some y ∧ y.length = ctrBlockBytes c := by
  unfold bccOf
  rw [if_pos hd]
  exact bccLoop_some hk data _ 0 _ (by simp) (by
    rw [Nat.zero_add]; exact Nat.div_mul_le_self _ _)

theorem bccOf_none {p : Prims} {c : CtrCipher} {key data : Bytes} (hd : data.length % ctrBlockBytes c ≠ 0) :
    bccOf p c key data = none := by unfold bccOf; rw [if_neg hd]

/-- `S` fills whole blocks (R123). -/
theorem dfString_whole {c : CtrCipher} (hb : 0 < ctrBlockBytes c) (input : Bytes) (n : Nat) :
    (dfString c input n).length % ctrBlockBytes c = 0 := by
  have e : (dfString c input n).length =
      input.length + 9 + (ctrBlockBytes c - (input.length + 9) % ctrBlockBytes c) % ctrBlockBytes c := by
    simp [dfString]; omega
  rw [e]
  generalize input.length + 9 = L
  generalize ctrBlockBytes c = B at *
  have hlt := Nat.mod_lt L hb
  rcases Nat.eq_zero_or_pos (L % B) with h0 | hp
  · rw [h0, Nat.sub_zero, Nat.mod_self, Nat.add_zero, h0]
  · rw [Nat.mod_eq_of_lt (show B - L % B < B by omega), Nat.add_mod, Nat.mod_eq_of_lt (show B - L % B < B by omega),
      show L % B + (B - L % B) = B by omega, Nat.mod_self]

theorem dfKey_length {c : CtrCipher} (h : ctrKeyBytes c ≤ 32) : (dfKey c).length = ctrKeyBytes c := by
  simp [dfKey]; omega

theorem dfBlocks_some {p : Prims} {c : CtrCipher} (h : ctrLegal c = true) (str : Bytes)
    (hs : str.length % ctrBlockBytes c = 0) (n : Nat) :
    ∀ i, ∃ y, dfBlocks p c str i n = some y ∧ y.length = n * ctrBlockBytes c := by
  have f := cipherFacts h
  induction n with
  | zero => intro i; exact ⟨[], rfl, by simp⟩
  | succ n ih =>
    intro i
    have hl : (toBE 4 i ++ zeros (ctrBlockBytes c - 4) ++ str).length % ctrBlockBytes c = 0 := by
      have : (toBE 4 i ++ zeros (ctrBlockBytes c - 4) ++ str).length = ctrBlockBytes c + str.length := by
        have := f.block
        simp; omega
      rw [this, Nat.add_mod_left, hs]
    obtain ⟨x, hx, hxl⟩ := bccOf_some (p := p) (KeyTaken.of_length h (dfKey_length f.key)) hl
    obtain ⟨y, hy, hyl⟩ := ih (i + 1)
    exact ⟨x ++ y, by simp only [dfBlocks, hx, hy, Option.map_some], by simp [hxl, hyl]; ring⟩

theorem feedback_some {p : Prims} {c : CtrCipher} {key : Bytes} (hk : KeyTaken c key) (n : Nat) :
    ∀ x, ∃ y, feedback p c key x n = some y ∧ y.length = n * ctrBlockBytes c := by
  induction n with
  | zero => intro x; exact ⟨[], rfl, by simp⟩
  | succ n ih =>
    intro x
    obtain ⟨y, hy, hyl⟩ := encryptWith_some (p := p) hk x
    obtain ⟨z, hz, hzl⟩ := ih y
    exact ⟨y ++ z, by simp [feedback, hy, hz], by simp [hyl, hzl]; ring⟩

/-- `BLOCK_CIPHER_DF` runs on a legal cipher and answers exactly the bytes asked for (R123, R124). -/
theorem blockCipherDf_some {p : Prims} {c : CtrCipher} (h : ctrLegal c = true) (input : Bytes) {bits : Nat}
    (hb : bits % 8 = 0) : ∃ r, blockCipherDf p c input bits = some r ∧ r.length = bits / 8 := by
  have f := cipherFacts h
  have hB : 0 < ctrBlockBytes c := by have := f.block; omega
  unfold blockCipherDf
  rw [if_pos ⟨hb, f.block, f.key⟩]
  obtain ⟨temp, ht, htl⟩ := dfBlocks_some (p := p) h (dfString c input (bits / 8)) (dfString_whole hB ..)
    (ceilDiv (ctrKeyBytes c + ctrBlockBytes c) (ctrBlockBytes c)) 0
  have hge := ceilDiv_mul_ge (ctrKeyBytes c + ctrBlockBytes c) (ctrBlockBytes c) hB
  have hkl : (temp.take (ctrKeyBytes c)).length = ctrKeyBytes c := by
    rw [List.length_take, htl]; omega
  obtain ⟨out, ho, hol⟩ := feedback_some (p := p) (KeyTaken.of_length h hkl)
    (ceilDiv (bits / 8) (ctrBlockBytes c)) ((temp.drop (ctrKeyBytes c)).take (ctrBlockBytes c))
  have hge2 := ceilDiv_mul_ge (bits / 8) (ctrBlockBytes c) hB
  refine ⟨out.take (bits / 8), by simp only [ht, ho, Option.map_some], ?_⟩
  rw [List.length_take, hol]; omega

/-! ## The CTR engine -/

theorem keystream_some {p : Prims} {c : CtrCipher} {key : Bytes} (hk : KeyTaken c key) (n : Nat) :
    ∀ v, ∃ r, keystream p c key v n = some r ∧ r.1.length = v.length ∧ r.2.length = n * ctrBlockBytes c := by
  induction n with
  | zero => intro v; exact ⟨(v, []), rfl, rfl, by simp⟩
  | succ n ih =>
    intro v
    obtain ⟨y, hy, hyl⟩ := encryptWith_some (p := p) hk (incBE v)
    obtain ⟨r, hr, h1, h2⟩ := ih (incBE v)
    exact ⟨(r.1, y ++ r.2), by simp [keystream, hy, hr], by simpa using h1, by simp [hyl, h2]; ring⟩

/-- `CTR_UPDATE` runs on a seed of the right length, and `key` and `v` keep their widths (R141). -/
theorem ctrUpdateOf_some {p : Prims} {c : CtrCipher} (h : ctrLegal c = true) {key v seed : Bytes}
    (hk : key.length = ctrKeyBytes c) (hs : seed.length = ctrSeedBytes c) :
    ∃ kv, ctrUpdateOf p c key v seed = some kv ∧ kv.1.length = ctrKeyBytes c ∧ kv.2.length = ctrBlockBytes c := by
  have f := cipherFacts h
  unfold ctrUpdateOf
  rw [if_pos hs]
  obtain ⟨r, hr, -, h2⟩ := keystream_some (p := p) (KeyTaken.of_length h hk)
    (ceilDiv (ctrSeedBytes c) (ctrBlockBytes c)) v
  have hge := ceilDiv_mul_ge (ctrSeedBytes c) (ctrBlockBytes c) (by have := f.block; omega)
  obtain ⟨x, hx, hxl⟩ := xorBytes_some (n := ctrSeedBytes c) (a := r.2.take (ctrSeedBytes c)) (b := seed) (off := 0)
    (by rw [List.length_take, h2]; omega) (by omega)
  have hseed := f.seed
  exact ⟨(x.take (ctrKeyBytes c), (x.drop (ctrKeyBytes c)).take (ctrBlockBytes c)),
    by simp only [hr, hx, Option.map_some], by simp [hxl]; omega, by simp [hxl]; omega⟩

theorem ctrUpdateOf_none {p : Prims} {c : CtrCipher} {key v seed : Bytes} (hs : seed.length ≠ ctrSeedBytes c) :
    ctrUpdateOf p c key v seed = none := by unfold ctrUpdateOf; rw [if_neg hs]

/-- The widths of the CTR engine's registers. -/
def CtrWidths (c : CtrCipher) (r : CtrRegs) : Prop := r.key.length = ctrKeyBytes c ∧ r.v.length = ctrBlockBytes c

theorem ctrFold_some {p : Prims} {c : CtrCipher} (h : ctrLegal c = true) {r : CtrRegs} {seed : Bytes}
    (hr : r.key.length = ctrKeyBytes c) (hs : seed.length = ctrSeedBytes c) :
    ∃ r', ctrFold p c r seed = some r' ∧ CtrWidths c r' ∧ r'.reseedCounter = r.reseedCounter := by
  obtain ⟨kv, hkv, h1, h2⟩ := ctrUpdateOf_some (p := p) h (v := r.v) hr hs
  exact ⟨{ r with key := kv.1, v := kv.2 }, by unfold ctrFold; rw [hkv]; rfl, ⟨h1, h2⟩, rfl⟩

theorem ctrSeed_some {p : Prims} {c : CtrCipher} (h : ctrLegal c = true) (m : Bytes) :
    ∃ r, ctrSeed p c m = some r ∧ CtrWidths c r ∧ r.reseedCounter = 1 := by
  have f := cipherFacts h
  obtain ⟨seed, hs, hl⟩ := blockCipherDf_some (p := p) h m f.whole
  obtain ⟨r, hr, hw, hc⟩ := ctrFold_some (p := p) h (r := ⟨zeros (ctrKeyBytes c), zeros (ctrBlockBytes c), 1⟩)
    (seed := seed) (by simp) (by rw [hl, f.seedDiv])
  exact ⟨r, by unfold ctrSeed; rw [hs]; exact hr, hw, hc⟩

theorem ctrReseedOf_some {p : Prims} {c : CtrCipher} (h : ctrLegal c = true) {r : CtrRegs} (hr : CtrWidths c r)
    (e a : Bytes) : ∃ r', ctrReseedOf p c r e a = some r' ∧ CtrWidths c r' ∧ r'.reseedCounter = 1 := by
  have f := cipherFacts h
  obtain ⟨seed, hs, hl⟩ := blockCipherDf_some (p := p) h (e ++ a) f.whole
  obtain ⟨r', hr', hw, hc⟩ := ctrFold_some (p := p) h (r := { r with reseedCounter := 1 })
    (seed := seed) hr.1 (by rw [hl, f.seedDiv])
  exact ⟨r', by unfold ctrReseedOf; rw [hs]; exact hr', hw, hc⟩

theorem ctrAbsorb_some {p : Prims} {c : CtrCipher} (h : ctrLegal c = true) {r : CtrRegs} (hr : CtrWidths c r)
    (a : Option Bytes) : ∃ r' seed, ctrAbsorb p c r a = some (r', seed) ∧ CtrWidths c r' ∧
      r'.reseedCounter = r.reseedCounter ∧ seed.length = ctrSeedBytes c := by
  have f := cipherFacts h
  cases a with
  | none => exact ⟨r, _, rfl, hr, rfl, by simp⟩
  | some a =>
    obtain ⟨seed, hs, hl⟩ := blockCipherDf_some (p := p) h a f.whole
    rw [f.seedDiv] at hl
    obtain ⟨r', hr', hw, hc⟩ := ctrFold_some (p := p) h (r := r) hr.1 hl
    exact ⟨r', seed, by simp [ctrAbsorb, hs, hr'], hw, hc, hl⟩

theorem ctrProduce_some {p : Prims} {c : CtrCipher} (h : ctrLegal c = true) {r : CtrRegs} (hr : CtrWidths c r)
    (a : Option Bytes) (n : Nat) : ∃ r' out, ctrProduce p c r a n = some (r', out) ∧ CtrWidths c r' ∧
      r'.reseedCounter = r.reseedCounter + 1 ∧ n ≤ out.length := by
  have f := cipherFacts h
  obtain ⟨r1, seed, h1, hw1, hc1, hs⟩ := ctrAbsorb_some (p := p) h hr a
  obtain ⟨⟨v, out⟩, hv, hvl, hol⟩ := keystream_some (p := p) (KeyTaken.of_length h hw1.1)
    (ceilDiv n (ctrBlockBytes c)) r1.v
  obtain ⟨r2, h2, hw2, hc2⟩ := ctrFold_some (p := p) h (r := { r1 with v := v }) (seed := seed) hw1.1 hs
  refine ⟨{ r2 with reseedCounter := r2.reseedCounter + 1 }, out,
    by simp only [ctrProduce, h1, hv, h2, Option.map_some], hw2, ?_, ?_⟩
  · show r2.reseedCounter + 1 = _
    rw [hc2]; show r1.reseedCounter + 1 = _; rw [hc1]
  · have := ceilDiv_mul_ge n (ctrBlockBytes c) (by have := f.block; omega)
    simp only at hol
    omega

/-! ## hash_df -/

theorem dfHashes_length {hash : Bytes → Bytes} {size : Nat} (hh : ∀ m, (hash m).length = size) (bits : Nat)
    (m : Bytes) (n : Nat) : ∀ i, (dfHashes hash bits m i n).length = n * size := by
  induction n with
  | zero => intro i; simp [dfHashes]
  | succ n ih => intro i; simp [dfHashes, hh, ih]; ring

/-- `HASH_DF` runs where its one-byte counter suffices, answers `ceil(out_bit_len / 8)` bytes, and its value
has at most `out_bit_len` bits (R120, R121). -/
theorem hashDf_some {hash : Bytes → Bytes} {size : Nat} (hh : ∀ m, (hash m).length = size) (m : Bytes) {bits : Nat}
    (hn : ceilDiv bits 8 < 255 * size) :
    ∃ r, hashDf hash size m bits = some r ∧ r.length = ceilDiv bits 8 ∧ be r < 2 ^ bits := by
  have hsz : 0 < size := by
    rcases Nat.eq_zero_or_pos size with h | h
    · subst h; simp at hn
    · exact h
  have hdiv : ceilDiv bits 8 / size + 1 ≤ 255 := by
    have := (Nat.div_lt_iff_lt_mul hsz).2 hn
    omega
  have hlen : ((dfHashes hash bits m 1 (ceilDiv bits 8 / size + 1)).take (ceilDiv bits 8)).length = ceilDiv bits 8 := by
    rw [List.length_take, dfHashes_length hh]
    have := Nat.lt_div_mul_add (a := ceilDiv bits 8) hsz
    have e : (ceilDiv bits 8 / size + 1) * size = ceilDiv bits 8 / size * size + size := by ring
    omega
  unfold hashDf
  rw [if_pos hdiv]
  generalize (dfHashes hash bits m 1 (ceilDiv bits 8 / size + 1)).take (ceilDiv bits 8) = t at *
  have hb := be_lt t
  have h256 : (256 : Nat) = 2 ^ 8 := by norm_num
  rw [hlen, h256, ← pow_mul] at hb
  split
  · rename_i h8
    refine ⟨t, rfl, hlen, ?_⟩
    have : 8 * ceilDiv bits 8 = bits := by unfold ceilDiv; omega
    rwa [this] at hb
  · rename_i h8
    rcases shrBytes_cases t (8 - bits % 8) with ⟨-, -, r, hr, hrl, hv⟩ | ⟨hno, -⟩
    · refine ⟨r, hr, by rw [hrl, hlen], ?_⟩
      rw [hv]
      have e : 8 * ceilDiv bits 8 = bits + (8 - bits % 8) := by unfold ceilDiv; omega
      rw [e, pow_add] at hb
      exact Nat.div_lt_of_lt_mul (by rwa [Nat.mul_comm] at hb)
    · exact absurd ⟨by omega, by omega⟩ hno

/-! ## The Hash engine -/

/-- What a legal digest descriptor guarantees (R8, R108, R277). -/
structure HashFacts (h : HashDigest) : Prop where
  digest : h.digestSize ≤ hashSeedBytes h
  cover  : ceilDiv h.seedlen 8 < 255 * h.digestSize
  four   : 4 ≤ hashSeedBytes h
  pos    : 0 < h.digestSize

theorem hashFacts {h : HashDigest} (hl : hashLegal h = true) : HashFacts h := by
  simp only [hashLegal, Bool.and_eq_true, beq_iff_eq, decide_eq_true_eq, Bool.or_eq_true] at hl
  obtain ⟨⟨h1, h2⟩, h3⟩ := hl
  refine ⟨h2, h3, ?_, by omega⟩
  unfold hashSeedBytes ceilDiv; omega

/-- The widths of the Hash engine's registers. -/
def HashWidths (h : HashDigest) (r : HashRegs) : Prop := r.v.length = hashSeedBytes h ∧ r.c.length = hashSeedBytes h

theorem hashFromSeed_some {p : Prims} {h : HashDigest} (hl : hashLegal h = true) (m : Bytes) :
    ∃ r, hashFromSeed p h m = some r ∧ HashWidths h r ∧ r.reseedCounter = 1 := by
  have f := hashFacts hl
  obtain ⟨v, hv, hvl, -⟩ := hashDf_some (portHash_length p h) m f.cover
  obtain ⟨c, hc, hcl, -⟩ := hashDf_some (portHash_length p h) ([0x00] ++ v) f.cover
  exact ⟨⟨v, c, 1⟩, by unfold hashFromSeed; rw [hv]; simp only [Option.bind_some, hc, Option.map_some], ⟨hvl, hcl⟩, rfl⟩

theorem hashAbsorb_some {p : Prims} {h : HashDigest} (hl : hashLegal h = true) {v : Bytes}
    (hv : v.length = hashSeedBytes h) (a : Option Bytes) :
    ∃ r, hashAbsorb p h v a = some r ∧ r.length = hashSeedBytes h := by
  cases a with
  | none => exact ⟨v, rfl, hv⟩
  | some a =>
    obtain ⟨r, hr, hrl⟩ := addBE_some (l := v) (s := portHash p h ([0x02] ++ v ++ a))
      (by rw [portHash_length, hv]; exact (hashFacts hl).digest)
    exact ⟨r, hr, by rw [hrl, hv]⟩

theorem hashAdvance_some {p : Prims} {h : HashDigest} (hl : hashLegal h = true) {v c : Bytes}
    (hv : v.length = hashSeedBytes h) (hc : c.length = hashSeedBytes h) (n : BitVec 64) :
    ∃ r, hashAdvance p h v c n = some r ∧ r.length = hashSeedBytes h := by
  have f := hashFacts hl
  obtain ⟨r1, h1, l1⟩ := addBE_some (l := v) (s := portHash p h ([0x03] ++ v))
    (by rw [portHash_length, hv]; exact f.digest)
  obtain ⟨r2, h2, l2⟩ := addBE_some (l := r1) (s := c) (by rw [l1, hv, hc])
  obtain ⟨r3, h3, l3⟩ := addBE_some (l := r2) (s := toBE 4 n.toNat) (by rw [toBE_length, l2, l1, hv]; exact f.four)
  exact ⟨r3, by unfold hashAdvance; rw [h1]; simp only [Option.bind_some, h2, h3], by rw [l3, l2, l1, hv]⟩

theorem hashBlocks_length {hash : Bytes → Bytes} {size : Nat} (hh : ∀ m, (hash m).length = size) (n : Nat) :
    ∀ d, (hashBlocks hash d n).length = n * size := by
  induction n with
  | zero => intro d; simp [hashBlocks]
  | succ n ih => intro d; simp [hashBlocks, hh, ih]; ring

/-- `HASHGEN` answers exactly the bytes asked for (R170). -/
theorem hashgenOf_length {hash : Bytes → Bytes} {size : Nat} (hh : ∀ m, (hash m).length = size) (hs : 0 < size)
    (v : Bytes) (n : Nat) : (hashgenOf hash size v n).length = n := by
  have := ceilDiv_mul_ge n size hs
  unfold hashgenOf
  rw [List.length_take, hashBlocks_length hh]; omega

theorem hashProduce_some {p : Prims} {h : HashDigest} (hl : hashLegal h = true) {r : HashRegs} (hr : HashWidths h r)
    (a : Option Bytes) (n : Nat) : ∃ r' out, hashProduce p h r a n = some (r', out) ∧ HashWidths h r' ∧
      r'.reseedCounter = r.reseedCounter + 1 ∧ out.length = n ∧ r'.c = r.c := by
  obtain ⟨v1, h1, l1⟩ := hashAbsorb_some (p := p) hl hr.1 a
  obtain ⟨v2, h2, l2⟩ := hashAdvance_some (p := p) hl l1 hr.2 r.reseedCounter
  exact ⟨{ r with v := v2, reseedCounter := r.reseedCounter + 1 }, hashgenOf (portHash p h) h.digestSize v1 n,
    by unfold hashProduce; rw [h1]; simp only [Option.bind_some, h2, Option.map_some], ⟨l2, hr.2⟩,
    rfl, hashgenOf_length (portHash_length p h) (hashFacts hl).pos _ _, rfl⟩

/-! ## The HMAC engine -/

/-- The widths of the HMAC engine's registers. -/
def HmacWidths (h : HmacMac) (r : HmacRegs) : Prop := r.k.length = h.macSize ∧ r.v.length = h.macSize

theorem hmacPassOf_facts (p : Prims) (h : HmacMac) (r : HmacRegs) (b : Bool) (m : Option Bytes) :
    HmacWidths h (hmacPassOf p h r b m) ∧ (hmacPassOf p h r b m).reseedCounter = r.reseedCounter :=
  ⟨⟨by simp [hmacPassOf], by simp [hmacPassOf]⟩, rfl⟩

theorem hmacUpdateOf_facts (p : Prims) (h : HmacMac) (r : HmacRegs) (m : Option Bytes) :
    HmacWidths h (hmacUpdateOf p h r m) ∧ (hmacUpdateOf p h r m).reseedCounter = r.reseedCounter := by
  unfold hmacUpdateOf
  split
  · exact ⟨(hmacPassOf_facts ..).1, rfl⟩
  · exact hmacPassOf_facts ..

theorem hmacBlocks_length (p : Prims) (h : HmacMac) (k : Bytes) (n : Nat) :
    ∀ v, (hmacBlocks p h k v n).2.length = n * h.macSize := by
  induction n with
  | zero => intro v; simp [hmacBlocks]
  | succ n ih => intro v; simp [hmacBlocks, ih]; ring

theorem hmacProduce_facts (p : Prims) (h : HmacMac) (hm : 0 < h.macSize) (r : HmacRegs) (a : Option Bytes) (n : Nat) :
    HmacWidths h (hmacProduce p h r a n).1 ∧ (hmacProduce p h r a n).1.reseedCounter = r.reseedCounter + 1 ∧
      n ≤ (hmacProduce p h r a n).2.length := by
  have hc : (hmacAbsorb p h r a).reseedCounter = r.reseedCounter := by
    unfold hmacAbsorb; split
    · exact (hmacUpdateOf_facts ..).2
    · rfl
  refine ⟨(hmacUpdateOf_facts ..).1, ?_, ?_⟩
  · show (hmacUpdateOf p h _ a).reseedCounter + 1 = _
    rw [(hmacUpdateOf_facts ..).2]
    show (hmacAbsorb p h r a).reseedCounter + 1 = _
    rw [hc]
  · show n ≤ (hmacBlocks p h _ _ _).2.length
    rw [hmacBlocks_length]
    exact ceilDiv_mul_ge n h.macSize hm

/-! ## The Dual-EC engine -/

/-- The width and the range of the Dual-EC engine's `s` (R24). -/
def DualecWidths (b : Build) (r : DualecRegs) : Prop :=
  r.s.length = curveSeedBytes (curveOf b r.row) ∧ be r.s < 2 ^ (curveOf b r.row).seedlen

theorem dualecDf_some {p : Prims} {b : Build} (hb : buildLegal b = true) (r : Row) (m : Bytes) :
    ∃ s, dualecDf p b (curveOf b r) m = some s ∧ s.length = curveSeedBytes (curveOf b r) ∧
      be s < 2 ^ (curveOf b r).seedlen :=
  hashDf_some (portDualecHash_length p b.dualec) m (buildLegal_curve hb r).2

theorem dualecSeed_some {p : Prims} {b : Build} (hb : buildLegal b = true) (n : Nat) (m : Bytes) :
    ∃ r, dualecSeed p b n m = some r ∧ DualecWidths b r ∧ r.reseedCounter = 0 ∧ r.row = rowFor n := by
  obtain ⟨s, hs, hl, hv⟩ := dualecDf_some (p := p) hb (rowFor n) m
  exact ⟨⟨s, rowFor n, 0⟩, by simp [dualecSeed, hs], ⟨hl, hv⟩, rfl, rfl⟩

/-- `PAD8` never fails (R210). -/
theorem pad8Of_some (n : Nat) (s : Bytes) : ∃ r, pad8Of n s = some r ∧ r.length = s.length := by
  unfold pad8Of
  split
  · exact ⟨s, rfl, rfl⟩
  · rcases shlBytes_cases s (8 - n % 8) with ⟨-, -, r, hr, hl, -⟩ | ⟨hno, -⟩
    · exact ⟨r, hr, hl⟩
    · exact absurd ⟨by omega, by omega⟩ hno

theorem dualecReseedOf_some {p : Prims} {b : Build} (hb : buildLegal b = true) (r : DualecRegs) (e a : Bytes) :
    ∃ r', dualecReseedOf p b r e a = some r' ∧ DualecWidths b r' ∧ r'.reseedCounter = 0 ∧ r'.row = r.row := by
  obtain ⟨t, ht, -⟩ := pad8Of_some (curveOf b r.row).seedlen r.s
  obtain ⟨s, hs, hl, hv⟩ := dualecDf_some (p := p) hb r.row (t ++ e ++ a)
  exact ⟨{ r with s := s, reseedCounter := 0 },
    by unfold dualecReseedOf; rw [ht]; simp only [Option.bind_some, hs, Option.map_some], ⟨hl, hv⟩, rfl, rfl⟩

theorem dualecAbsorb_some {p : Prims} {b : Build} (hb : buildLegal b = true) {r : DualecRegs}
    (hr : r.s.length = curveSeedBytes (curveOf b r.row)) (a : Option Bytes) :
    ∃ t, dualecAbsorb p b r a = some t := by
  cases a with
  | none => exact ⟨_, rfl⟩
  | some a =>
    obtain ⟨d, hd, hl, -⟩ := dualecDf_some (p := p) hb r.row a
    obtain ⟨x, hx, -⟩ := xorBytes_some (n := curveSeedBytes (curveOf b r.row)) (a := r.s) (b := d) (off := 0)
      hr.ge (by omega)
    exact ⟨be x, by simp [dualecAbsorb, hd, hx]⟩

theorem dualecBlocks_length {p : Prims} {row : Row} {c : Curve} (n : Nat) :
    ∀ {sv : Nat} {r : Nat × Bytes}, dualecBlocks p row c sv n = some r → r.2.length = n * c.outlen := by
  induction n with
  | zero => intro sv r h; obtain rfl := Option.some.inj h; simp
  | succ n ih =>
    intro sv r h
    unfold dualecBlocks at h
    split at h
    · cases h
    · split at h
      · cases h
      · obtain ⟨r', hr', rfl⟩ := Option.map_eq_some_iff.1 h
        simp [ih hr']; ring

theorem dualecProduce_facts {p : Prims} {b : Build} (hb : buildLegal b = true) {r : DualecRegs} {a : Option Bytes}
    {n : Nat} {x : DualecRegs × Bytes} (h : dualecProduce p b r a n = some x) :
    DualecWidths b x.1 ∧ x.1.row = r.row ∧ n ≤ x.2.length ∧
      x.1.reseedCounter = r.reseedCounter + BitVec.ofNat 64 (ceilDiv n (curveOf b r.row).outlen) := by
  unfold dualecProduce at h
  obtain ⟨t, -, h⟩ := Option.bind_eq_some_iff.1 h
  obtain ⟨bl, hbl, h⟩ := Option.bind_eq_some_iff.1 h
  obtain ⟨sv, hsv, rfl⟩ := Option.map_eq_some_iff.1 h
  have hprime := buildLegal_prime hb r.row
  have hlt := (portEcMulX_lt hsv hprime.1).trans hprime.2
  have h256 : 2 ^ (curveOf b r.row).seedlen ≤ 256 ^ curveSeedBytes (curveOf b r.row) := by
    rw [show (256 : Nat) = 2 ^ 8 by norm_num, ← pow_mul]
    exact Nat.pow_le_pow_right (by norm_num) (by unfold curveSeedBytes ceilDiv; omega)
  refine ⟨⟨by simp, ?_⟩, rfl, ?_, rfl⟩
  · show be (toBE _ sv) < _
    rw [be_toBE]
    exact lt_of_le_of_lt (Nat.mod_le _ _) hlt
  · show n ≤ bl.2.length
    rw [dualecBlocks_length _ hbl]
    exact ceilDiv_mul_ge n _ (buildLegal_curve hb r.row).1

end Sys2Proof.Machine
end

