-- ==== Sys2Proof/Laws/Commands.lean ====
section
/-! SUPPORT. What a host command of any engine can do, once for all twelve: each command is its frame over the
engine's own seeding, reseeding and output, and these touch the engine's own registers alone. -/

namespace Sys2Proof.Machine

/-! ## The engines' own parts -/

/-- The seeding of an engine (R145, R173, R192, R215). -/
def seedFn (p : Prims) (e : Engine) (strength : Nat) (m : Bytes) (s : State) : Option State :=
  match e with
  | .ctr => (ctrSeed p s.build.ctr m).map fun r => { s with ctr := r }
  | .hash => (hashFromSeed p s.build.hash m).map fun r => { s with hash := r }
  | .hmac => some { s with hmac := hmacSeed p s.build.hmac m }
  | .dualec => (dualecSeed p s.build strength m).map fun r => { s with dualec := r }

/-- The reseed algorithm of an engine (R148, R176, R194, R220). -/
def reseedFn (p : Prims) (e : Engine) (entropy a : Bytes) (s : State) : Option State :=
  match e with
  | .ctr => (ctrReseedOf p s.build.ctr s.ctr entropy a).map fun r => { s with ctr := r }
  | .hash => (hashReseedOf p s.build.hash s.hash entropy a).map fun r => { s with hash := r }
  | .hmac => some { s with hmac := hmacReseedOf p s.build.hmac s.hmac entropy a }
  | .dualec => (dualecReseedOf p s.build s.dualec entropy a).map fun r => { s with dualec := r }

/-- The output part of an engine's GENERATE (R147, R175, R193, R219). -/
def produceFn (p : Prims) (e : Engine) (a : Option Bytes) (n : Nat) (s : State) : Option (State × Bytes) :=
  match e with
  | .ctr => (ctrProduce p s.build.ctr s.ctr a n).map fun r => ({ s with ctr := r.1 }, r.2)
  | .hash => (hashProduce p s.build.hash s.hash a n).map fun r => ({ s with hash := r.1 }, r.2)
  | .hmac => some ({ s with hmac := (hmacProduce p s.build.hmac s.hmac a n).1 },
      (hmacProduce p s.build.hmac s.hmac a n).2)
  | .dualec => (dualecProduce p s.build s.dualec a n).map fun r => ({ s with dualec := r.1 }, r.2)

theorem exec_instantiateOf (e : Engine) (s : State) :
    exec (instantiateOf e) s = .next (instantiateFrame e (seedFn Config.prims e) s) := by
  cases e <;> rfl

theorem exec_generateOf (e : Engine) (ai pr : Bool) (s : State) :
    exec (generateOf e ai pr) s =
      .next (generateFrame e ai pr (reseedFn Config.prims e) (produceFn Config.prims e) s) := by
  cases e <;> rfl

theorem exec_reseedOf (e : Engine) (ai : Bool) (s : State) :
    exec (reseedOf e ai) s = .next (reseedFrame e ai (reseedFn Config.prims e) s) := by
  cases e <;> rfl

/-- Every host command is INSTANTIATE, GENERATE or RESEED of its engine (R84). -/
theorem command_is {i : Instr} {e : Engine} {op : CmdOp} (h : i.command = some (e, op)) :
    (op = .instantiate ∧ i = instantiateOf e) ∨ (op = .generate ∧ ∃ ai pr, i = generateOf e ai pr) ∨
      (op = .reseed ∧ ∃ ai, i = reseedOf e ai) := by
  cases i <;> simp only [Instr.command, Option.some.injEq, Prod.mk.injEq, reduceCtorEq] at h <;>
    obtain ⟨rfl, rfl⟩ := h
  all_goals first
    | exact .inl ⟨rfl, rfl⟩
    | exact .inr (.inl ⟨rfl, _, _, rfl⟩)
    | exact .inr (.inr ⟨rfl, _, rfl⟩)

theorem command_instantiateOf (e : Engine) : (instantiateOf e).command = some (e, .instantiate) := by cases e <;> rfl

theorem command_generateOf (e : Engine) (ai pr : Bool) : (generateOf e ai pr).command = some (e, .generate) := by
  cases e <;> rfl

theorem command_reseedOf (e : Engine) (ai : Bool) : (reseedOf e ai).command = some (e, .reseed) := by cases e <;> rfl

/-! ## What they touch -/

/-- A state that differs in the working registers of one engine alone. -/
structure Touched (e : Engine) (s t : State) : Prop where
  frame  : t = { s with ctr := t.ctr, hash := t.hash, hmac := t.hmac, dualec := t.dualec }
  others : ∀ f, f ≠ e → SameRegs f s t

theorem Touched.refl (e : Engine) (s : State) : Touched e s s := ⟨rfl, fun f _ => by cases f <;> rfl⟩

theorem Touched.trans {e : Engine} {s t u : State} (h : Touched e s t) (k : Touched e t u) : Touched e s u := by
  refine ⟨?_, fun f hf => ?_⟩
  · rw [k.frame, h.frame]
  · have a := h.others f hf
    have b := k.others f hf
    cases f <;> exact b.trans a

theorem seedFn_touched {p : Prims} {e : Engine} {n : Nat} {m : Bytes} {s t : State} (h : seedFn p e n m s = some t) :
    Touched e s t := by
  cases e <;> simp only [seedFn, Option.map_eq_some_iff, Option.some.injEq] at h
  case hmac => subst h; exact ⟨rfl, fun f hf => by cases f <;> first | rfl | exact absurd rfl hf⟩
  all_goals
    obtain ⟨r, -, rfl⟩ := h
    exact ⟨rfl, fun f hf => by cases f <;> first | rfl | exact absurd rfl hf⟩

theorem reseedFn_touched {p : Prims} {e : Engine} {x a : Bytes} {s t : State} (h : reseedFn p e x a s = some t) :
    Touched e s t := by
  cases e <;> simp only [reseedFn, Option.map_eq_some_iff, Option.some.injEq] at h
  case hmac => subst h; exact ⟨rfl, fun f hf => by cases f <;> first | rfl | exact absurd rfl hf⟩
  all_goals
    obtain ⟨r, -, rfl⟩ := h
    exact ⟨rfl, fun f hf => by cases f <;> first | rfl | exact absurd rfl hf⟩

theorem produceFn_touched {p : Prims} {e : Engine} {a : Option Bytes} {n : Nat} {s t : State} {out : Bytes}
    (h : produceFn p e a n s = some (t, out)) : Touched e s t := by
  cases e <;> simp only [produceFn, Option.map_eq_some_iff, Option.some.injEq, Prod.mk.injEq] at h
  case hmac => obtain ⟨rfl, -⟩ := h; exact ⟨rfl, fun f hf => by cases f <;> first | rfl | exact absurd rfl hf⟩
  all_goals
    obtain ⟨r, -, rfl, -⟩ := h
    exact ⟨rfl, fun f hf => by cases f <;> first | rfl | exact absurd rfl hf⟩

/-! ## What they give on a legal build -/

/-- The working registers of one engine have their widths (R25 (c)). -/
def RegsOk (e : Engine) (s : State) : Prop :=
  match e with
  | .ctr => CtrWidths s.build.ctr s.ctr
  | .hash => HashWidths s.build.hash s.hash
  | .hmac => HmacWidths s.build.hmac s.hmac
  | .dualec => s.dualec.s.length = curveSeedBytes s.curve

theorem WidthsOk.regs {s : State} (h : WidthsOk s) (e : Engine) : RegsOk e s := by
  cases e
  · exact ⟨h.ctrKey, h.ctrV⟩
  · exact ⟨h.hashV, h.hashC⟩
  · exact ⟨h.hmacK, h.hmacV⟩
  · exact h.dualecS

theorem WidthsOk.of_regs {s : State} (h : ∀ e, RegsOk e s) : WidthsOk s :=
  ⟨(h .ctr).1, (h .ctr).2, (h .hash).1, (h .hash).2, (h .hmac).1, (h .hmac).2, h .dualec⟩

/-- The Dual-EC scalar is below `2^seedlen` (R24). -/
def ScalarBelow (e : Engine) (s : State) : Prop := e = .dualec → be s.dualec.s < 2 ^ s.curve.seedlen

/-- Seeding never fails on a legal build (R106, R277). -/
theorem seedFn_some {s : State} (hb : buildLegal s.build = true) (p : Prims) (e : Engine) (n : Nat) (m : Bytes) :
    ∃ t, seedFn p e n m s = some t ∧ Touched e s t ∧ RegsOk e t ∧ ScalarBelow e t ∧
      t.counter e = if e = .dualec then 0 else 1 := by
  cases e with
  | ctr =>
    obtain ⟨r, hr, hw, hc⟩ := ctrSeed_some (p := p) (buildLegal_ctr hb) m
    have h : seedFn p .ctr n m s = some { s with ctr := r } := by simp only [seedFn, hr, Option.map_some]
    exact ⟨_, h, seedFn_touched h, hw, by simp [ScalarBelow], by simpa [State.counter] using hc⟩
  | hash =>
    obtain ⟨r, hr, hw, hc⟩ := hashFromSeed_some (p := p) (buildLegal_hash hb) m
    have h : seedFn p .hash n m s = some { s with hash := r } := by simp only [seedFn, hr, Option.map_some]
    exact ⟨_, h, seedFn_touched h, hw, by simp [ScalarBelow], by simpa [State.counter] using hc⟩
  | hmac =>
    have h : seedFn p .hmac n m s = some { s with hmac := hmacSeed p s.build.hmac m } := rfl
    exact ⟨_, h, seedFn_touched h, (hmacUpdateOf_facts ..).1, by simp [ScalarBelow],
      show (hmacSeed p s.build.hmac m).reseedCounter = 1 from (hmacUpdateOf_facts ..).2⟩
  | dualec =>
    obtain ⟨r, hr, hw, hc, -⟩ := dualecSeed_some (p := p) hb n m
    have h : seedFn p .dualec n m s = some { s with dualec := r } := by simp only [seedFn, hr, Option.map_some]
    exact ⟨_, h, seedFn_touched h, hw.1, fun _ => hw.2, by simpa [State.counter] using hc⟩

/-- Reseeding never fails on a legal build with registers of their widths (R106, R277); the row stays. -/
theorem reseedFn_some {s : State} (hb : buildLegal s.build = true) {e : Engine} (hw : RegsOk e s) (p : Prims)
    (x a : Bytes) : ∃ t, reseedFn p e x a s = some t ∧ Touched e s t ∧ RegsOk e t ∧ ScalarBelow e t ∧
      (t.counter e = if e = .dualec then 0 else 1) ∧ t.dualec.row = s.dualec.row := by
  cases e with
  | ctr =>
    obtain ⟨r, hr, hw, hc⟩ := ctrReseedOf_some (p := p) (buildLegal_ctr hb) hw x a
    have h : reseedFn p .ctr x a s = some { s with ctr := r } := by simp only [reseedFn, hr, Option.map_some]
    exact ⟨_, h, reseedFn_touched h, hw, by simp [ScalarBelow], by simpa [State.counter] using hc, rfl⟩
  | hash =>
    obtain ⟨r, hr, hw, hc⟩ := hashFromSeed_some (p := p) (buildLegal_hash hb) ([0x01] ++ s.hash.v ++ x ++ a)
    have h : reseedFn p .hash x a s = some { s with hash := r } := by
      simp only [reseedFn, hashReseedOf, hr, Option.map_some]
    exact ⟨_, h, reseedFn_touched h, hw, by simp [ScalarBelow], by simpa [State.counter] using hc, rfl⟩
  | hmac =>
    have h : reseedFn p .hmac x a s = some { s with hmac := hmacReseedOf p s.build.hmac s.hmac x a } := rfl
    exact ⟨_, h, reseedFn_touched h, (hmacUpdateOf_facts ..).1, by simp [ScalarBelow],
      show (hmacReseedOf p s.build.hmac s.hmac x a).reseedCounter = 1 from (hmacUpdateOf_facts ..).2, rfl⟩
  | dualec =>
    obtain ⟨r, hr, hw, hc, hrow⟩ := dualecReseedOf_some (p := p) hb s.dualec x a
    have h : reseedFn p .dualec x a s = some { s with dualec := r } := by simp only [reseedFn, hr, Option.map_some]
    exact ⟨_, h, reseedFn_touched h, hw.1, fun _ => hw.2, by simpa [State.counter] using hc, hrow⟩

/-- By how much a GENERATE advances the counter (R247). -/
def counterStep (e : Engine) (n : Nat) (s : State) : BitVec 64 :=
  if e = .dualec then BitVec.ofNat 64 (ceilDiv n s.curve.outlen) else 1

/-- The output part never fails on a legal build with registers of their widths, but for Dual-EC at the point at
infinity (R277). -/
theorem produceFn_cases {s : State} (hb : buildLegal s.build = true) {e : Engine} (hw : RegsOk e s) (p : Prims)
    (a : Option Bytes) (n : Nat) :
    (∃ t out, produceFn p e a n s = some (t, out) ∧ Touched e s t ∧ RegsOk e t ∧ ScalarBelow e t ∧ n ≤ out.length ∧
      t.counter e = s.counter e + counterStep e n s ∧ t.dualec.row = s.dualec.row) ∨
      (produceFn p e a n s = none ∧ e = .dualec) := by
  cases e with
  | ctr =>
    obtain ⟨r, out, hr, hw, hc, ho⟩ := ctrProduce_some (p := p) (buildLegal_ctr hb) hw a n
    have h : produceFn p .ctr a n s = some ({ s with ctr := r }, out) := by simp only [produceFn, hr, Option.map_some]
    exact .inl ⟨_, _, h, produceFn_touched h, hw, by simp [ScalarBelow], ho,
      by simpa [State.counter, counterStep] using hc, rfl⟩
  | hash =>
    obtain ⟨r, out, hr, hw, hc, ho, -⟩ := hashProduce_some (p := p) (buildLegal_hash hb) hw a n
    have h : produceFn p .hash a n s = some ({ s with hash := r }, out) := by
      simp only [produceFn, hr, Option.map_some]
    exact .inl ⟨_, _, h, produceFn_touched h, hw, by simp [ScalarBelow], ho.ge,
      by simpa [State.counter, counterStep] using hc, rfl⟩
  | hmac =>
    have hm : 0 < s.build.hmac.macSize := by
      simp only [buildLegal, Bool.and_eq_true, decide_eq_true_eq] at hb
      exact hb.1.1.1.1.1.2
    obtain ⟨h1, h2, h3⟩ := hmacProduce_facts p s.build.hmac hm s.hmac a n
    have h : produceFn p .hmac a n s = some ({ s with hmac := (hmacProduce p s.build.hmac s.hmac a n).1 },
      (hmacProduce p s.build.hmac s.hmac a n).2) := rfl
    exact .inl ⟨_, _, h, produceFn_touched h, h1, by simp [ScalarBelow], h3,
      by simpa [State.counter, counterStep] using h2, rfl⟩
  | dualec =>
    cases hr : dualecProduce p s.build s.dualec a n with
    | none => exact .inr ⟨by simp only [produceFn, hr, Option.map_none], rfl⟩
    | some x =>
      obtain ⟨h1, h2, h3, h4⟩ := dualecProduce_facts hb hr
      have h : produceFn p .dualec a n s = some ({ s with dualec := x.1 }, x.2) := by
        simp only [produceFn, hr, Option.map_some]
      exact .inl ⟨_, _, h, produceFn_touched h, h1.1, fun _ => h1.2, h3,
        by simpa [State.counter, counterStep, State.curve] using h4, h2⟩

/-! ## Everything a host command can do -/

/-- A state with other working registers of one engine and with answers of the entropy source taken. -/
def Advanced (e : Engine) (s t : State) : Prop := Touched e { s with entropy := t.entropy } t

/-- The value a counter starts from (R25 (a), R145, R173, R192, R215). -/
def counterStart (e : Engine) : BitVec 64 := if e = .dualec then 0 else 1

/-- What a successful command leaves in its engine's registers: their widths, the Dual-EC bound, and the counter. -/
structure EngineAfter (e : Engine) (op : CmdOp) (n : Nat) (s u : State) : Prop where
  regs    : RegsOk e u
  scalar  : ScalarBelow e u
  started : op ≠ .generate → u.counter e = counterStart e
  stepped : op = .generate →
    u.counter e = s.counter e + counterStep e n s ∨ u.counter e = counterStart e + counterStep e n s

/-- The outcomes of a host command (R244): a failed check, the stall, an entropy failure, success with the engine's own
registers and perhaps bytes of `OUT` written, or a contract violation inside it. -/
inductive CommandEnds (e : Engine) (op : CmdOp) (s t : State) : Prop where
  | check (c : Code) (h1 : c ≠ .ok) (h2 : c ≠ .contractViolation) (h3 : c ≠ .entropyFailure)
      (h4 : c = .reseedRequired → op = .generate ∧ s.p0 e ≠ .uninit ∧ ¬BelowCeiling e s)
      (h : t = s.raise (some e) c)
  | stall (h : s.entropy = []) (ht : t = s)
  | noEntropy (rest : List EntropyAnswer) (h : s.entropy = .fail :: rest)
      (ht : t = State.raise (some e) .entropyFailure { s with entropy := rest })
  | success (u : State) (n : Nat) (out : Bytes) (hu : Advanced e s u) (hn : op ≠ .generate → n = 0)
      (hle : op = .generate → n = s.outLenOp) (hg : op = .generate → ∃ ai, GenerateReady e ai s)
      (hf : buildLegal s.build = true → WidthsOk s → EngineAfter e op n s u) (ht : t = (u.storeOut n out).succeed e (n * 8))
  | violation (u : State) (hu : Advanced e s u) (hf : buildLegal s.build = true → WidthsOk s → RegsOk e u)
      (ht : t = u.raise (some e) .contractViolation)

theorem instantiateCheck_codes {e : Engine} {s : State} {c : Code} (h : instantiateCheck e s = some c) :
    c ≠ .ok ∧ c ≠ .contractViolation ∧ c ≠ .entropyFailure ∧ c ≠ .reseedRequired := by
  rw [instantiateCheck_eq] at h
  split_ifs at h <;> obtain rfl := Option.some.inj h <;> exact ⟨nofun, nofun, nofun, nofun⟩

theorem generateCheck_codes {e : Engine} {ai : Bool} {s : State} {c : Code} (h : generateCheck e ai s = some c) :
    c ≠ .ok ∧ c ≠ .contractViolation ∧ c ≠ .entropyFailure ∧
      (c = .reseedRequired → s.p0 e ≠ .uninit ∧ ¬BelowCeiling e s) := by
  rw [generateCheck_eq] at h
  split_ifs at h with h1 h2 h3 h4 h5 <;> obtain rfl := Option.some.inj h <;>
    first
    | exact ⟨nofun, nofun, nofun, fun _ => ⟨h2, h5⟩⟩
    | exact ⟨nofun, nofun, nofun, fun k => absurd k (by decide)⟩

theorem reseedCheck_codes {e : Engine} {ai : Bool} {s : State} {c : Code} (h : reseedCheck e ai s = some c) :
    c ≠ .ok ∧ c ≠ .contractViolation ∧ c ≠ .entropyFailure ∧ c ≠ .reseedRequired := by
  rw [reseedCheck_eq] at h
  split_ifs at h <;> obtain rfl := Option.some.inj h <;> exact ⟨nofun, nofun, nofun, nofun⟩

theorem Touched.advanced {e : Engine} {s t : State} {rest : List EntropyAnswer}
    (h : Touched e { s with entropy := rest } t) : Advanced e s t := by
  have he : t.entropy = rest := by rw [h.frame]
  unfold Advanced; rw [he]; exact h

theorem State.storeOut_zero (s : State) (out : Bytes) : s.storeOut 0 out = s := rfl

/-- Taking an entropy answer leaves an engine's registers as they are. -/
theorem WidthsOk.regs_entropy {s : State} (h : WidthsOk s) (rest : List EntropyAnswer) (e : Engine) :
    RegsOk e { s with entropy := rest } := by
  have := h.regs e
  cases e <;> exact this

theorem counterStep_congr {e : Engine} {n : Nat} {s t : State} (h : t.curve = s.curve) :
    counterStep e n t = counterStep e n s := by
  unfold counterStep; rw [h]

theorem seedFn_after {e : Engine} {n : Nat} {m : Bytes} {rest : List EntropyAnswer} {s u : State}
    (hu : seedFn Config.prims e n m { s with entropy := rest } = some u) (hb : buildLegal s.build = true) :
    EngineAfter e .instantiate 0 s u := by
  obtain ⟨t, ht, -, h1, h2, h3⟩ := seedFn_some (s := { s with entropy := rest }) hb Config.prims e n m
  obtain rfl := Option.some.inj (hu.symm.trans ht)
  exact ⟨h1, h2, fun _ => h3, nofun⟩

theorem reseedFn_after {e : Engine} {x a : Bytes} {rest : List EntropyAnswer} {s u : State}
    (hu : reseedFn Config.prims e x a { s with entropy := rest } = some u) (hb : buildLegal s.build = true)
    (hw : WidthsOk s) : EngineAfter e .reseed 0 s u := by
  obtain ⟨t, ht, -, h1, h2, h3, -⟩ := reseedFn_some (s := { s with entropy := rest }) hb (hw.regs_entropy rest e)
    Config.prims x a
  obtain rfl := Option.some.inj (hu.symm.trans ht)
  exact ⟨h1, h2, fun _ => h3, nofun⟩

theorem produceFn_after {e : Engine} {a : Option Bytes} {n : Nat} {s u : State} {out : Bytes}
    (hu : produceFn Config.prims e a n s = some (u, out)) (hb : buildLegal s.build = true) (hw : RegsOk e s) :
    RegsOk e u ∧ ScalarBelow e u ∧ u.counter e = s.counter e + counterStep e n s := by
  rcases produceFn_cases hb hw Config.prims a n with ⟨t, o, ht, -, h1, h2, -, h3, -⟩ | ⟨h, -⟩
  · obtain ⟨rfl, rfl⟩ := Prod.mk.inj (Option.some.inj (hu.symm.trans ht))
    exact ⟨h1, h2, h3⟩
  · cases hu.symm.trans h

/-- What a command can do, for every command of every engine. -/
theorem command_ends {i : Instr} {e : Engine} {op : CmdOp} {s t : State} (hi : i.command = some (e, op))
    (h : exec i s = .next t) : CommandEnds e op s t := by
  rcases command_is hi with ⟨rfl, rfl⟩ | ⟨rfl, ai, pr, rfl⟩ | ⟨rfl, ai, rfl⟩
  · rw [exec_instantiateOf] at h
    obtain rfl := Host.Outcome.next.inj h
    rcases instantiateFrame_cases e (seedFn Config.prims e) s with ⟨c, hc, hf⟩ | ⟨-, ⟨hs, hf⟩ | ⟨rest, hr, hf⟩ |
        ⟨bytes, rest, hr, hf⟩⟩ <;> rw [hf]
    · obtain ⟨a, b, d, f⟩ := instantiateCheck_codes hc
      exact .check c a b d (fun k => absurd k f) rfl
    · exact .stall hs rfl
    · exact .noEntropy rest hr rfl
    · cases hx : seedFn Config.prims e s.strengthOp (bytes ++ s.nonceIn ++ s.persIn) { s with entropy := rest } with
      | some u =>
        exact .success u 0 [] (seedFn_touched hx).advanced (fun _ => rfl) nofun nofun
          (fun hb _ => seedFn_after hx hb) rfl
      | none => exact .violation _ (Touched.refl e _).advanced (fun _ hw => hw.regs_entropy _ e) rfl
  · rw [exec_generateOf] at h
    obtain rfl := Host.Outcome.next.inj h
    rcases generateFrame_cases e ai pr (reseedFn Config.prims e) (produceFn Config.prims e) s with ⟨c, hc, hf⟩ |
        ⟨hg, ⟨-, hf⟩ | ⟨-, hs, hf⟩ | ⟨-, rest, hr, hf⟩ | ⟨-, bytes, rest, hr, ⟨s2, h2, hf⟩ | ⟨-, hf⟩⟩⟩ <;> rw [hf]
    · obtain ⟨a, b, d, f⟩ := generateCheck_codes hc
      exact .check c a b d (fun k => ⟨rfl, f k⟩) rfl
    · rcases emitFrame_cases e (produceFn Config.prims e) s.outLenOp (s.aiIn ai) s with ⟨u, out, hu, he⟩ | ⟨-, he⟩ <;>
        rw [he]
      · refine .success u _ out (produceFn_touched hu).advanced (fun k => absurd rfl k) (fun _ => rfl)
          (fun _ => ⟨ai, (generateCheck_none e ai s).1 hg⟩) (fun hb hw => ?_) rfl
        obtain ⟨a, b, c⟩ := produceFn_after hu hb (hw.regs e)
        exact ⟨a, b, fun k => absurd rfl k, fun _ => .inl c⟩
      · exact .violation _ (Touched.refl e _).advanced (fun _ hw => hw.regs_entropy _ e) rfl
    · exact .stall hs rfl
    · exact .noEntropy rest hr rfl
    · rcases emitFrame_cases e (produceFn Config.prims e) s.outLenOp none s2 with ⟨u, out, hu, he⟩ | ⟨-, he⟩ <;>
        rw [he]
      · refine .success u _ out ((reseedFn_touched h2).trans (produceFn_touched hu)).advanced (fun k => absurd rfl k)
          (fun _ => rfl) (fun _ => ⟨ai, (generateCheck_none e ai s).1 hg⟩) (fun hb hw => ?_) rfl
        obtain ⟨t, ht, htt, h1, -, h3, h4⟩ := reseedFn_some (s := { s with entropy := rest }) hb
          (hw.regs_entropy rest e) Config.prims bytes (orEmpty (s.aiIn ai))
        obtain rfl := Option.some.inj (h2.symm.trans ht)
        have hbuild : s2.build = s.build := by rw [htt.frame]
        obtain ⟨a, b, c⟩ := produceFn_after hu (by rw [hbuild]; exact hb) h1
        have hcurve : s2.curve = s.curve := by unfold State.curve; rw [hbuild, h4]
        exact ⟨a, b, fun k => absurd rfl k, fun _ => .inr (by rw [c, h3, counterStep_congr hcurve]; rfl)⟩
      · exact .violation _ (reseedFn_touched h2).advanced (fun hb hw => (reseedFn_after h2 hb hw).regs) rfl
    · exact .violation _ (Touched.refl e _).advanced (fun _ hw => hw.regs_entropy _ e) rfl
  · rw [exec_reseedOf] at h
    obtain rfl := Host.Outcome.next.inj h
    rcases reseedFrame_cases e ai (reseedFn Config.prims e) s with ⟨c, hc, hf⟩ | ⟨-, ⟨hs, hf⟩ | ⟨rest, hr, hf⟩ |
        ⟨bytes, rest, hr, hf⟩⟩ <;> rw [hf]
    · obtain ⟨a, b, d, f⟩ := reseedCheck_codes hc
      exact .check c a b d (fun k => absurd k f) rfl
    · exact .stall hs rfl
    · exact .noEntropy rest hr rfl
    · cases hx : reseedFn Config.prims e bytes (orEmpty (s.aiIn ai)) { s with entropy := rest } with
      | some u =>
        exact .success u 0 [] (reseedFn_touched hx).advanced (fun _ => rfl) nofun nofun
          (fun hb hw => reseedFn_after hx hb hw) rfl
      | none => exact .violation _ (Touched.refl e _).advanced (fun _ hw => hw.regs_entropy _ e) rfl

end Sys2Proof.Machine
end

