-- ==== Sys2Proof/Laws/Micro.lean ====
section
/-! SUPPORT. What a micro-operation can do, once for all fifteen: it writes its result, or `key` and `v` of its engine, or
it ends with a contract violation or, for `STRENGTH_CHK`, with a strength code. -/

namespace Sys2Proof.Machine

/-- The outcomes of a micro-operation (R83, R248, R277). -/
inductive MicroEnds (s t : State) : Prop where
  | runs (h : t = { s with
        dp := t.dp
        ctr := { s.ctr with key := t.ctr.key, v := t.ctr.v }
        hmac := { s.hmac with k := t.hmac.k, v := t.hmac.v } })
      (hw : buildLegal s.build = true → WidthsOk s → WidthsOk t)
  | violation (own : Option Engine) (h : t = s.violate own)
  | check (c : Code) (hc : c = .strengthNotSupported ∨ c = .entropyUnderProvisioned)
      (h : t = s.raise (s.target.map (·.1)) c)

theorem State.putInPlace_ends (s : State) (r : Option Bytes) : MicroEnds s (s.putInPlace r) := by
  cases r with
  | none => exact .violation none rfl
  | some b => exact .runs rfl fun _ h => ⟨h.1, h.2, h.3, h.4, h.5, h.6, h.7⟩

theorem State.putResult_ends (s : State) (own : Option Engine) (r : Option Bytes) : MicroEnds s (s.putResult own r) := by
  cases r with
  | none => exact .violation own rfl
  | some b => exact .runs rfl fun _ h => ⟨h.1, h.2, h.3, h.4, h.5, h.6, h.7⟩

theorem strengthCheck_codes {b : Build} {e : Engine} {n : Nat} {c : Code} (h : strengthCheck b e n = some c) :
    c = .strengthNotSupported ∨ c = .entropyUnderProvisioned := by
  unfold strengthCheck at h
  simp only [Option.or_eq_some_iff, failIf_eq_some] at h
  aesop

theorem ctrUpdateOp_ends (p : Prims) (s : State) : MicroEnds s (ctrUpdateOp p s) := by
  unfold ctrUpdateOp
  cases h : ctrFold p s.build.ctr s.ctr s.dp.bufA with
  | none => exact .violation (some .ctr) rfl
  | some r =>
    have hr : r = { s.ctr with key := r.key, v := r.v } := by
      unfold ctrFold at h
      obtain ⟨kv, -, rfl⟩ := Option.map_eq_some_iff.1 h
      rfl
    refine .runs (by conv_lhs => rw [hr]) fun hb hw => ?_
    by_cases hs : s.dp.bufA.length = ctrSeedBytes s.build.ctr
    · obtain ⟨r', hr', hw', -⟩ := ctrFold_some (p := p) (buildLegal_ctr hb) (r := s.ctr) hw.ctrKey hs
      rw [h] at hr'
      obtain rfl := Option.some.inj hr'
      exact ⟨hw'.1, hw'.2, hw.3, hw.4, hw.5, hw.6, hw.7⟩
    · unfold ctrFold at h
      rw [ctrUpdateOf_none hs] at h
      cases h

/-- What a micro-operation can do, for every one. -/
theorem micro_ends {i : Instr} {s t : State} (hi : i.command = none) (h : exec i s = .next t) : MicroEnds s t := by
  cases i <;> simp only [Instr.command, reduceCtorEq] at hi <;> obtain rfl := Host.Outcome.next.inj h
  case incBe => exact s.putInPlace_ends _
  case xorInto => exact s.putResult_ends _ _
  case addBe => exact s.putInPlace_ends _
  case shrBits k => exact s.putInPlace_ends _
  case shlBits k => exact s.putInPlace_ends _
  case strengthChk =>
    cases hc : strengthCheck s.build s.dp.engine s.strengthOp with
    | none => exact .runs rfl fun _ hw => hw
    | some c => exact .check c (strengthCheck_codes hc) rfl
  case hashDf => exact s.putResult_ends _ _
  case blockCipherDf => exact s.putResult_ends _ _
  case bcc => exact s.putResult_ends _ _
  case ctrUpdate => exact ctrUpdateOp_ends _ s
  case expandKey => exact s.putResult_ends _ _
  case hashgen => exact s.putResult_ends _ _
  case hmacUpdate =>
    have hr := (hmacUpdateOf_facts Config.prims s.build.hmac s.hmac s.dp.material)
    refine .runs ?_ fun _ hw => ⟨hw.1, hw.2, hw.3, hw.4, hr.1.1, hr.1.2, hw.7⟩
    have e : hmacUpdateOf Config.prims s.build.hmac s.hmac s.dp.material =
        { s.hmac with
          k := (hmacUpdateOf Config.prims s.build.hmac s.hmac s.dp.material).k
          v := (hmacUpdateOf Config.prims s.build.hmac s.hmac s.dp.material).v } := by
      conv_rhs => simp only [← hr.2]
    exact congrArg (fun r => { s with hmac := r }) e
  case hmacUpdatePass b =>
    have hr := (hmacPassOf_facts Config.prims s.build.hmac s.hmac b s.dp.material)
    exact .runs rfl fun _ hw => ⟨hw.1, hw.2, hw.3, hw.4, hr.1.1, hr.1.2, hw.7⟩
  case pad8 => exact s.putResult_ends _ _

end Sys2Proof.Machine
end

