-- ==== Sys2Proof/Laws/PerInstr.lean ====
section
/-! SUPPORT. The family `UnitAndOp`: the word of every instruction carries its `UNIT` and `OP` in bits 31:28 and 27:24
(R80, R84, R85), one lemma per constructor. -/

/-- Bits 31:28 of the word are `UNIT` and bits 27:24 are `OP` (R80). -/
def Sys2Proof.Laws.UnitAndOp.Statement (i : Sys2Proof.Instr) : Prop :=
  (Sys2Proof.encode i).extractLsb' 28 4 = BitVec.ofNat 4 i.unit ∧
    (Sys2Proof.encode i).extractLsb' 24 4 = BitVec.ofNat 4 i.op

theorem Sys2Proof.Laws.UnitAndOp.ctrInstantiate :
    Sys2Proof.Laws.UnitAndOp.Statement .ctrInstantiate := ⟨by decide, by decide⟩

theorem Sys2Proof.Laws.UnitAndOp.ctrGenerate (ai pr : Bool) :
    Sys2Proof.Laws.UnitAndOp.Statement (.ctrGenerate ai pr) := by
  cases ai <;> cases pr <;> exact ⟨by decide, by decide⟩

theorem Sys2Proof.Laws.UnitAndOp.ctrReseed (ai : Bool) :
    Sys2Proof.Laws.UnitAndOp.Statement (.ctrReseed ai) := by
  cases ai <;> exact ⟨by decide, by decide⟩

theorem Sys2Proof.Laws.UnitAndOp.hashInstantiate :
    Sys2Proof.Laws.UnitAndOp.Statement .hashInstantiate := ⟨by decide, by decide⟩

theorem Sys2Proof.Laws.UnitAndOp.hashGenerate (ai pr : Bool) :
    Sys2Proof.Laws.UnitAndOp.Statement (.hashGenerate ai pr) := by
  cases ai <;> cases pr <;> exact ⟨by decide, by decide⟩

theorem Sys2Proof.Laws.UnitAndOp.hashReseed (ai : Bool) :
    Sys2Proof.Laws.UnitAndOp.Statement (.hashReseed ai) := by
  cases ai <;> exact ⟨by decide, by decide⟩

theorem Sys2Proof.Laws.UnitAndOp.hmacInstantiate :
    Sys2Proof.Laws.UnitAndOp.Statement .hmacInstantiate := ⟨by decide, by decide⟩

theorem Sys2Proof.Laws.UnitAndOp.hmacGenerate (ai pr : Bool) :
    Sys2Proof.Laws.UnitAndOp.Statement (.hmacGenerate ai pr) := by
  cases ai <;> cases pr <;> exact ⟨by decide, by decide⟩

theorem Sys2Proof.Laws.UnitAndOp.hmacReseed (ai : Bool) :
    Sys2Proof.Laws.UnitAndOp.Statement (.hmacReseed ai) := by
  cases ai <;> exact ⟨by decide, by decide⟩

theorem Sys2Proof.Laws.UnitAndOp.dualecInstantiate :
    Sys2Proof.Laws.UnitAndOp.Statement .dualecInstantiate := ⟨by decide, by decide⟩

theorem Sys2Proof.Laws.UnitAndOp.dualecGenerate (ai pr : Bool) :
    Sys2Proof.Laws.UnitAndOp.Statement (.dualecGenerate ai pr) := by
  cases ai <;> cases pr <;> exact ⟨by decide, by decide⟩

theorem Sys2Proof.Laws.UnitAndOp.dualecReseed (ai : Bool) :
    Sys2Proof.Laws.UnitAndOp.Statement (.dualecReseed ai) := by
  cases ai <;> exact ⟨by decide, by decide⟩

theorem Sys2Proof.Laws.UnitAndOp.incBe :
    Sys2Proof.Laws.UnitAndOp.Statement .incBe := ⟨by decide, by decide⟩

theorem Sys2Proof.Laws.UnitAndOp.xorInto :
    Sys2Proof.Laws.UnitAndOp.Statement .xorInto := ⟨by decide, by decide⟩

theorem Sys2Proof.Laws.UnitAndOp.addBe :
    Sys2Proof.Laws.UnitAndOp.Statement .addBe := ⟨by decide, by decide⟩

theorem Sys2Proof.Laws.UnitAndOp.shrBits (k : BitVec 3) :
    Sys2Proof.Laws.UnitAndOp.Statement (.shrBits k) := by
  revert k; unfold Sys2Proof.Laws.UnitAndOp.Statement; decide

theorem Sys2Proof.Laws.UnitAndOp.shlBits (k : BitVec 3) :
    Sys2Proof.Laws.UnitAndOp.Statement (.shlBits k) := by
  revert k; unfold Sys2Proof.Laws.UnitAndOp.Statement; decide

theorem Sys2Proof.Laws.UnitAndOp.strengthChk :
    Sys2Proof.Laws.UnitAndOp.Statement .strengthChk := ⟨by decide, by decide⟩

theorem Sys2Proof.Laws.UnitAndOp.hashDf :
    Sys2Proof.Laws.UnitAndOp.Statement .hashDf := ⟨by decide, by decide⟩

theorem Sys2Proof.Laws.UnitAndOp.blockCipherDf :
    Sys2Proof.Laws.UnitAndOp.Statement .blockCipherDf := ⟨by decide, by decide⟩

theorem Sys2Proof.Laws.UnitAndOp.bcc :
    Sys2Proof.Laws.UnitAndOp.Statement .bcc := ⟨by decide, by decide⟩

theorem Sys2Proof.Laws.UnitAndOp.ctrUpdate :
    Sys2Proof.Laws.UnitAndOp.Statement .ctrUpdate := ⟨by decide, by decide⟩

theorem Sys2Proof.Laws.UnitAndOp.expandKey :
    Sys2Proof.Laws.UnitAndOp.Statement .expandKey := ⟨by decide, by decide⟩

theorem Sys2Proof.Laws.UnitAndOp.hashgen :
    Sys2Proof.Laws.UnitAndOp.Statement .hashgen := ⟨by decide, by decide⟩

theorem Sys2Proof.Laws.UnitAndOp.hmacUpdate :
    Sys2Proof.Laws.UnitAndOp.Statement .hmacUpdate := ⟨by decide, by decide⟩

theorem Sys2Proof.Laws.UnitAndOp.hmacUpdatePass (marker : Bool) :
    Sys2Proof.Laws.UnitAndOp.Statement (.hmacUpdatePass marker) := by
  cases marker <;> exact ⟨by decide, by decide⟩

theorem Sys2Proof.Laws.UnitAndOp.pad8 :
    Sys2Proof.Laws.UnitAndOp.Statement .pad8 := ⟨by decide, by decide⟩
end

