-- ==== Sys2Proof/Tests/Slice0.lean ====
section
/-! SUPPORT. The model's own tests: refused terms, written-out words, the vectors of 95_test_vectors.md over its toy
primitives, and for each statement with hypotheses a concrete state that meets them. -/

namespace Sys2Proof.Tests

open Sys2Proof Sys2Proof.Machine

-- One theorem after another: the package as one text is compiled under a memory limit.
set_option Elab.async false

/-! ## Well-formedness: a shift by 0 has no word (R85) -/

theorem test_wf_refuses_shr_by_0 : Instr.wf (.shrBits 0) = false := by decide

theorem test_wf_refuses_shl_by_0 : Instr.wf (.shlBits 0) = false := by decide

/-! ## Decoding: words written out from the fields of R84 and R85 -/

theorem test_decode_host_words :
    decode 0b00100000000000000000000000000000 = .ok .ctrInstantiate ∧
    decode 0b00100001000000000000000000000010 = .ok (.ctrGenerate true false) ∧
    decode 0b00100001000000000000000000000001 = .ok (.ctrGenerate false true) ∧
    decode 0b00100010000000000000000000000010 = .ok (.ctrReseed true) ∧
    decode 0b00110000000000000000000000000000 = .ok .hashInstantiate ∧
    decode 0b00110001000000000000000000000001 = .ok (.hashGenerate false true) ∧
    decode 0b00110010000000000000000000000010 = .ok (.hashReseed true) ∧
    decode 0b01000000000000000000000000000000 = .ok .hmacInstantiate ∧
    decode 0b01000001000000000000000000000011 = .ok (.hmacGenerate true true) ∧
    decode 0b01000010000000000000000000000000 = .ok (.hmacReseed false) ∧
    decode 0b01010000000000000000000000000000 = .ok .dualecInstantiate ∧
    decode 0b01010001000000000000000000000010 = .ok (.dualecGenerate true false) ∧
    decode 0b01010010000000000000000000000010 = .ok (.dualecReseed true) := by decide

theorem test_decode_micro_words :
    decode 0b00000000000000000000000000000000 = .ok .incBe ∧
    decode 0b00000001000000000000000000000000 = .ok .xorInto ∧
    decode 0b00000010000000000000000000000000 = .ok .addBe ∧
    decode 0b00000011000000000000000000000001 = .ok (.shrBits 1) ∧
    decode 0b00000100000000000000000000000110 = .ok (.shlBits 6) ∧
    decode 0b00001000000000000000000000000000 = .ok .strengthChk ∧
    decode 0b00010000000000000000000000000000 = .ok .hashDf ∧
    decode 0b00010001000000000000000000000000 = .ok .blockCipherDf ∧
    decode 0b00010010000000000000000000000000 = .ok .bcc ∧
    decode 0b00101000000000000000000000000000 = .ok .ctrUpdate ∧
    decode 0b00101001000000000000000000000000 = .ok .expandKey ∧
    decode 0b00111000000000000000000000000000 = .ok .hashgen ∧
    decode 0b01001000000000000000000000000000 = .ok .hmacUpdate ∧
    decode 0b01001001000000000000000000000001 = .ok (.hmacUpdatePass true) ∧
    decode 0b01011000000000000000000000000000 = .ok .pad8 := by decide

/-- T-CMD-1: the words that are no instruction at all. -/
theorem test_decode_reserved_words :
    decode 0x20000001 = .error .flagNotAllowed ∧ decode 0x21000004 = .error .reservedBits ∧
    decode 0x22000001 = .error .flagNotAllowed ∧ decode 0x23000000 = .error .reservedOp ∧
    decode 0x51000100 = .error .reservedBits ∧ decode 0x60000000 = .error .reservedUnit ∧
    decode 0xF1000000 = .error .reservedUnit ∧ decode 0x03000000 = .error .reservedShiftCount := by decide

theorem test_table_word : decodeTableWord 32 0x49000001 = some (.hmacUpdatePass true) := by decide

/-! ## The toy primitives and descriptors of section 2 -/

def toyHash (m : Bytes) : Bytes :=
  toBE 4 (m.foldl (fun h b => ((h ^^^ b.toNat) * 0x01000193) % 2 ^ 32) 0x811C9DC5)

def toyEnc (k x : Bytes) : Bytes :=
  let m := ((be x ^^^ be k) * 0x9E3779B97F4A7C15) % 2 ^ 64
  toBE 8 ((m * 2 ^ 23 % 2 ^ 64 + m / 2 ^ 41 + be k) % 2 ^ 64)

def toyMul (_ : Row) (pt : Point) (n : Nat) : Nat :=
  if pt.x = 0 then (3 * n + 1) % (2 ^ 37 - 25) else (5 * n + 2) % (2 ^ 37 - 25)

def toyPrims : Prims := ⟨toyEnc, tdeaExpandDefault, toyHash, fun k m => toyHash (k ++ m), toyHash, toyMul⟩

def toyBuild : Build :=
  { referenceBuild with
    ctr := ⟨64, 64, false, 64, 0⟩, hash := ⟨4, 40, 64⟩, hmac := ⟨4, 64⟩, dualec := ⟨4, 64⟩
    p256 := ⟨37, 3, 2 ^ 37 - 25, ⟨0, 0⟩, ⟨1, 0⟩, 0, 0⟩, entropyBits := 128 }

/-- The entropy strings `ent`, `ent2`, ... of 95_test_vectors.md. -/
def toyEntropy (i : Nat) : EntropyAnswer := .ok ((List.range 16).map fun j => BitVec.ofNat 8 (16 * i + j))

/-- A block just reset with the operands that the toy vectors use. -/
def toyState : State :=
  { State.resetOf toyBuild with
    strength := 64, nonce := [(0, 0x4e), (1, 0x31)], nonceLen := 2, pers := [(0, 0x50), (1, 0x31)], persLen := 2
    entropy := [toyEntropy 0] }

/-- The toy block with every engine seeded, an additional input, and the registers of one engine as given. -/
def toySeeded (outLen : Word) (aiText : Memory) : State :=
  { toyState with
    phases := ⟨.seeded, .seeded, .seeded, .seeded⟩, outLen := outLen, ai := aiText
    aiLen := BitVec.ofNat 32 aiText.length }

/-- The toy block with micro-operation operands. -/
def toyMicro (a b : Bytes) (len offset : Nat) (bits : Word) : State :=
  { toyState with dp := { Datapath.atReset with bufA := a, bufB := b, len := len, offset := offset, bits := bits } }

/-- The first operand after a micro-operation that works in place. -/
def bufAfter : Host.Outcome State Fault Refusal → Option Bytes
  | .next t => if t.halt then none else some t.dp.bufA
  | .fault _ => none
  | .refused _ => none

/-- The result of a micro-operation that has one. -/
def resAfter : Host.Outcome State Fault Refusal → Option Bytes
  | .next t => if t.halt then none else some t.dp.res
  | .fault _ => none
  | .refused _ => none

theorem test_toy_primitives :
    toyHash [0x61, 0x62, 0x63] = toBE 4 0x1a47e90b ∧
    toyEnc (toBE 8 0xffeeddccbbaa9988) (toBE 8 0x0123456789abcdef) = toBE 8 0x7a0dbfb4f52ca526 := by decide +kernel

/-! ## Byte-math units (section 3.1) -/

theorem test_inc_be :
    bufAfter (exec .incBe (toyMicro [0x12, 0x34, 0xff, 0xff] [] 0 0 0)) = some [0x12, 0x35, 0x00, 0x00] ∧
    bufAfter (exec .incBe (toyMicro [] [] 0 0 0)) = some [] := by decide +kernel

theorem test_xor_into :
    resAfter (exec .xorInto (toyMicro [1, 2, 3] [0xff, 0x10, 0x20, 0x30] 3 1 0)) = some [0x11, 0x22, 0x33] ∧
    resAfter (exec .xorInto (toyMicro [1, 2, 3] [0xff, 0x10, 0x20, 0x30] 3 2 0)) = none := by decide +kernel

theorem test_add_be :
    bufAfter (exec .addBe (toyMicro [1, 2, 3, 4] [0xff, 0xff] 0 0 0)) = some [1, 3, 3, 3] ∧
    bufAfter (exec .addBe (toyMicro [1] [1, 2] 0 0 0)) = none := by decide +kernel

theorem test_shr_bits :
    bufAfter (exec (.shrBits 4) (toyMicro [0xab, 0xcd, 0xef] [] 0 0 0)) = some [0x0a, 0xbc, 0xde] ∧
    bufAfter (exec (.shrBits 0) (toyMicro [0xab] [] 0 0 0)) = none := by decide +kernel

theorem test_shl_bits :
    bufAfter (exec (.shlBits 7) (toyMicro [0xff, 0xff] [] 0 0 0)) = some [0xff, 0x80] ∧
    bufAfter (exec (.shlBits 1) (toyMicro [0x80] [] 0 0 0)) = some [0x00] := by decide +kernel

/-! ## Derivation functions (sections 3.2 and 3.4) -/

theorem test_hash_df :
    (hashDfOp toyPrims (toyMicro [0x61, 0x62, 0x63] [] 0 0 37)).dp.res = toBE 5 0x0a989b05b2 ∧
    (hashDfOp toyPrims (toyMicro [0x61, 0x62, 0x63] [] 0 0 64)).dp.res = toBE 8 0x30e2e62430ad147b := by decide +kernel

theorem test_bcc :
    (bccOp toyPrims (toyMicro (toBE 8 0x0001020304050607)
      (toBE 4 1 ++ zeros 4 ++ toBE 32 0x0000001400000010000102030405060708090a0b0c0d0e0f4e31503180000000) 0 0 0)).dp.res =
      toBE 8 0x16ad356287279e0f := by decide +kernel

theorem test_block_cipher_df :
    (blockCipherDfOp toyPrims (toyMicro (toBE 20 0x000102030405060708090a0b0c0d0e0f4e315031) [] 0 0 128)).dp.res =
      toBE 16 0xdd4813d59598190834c45528e188566b ∧
    (blockCipherDfOp toyPrims (toyMicro [] [] 0 0 128)).dp.res = toBE 16 0x4b23f2495e5f6828cd665a43dedaad9c := by
  decide +kernel

/-! ## The CTR engine (section 4) -/

/-- T-TDEA-1. -/
theorem test_expand_key :
    (expandKeyOp toyPrims { toyMicro ((List.range 21).map (BitVec.ofNat 8)) [] 0 0 0 with
      build := { toyBuild with ctr := ⟨168, 64, true, 112, 21⟩ } }).dp.res =
      toBE 24 0x010140403120150d07850220a158311a0e07c40210914c29 := by decide +kernel

/-- T-CTR-1, its `CTR_UPDATE`. -/
theorem test_ctr_update :
    (ctrUpdateOp toyPrims (toyMicro (toBE 16 0xdd4813d59598190834c45528e188566b) [] 0 0 0)).ctr =
      ⟨toBE 8 0x01f7b6eb9f5702b4, toBE 8 0x8dbb1f54f4966112, 0⟩ := by decide +kernel

/-- T-CTR-1. -/
theorem test_ctr_instantiate :
    (ctrInstantiate toyPrims toyState).ctr = ⟨toBE 8 0x01f7b6eb9f5702b4, toBE 8 0x8dbb1f54f4966112, 1⟩ ∧
    (ctrInstantiate toyPrims toyState).status = 1 := by decide +kernel

/-- T-CTR-3. -/
theorem test_ctr_generate_ai :
    let t := ctrGenerate toyPrims true false { toySeeded 8 [(0, 0x41), (1, 0x49)] with
      ctr := ⟨toBE 8 0xa7ceb0bdc4827c5a, toBE 8 0x848e55fbcf519817, 2⟩ }
    t.ctr = ⟨toBE 8 0x2d330591b495e039, toBE 8 0xb8cb6fa5362f1ab0, 3⟩ ∧
    Memory.readBytes t.out 0 8 = toBE 8 0x9e45d039c36289cd ∧ t.result = 64 := by decide +kernel

/-- T-CTR-7, prediction resistance. -/
theorem test_ctr_generate_pr :
    let t := ctrGenerate toyPrims true true { toySeeded 9 [(0, 0x58)] with
      ctr := ⟨toBE 8 0xe125528bbc0ef517, toBE 8 0x252dcb0aee9cbe0e, 1⟩, entropy := [toyEntropy 2] }
    t.ctr = ⟨toBE 8 0x815544fdc8023e5c, toBE 8 0xa4959fbfbd33229f, 2⟩ ∧
    Memory.readBytes t.out 0 9 = toBE 9 0x3ad48f79dd2075d55e ∧ t.entropy = [] := by decide +kernel

/-- T-CTR-6. -/
theorem test_ctr_reseed :
    (ctrReseed toyPrims true { toySeeded 0 [(0, 0x52), (1, 0x53)] with
      ctr := ⟨toBE 8 0x42c0eb946dd5ae08, toBE 8 0x6d4453d48c22b4ca, 5⟩, entropy := [toyEntropy 1] }).ctr =
      ⟨toBE 8 0xe125528bbc0ef517, toBE 8 0x252dcb0aee9cbe0e, 1⟩ := by decide +kernel

/-! ## The Hash engine (section 5) -/

/-- T-HASH-2, its `HASHGEN`. -/
theorem test_hashgen :
    (hashgenOp toyPrims (toyMicro (toBE 5 0xc00e5ad291) [] 6 0 0)).dp.res = toBE 6 0x385fda8e375f := by decide +kernel

/-- T-HASH-1. -/
theorem test_hash_instantiate :
    (hashInstantiate toyPrims toyState).hash = ⟨toBE 5 0xc00e5ad291, toBE 5 0xbe8072f124, 1⟩ := by decide +kernel

/-- T-HASH-3. -/
theorem test_hash_generate_ai :
    let t := hashGenerate toyPrims true false { toySeeded 4 [(0, 0x41), (1, 0x49)] with
      hash := ⟨toBE 5 0x7f2326837d, toBE 5 0xbe8072f124, 2⟩ }
    t.hash = ⟨toBE 5 0x3f28a82cc2, toBE 5 0xbe8072f124, 3⟩ ∧ Memory.readBytes t.out 0 4 = toBE 4 0x88f1d84f := by
  decide +kernel

/-- T-HASH-7 (a): only the low 32 bits of the counter are added. -/
theorem test_hash_generate_counter :
    (hashGenerate toyPrims false false { toySeeded 1 [] with
      hash := ⟨toBE 5 0xf0e28fe460, toBE 5 0x642eafb129, 4294967301⟩ }).hash =
      ⟨toBE 5 0x558fea5ad3, toBE 5 0x642eafb129, 4294967302⟩ := by decide +kernel

/-- T-HASH-5. -/
theorem test_hash_reseed :
    (hashReseed toyPrims true { toySeeded 0 [(0, 0x52), (1, 0x53)] with
      hash := ⟨toBE 5 0xfe7d23271a, toBE 5 0xbe8072f124, 4⟩, entropy := [toyEntropy 1] }).hash =
      ⟨toBE 5 0xfa621d110a, toBE 5 0x3a082a3839, 1⟩ := by decide +kernel

/-! ## The HMAC engine (section 6) -/

/-- The seed material of T-HMAC-1. -/
def toyMaterial : Bytes := toBE 20 0x000102030405060708090a0b0c0d0e0f4e315031

/-- T-HMAC-1, the `00` pass. -/
theorem test_hmac_update_pass :
    (hmacUpdatePassOp toyPrims false { toyState with
      hmac := ⟨zeros 4, fill 4 1, 1⟩, dp := { Datapath.atReset with material := some toyMaterial } }).hmac =
      ⟨toBE 4 0xbf16818d, toBE 4 0x9e69ec4e, 1⟩ := by decide +kernel

/-- T-HMAC-1, both passes. -/
theorem test_hmac_update :
    (hmacUpdateOp toyPrims { toyState with
      hmac := ⟨zeros 4, fill 4 1, 1⟩, dp := { Datapath.atReset with material := some toyMaterial } }).hmac =
      ⟨toBE 4 0x2fb9d5c2, toBE 4 0x47f09b69, 1⟩ := by decide +kernel

/-- T-HMAC-1. -/
theorem test_hmac_instantiate :
    (hmacInstantiate toyPrims toyState).hmac = ⟨toBE 4 0x2fb9d5c2, toBE 4 0x47f09b69, 1⟩ := by decide +kernel

/-- T-HMAC-3. -/
theorem test_hmac_generate_ai :
    let t := hmacGenerate toyPrims true false { toySeeded 4 [(0, 0x41), (1, 0x49)] with
      hmac := ⟨toBE 4 0x889cddce, toBE 4 0xd2af84a2, 2⟩ }
    t.hmac = ⟨toBE 4 0x6de7b2ca, toBE 4 0x65ba102d, 3⟩ ∧ Memory.readBytes t.out 0 4 = toBE 4 0x3817abf8 := by
  decide +kernel

/-- T-HMAC-4: present and empty differs from absent. -/
theorem test_hmac_generate_empty_ai :
    (hmacGenerate toyPrims true false { toySeeded 3 [] with
      hmac := ⟨toBE 4 0x6de7b2ca, toBE 4 0x65ba102d, 3⟩ }).hmac =
      ⟨toBE 4 0xac61371b, toBE 4 0x780cef7f, 4⟩ := by decide +kernel

/-- T-HMAC-6. -/
theorem test_hmac_reseed :
    (hmacReseed toyPrims false { toySeeded 0 [] with
      hmac := ⟨toBE 4 0x375976c6, toBE 4 0x0ef876af, 5⟩, entropy := [toyEntropy 1] }).hmac =
      ⟨toBE 4 0xa55d6709, toBE 4 0xad39f048, 1⟩ := by decide +kernel

/-! ## The Dual-EC engine (section 7) -/

/-- T-DEC-1. -/
theorem test_dualec_instantiate :
    (dualecInstantiate toyPrims toyState).dualec = ⟨toBE 5 0x0f277854b3, .p256, 0⟩ := by decide +kernel

/-- T-DEC-2. -/
theorem test_dualec_generate :
    let t := dualecGenerate toyPrims false false { toySeeded 7 [] with dualec := ⟨toBE 5 0x0f277854b3, .p256, 0⟩ }
    t.dualec = ⟨toBE 5 0x0b7d12d081, .p256, 3⟩ ∧ Memory.readBytes t.out 0 7 = toBE 7 0x0cf73326e59a74 ∧
      t.result = 56 := by decide +kernel

/-- T-DEC-6. -/
theorem test_dualec_generate_pr :
    let t := dualecGenerate toyPrims true true { toySeeded 4 [(0, 0x58)] with
      dualec := ⟨toBE 5 0x0b98d30681, .p256, 0⟩, entropy := [toyEntropy 2] }
    t.dualec = ⟨toBE 5 0x0f22e65854, .p256, 2⟩ ∧ Memory.readBytes t.out 0 4 = toBE 4 0x63865f2a := by decide +kernel

/-- T-DEC-5. -/
theorem test_dualec_reseed :
    (dualecReseed toyPrims true { toySeeded 0 [(0, 0x52), (1, 0x53)] with
      dualec := ⟨toBE 5 0x05227125af, .p256, 4⟩, entropy := [toyEntropy 1] }).dualec =
      ⟨toBE 5 0x0b98d30681, .p256, 0⟩ := by decide +kernel

/-- R66: an answer of the primitive at or above the field prime is brought below it; a point at infinity has none. -/
theorem test_ecmulx_below_the_prime :
    let p := { toyPrims with ecMulX := fun _ _ n => 2 ^ 37 - 25 + n }
    portEcMulX p .p256 toyBuild.p256 ⟨0, 0⟩ 11 3 = some 3 ∧ portEcMulX p .p256 toyBuild.p256 ⟨0, 0⟩ 11 22 = none := by
  decide +kernel

/-- R24, R219 (f): a prime that does not fit `seedlen`, and a base point at the prime, make no legal build. -/
theorem test_curve_refuses_prime :
    buildLegal { referenceBuild with p256 := { referenceBuild.p256 with prime := 2 ^ 256 } } = false ∧
    buildLegal { referenceBuild with p521 := { referenceBuild.p521 with q := ⟨2 ^ 521 - 1, 0⟩ } } = false := by
  decide +kernel

/-- T-DEC-5, its `PAD8`. -/
theorem test_pad8 :
    resAfter (exec .pad8 (toyMicro (toBE 5 0x05227125af) [] 0 0 0)) = some (toBE 5 0x2913892d78) := by decide +kernel

/-! ## Contract, outcomes and STATUS (section 8) -/

/-- T-CHK-1: the strength test comes before the entropy test. -/
theorem test_strength_chk :
    strengthCheck { toyBuild with ctr := ⟨256, 128, false, 256, 0⟩ } .ctr 128 = none ∧
    strengthCheck { toyBuild with ctr := ⟨256, 128, false, 256, 0⟩ } .ctr 129 = some .entropyUnderProvisioned ∧
    strengthCheck { toyBuild with ctr := ⟨256, 128, false, 256, 0⟩ } .ctr 257 = some .strengthNotSupported := by
  decide +kernel

/-- T-ST-1. -/
theorem test_status :
    State.status { toyState with phases := ⟨.reseedRequired, .uninit, .uninit, .uninit⟩, err := .reseedRequired } =
      0x00001003 ∧
    State.status { toyState with phases := ⟨.uninit, .seeded, .uninit, .uninit⟩, err := .entropyFailure } =
      0x00006004 ∧
    State.status { toyState with
      phases := ⟨.seeded, .uninit, .uninit, .uninit⟩, err := .contractViolation, halt := true } = 0x00007201 := by
  decide +kernel

/-- T-CTR-8 (b) and T-CTR-9: the size check precedes the ceiling check. -/
theorem test_ceiling_after_size :
    (ctrGenerate toyPrims false true { toySeeded 1 [] with
      ctr := ⟨zeros 8, zeros 8, 140737488355329⟩ }).err = .reseedRequired ∧
    (ctrGenerate toyPrims false true { toySeeded 32769 [] with
      ctr := ⟨zeros 8, zeros 8, 140737488355329⟩ }).result = 0xFFFFFFFFFFFFFFFC := by decide +kernel

/-! ## Witnesses: for each statement with hypotheses, a state and operands that meet them, clause by clause -/

/-- The reference build just reset, with what the outside world does next. -/
def refState (agenda : List Input) : State := { State.resetOf referenceBuild with agenda := agenda }

/-- The reference build with every engine seeded, one byte requested and two entropy answers ready. -/
def refSeeded : State :=
  { State.resetOf referenceBuild with
    phases := ⟨.seeded, .seeded, .seeded, .seeded⟩
    ctr := ⟨zeros 16, zeros 16, 1⟩, hash := ⟨zeros 55, zeros 55, 1⟩, hmac := ⟨zeros 32, zeros 32, 1⟩
    dualec := ⟨toBE 32 5, .p256, 0⟩
    outLen := 1, entropy := [.ok [1, 2, 3], .fail] }

/-- The build with a TDEA cipher. -/
def tdeaBuild : Build := { referenceBuild with ctr := ⟨168, 64, true, 112, 21⟩ }

/-- The latch of an accepted word. -/
def latchOf (w : Word) (target : Option (Engine × Phase)) : Latch := ⟨w, 0, 0, 0, 0, 0, target⟩

theorem witness_DecodeOfEncode :
    Instr.wf (.shrBits 1) = true ∧ Instr.wf (.shlBits 7) = true ∧ Instr.wf (.hmacGenerate true false) = true := by decide

theorem witness_EncodeOfDecode : decode 0x52000002 = .ok (.dualecReseed true) := by decide

/-- One word for each clause, at the ends of its range. -/
theorem witness_ReservedWordsRejected :
    ((0x60000000 : Word).extractLsb' 28 4).toNat = 6 ∧ ((0xF0000000 : Word).extractLsb' 28 4).toNat = 15 ∧
    ((0x23000000 : Word).extractLsb' 24 4).toNat = 3 ∧ ((0x57000000 : Word).extractLsb' 24 4).toNat = 7 ∧
    (0x22000004 : Word) &&& 0x00FFFFFC ≠ 0 ∧ (0x52000001 : Word) &&& 1 ≠ 0 ∧ (0x20000002 : Word) &&& 3 ≠ 0 := by decide

/-- A command in flight, and a micro-operation word issued. -/
theorem witness_StepRunsTheInstruction :
    (let s := { refSeeded with inflight := some (latchOf 0x21000000 (some (.ctr, .seeded))) }
     s.uop = none ∧ s.agenda = [] ∧ decode 0x21000000 = .ok (.ctrGenerate false false) ∧
      (Instr.ctrGenerate false false).command.isSome = true) ∧
    (let s := { refState [.host .poll] with uop := some 0x10000000 }
     s.uop = some 0x10000000 ∧ s.agenda = .host .poll :: [] ∧ decode 0x10000000 = .ok .hashDf ∧
      Instr.hashDf.command.isNone = true) := ⟨⟨rfl, rfl, rfl, rfl⟩, rfl, rfl, rfl, rfl⟩

theorem witness_FetchedWordRuns :
    Instr.hashInstantiate.wf = true ∧ Instr.hashInstantiate.command.isSome = true ∧
    (Instr.shrBits 7).wf = true ∧ (Instr.shrBits 7).command.isNone = true := by decide

/-- A reserved word, a micro-operation word, and a word of an absent engine. -/
theorem witness_IllegalCommandWord :
    (let s := refState [.host (.wr 0 0x60000000), .block]
     s.busy = false ∧ s.halt = false ∧ ∀ i, decode 0x60000000 = .ok i →
      i.command = none ∨ ∃ e op, i.command = some (e, op) ∧ hasEngine s.build e = false) ∧
    (let s := refState [.host (.wr 0 0x28000000), .block]
     s.busy = false ∧ s.halt = false ∧ ∀ i, decode 0x28000000 = .ok i →
      i.command = none ∨ ∃ e op, i.command = some (e, op) ∧ hasEngine s.build e = false) ∧
    (let s := State.resetOf { referenceBuild with hasDualec := false }
     s.busy = false ∧ s.halt = false ∧ ∀ i, decode 0x50000000 = .ok i →
      i.command = none ∨ ∃ e op, i.command = some (e, op) ∧ hasEngine s.build e = false) := by
  refine ⟨⟨rfl, rfl, fun i h => ?_⟩, ⟨rfl, rfl, fun i h => .inl ?_⟩, rfl, rfl, fun i h => .inr ⟨.dualec, .instantiate, ?_⟩⟩
  · exact absurd (h.symm.trans (rfl : decode 0x60000000 = .error .reservedUnit)) nofun
  · obtain rfl := Except.ok.inj (h.symm.trans (rfl : decode 0x28000000 = .ok .ctrUpdate)); rfl
  · obtain rfl := Except.ok.inj (h.symm.trans (rfl : decode 0x50000000 = .ok .dualecInstantiate)); exact ⟨rfl, rfl⟩

/-- Idle, busy, halted, and a read. -/
theorem witness_CommandRegister :
    (let s := refState [.host (.wr 0 0x20000000)]
     s.agenda = .host (.wr 0 0x20000000) :: [] ∧ s.busy = false ∧ s.halt = false) ∧
    State.busy { refState [.host (.wr 0 0)] with uop := some 0 } = true ∧
    (let s := { refState [.host (.wr 0 0)] with halt := true, err := .contractViolation }
     s.busy = false ∧ s.halt = true) ∧
    (refState [.host (.rd 0)]).busy = false := by decide

theorem witness_AcceptanceLatchesThePhase :
    refSeeded.busy = false ∧ refSeeded.halt = false ∧ decode 0x41000000 = .ok (.hmacGenerate false false) ∧
    (Instr.hmacGenerate false false).command = some (.hmac, .generate) ∧ hasEngine refSeeded.build .hmac = true ∧
    refSeeded.phases.get .hmac ≠ .uninit ∧ (refState []).phases.get .hmac = .uninit := by decide

/-- A read, a write, and the first register that does not exist. -/
theorem witness_HostRegisterMap :
    ((7, (refState []).nonceLen.setWidth 64) : Nat × BitVec 64) ∈ [(6, 1), (7, 0)] ∧
    (refState [.host (.rd 8)]).agenda = .host (.rd 8) :: [] ∧ 8 ≤ 8 ∧
    (refState [.host (.wr 1 5)]).busy = false ∧ (refState [.host (.wr 1 5)]).agenda = .host (.wr 1 5) :: [] := by decide

theorem witness_BusyHazard :
    (let s := { refState [.host (.rd 2)] with inflight := some (latchOf 0x20000000 (some (.ctr, .uninit))) }
     s.busy = true ∧ s.agenda = .host (.rd 2) :: []) := by decide

/-- A fill that ends at the last byte, one byte more, and the same for a dump. -/
theorem witness_BufferAccess :
    (refState [.host (.fill .ai (zeros 512))]).busy = false ∧ (zeros 512).length ≤ capacity referenceBuild .ai ∧
    Memory.wf ((refState []).buffer .ai) = true ∧ capacity referenceBuild .ai < (zeros 513).length ∧
    512 ≤ capacity referenceBuild .nonce ∧ capacity referenceBuild .nonce < 513 := by decide +kernel

theorem witness_HardwareReset : (refState [.reset]).agenda = .reset :: [] := rfl

/-- The invariant holds in a state where every engine is seeded. -/
theorem refSeeded_inv : Inv refSeeded where
  legal := by decide +kernel
  widths := ⟨by decide, by decide, by decide, by decide, by decide, by decide, by decide⟩
  buffers := fun sp => by cases sp <;> decide
  halted := ⟨by decide, by decide⟩
  counters := fun _ e _ => by cases e <;> decide
  scalar := fun _ _ => by decide +kernel
  signal := fun _ e _ h => by cases e <;> exact absurd h (by decide)
  flight := fun _ e => by cases e <;> decide

/-- A seeded block that accepts a GENERATE: the invariant, the step, and an engine that is not `UNINIT`. -/
theorem witness_StepKeepsTheInvariant :
    Inv refSeeded ∧ step refSeeded = .next refSeeded ∧ (∀ rest, refSeeded.agenda ≠ .reset :: rest) ∧
      refSeeded.phases.get .ctr ≠ .uninit := ⟨refSeeded_inv, rfl, nofun, by decide⟩

/-- A block halted with the invariant. -/
theorem witness_OnlyResetUninstantiates :
    Inv { refSeeded with halt := true, err := .contractViolation } ∧
      step { refSeeded with halt := true, err := .contractViolation } =
        .next { refSeeded with halt := true, err := .contractViolation } := by
  have h := refSeeded_inv
  exact ⟨⟨h.legal, ⟨h.widths.1, h.widths.2, h.widths.3, h.widths.4, h.widths.5, h.widths.6, h.widths.7⟩,
    fun sp => by cases sp <;> decide, ⟨by decide, by decide⟩, nofun, nofun, nofun, nofun⟩, rfl⟩

theorem witness_EnginesAreIsolated :
    (Instr.hmacReseed false).command = some (.hmac, .reseed) ∧ Engine.ctr ≠ .hmac ∧
      exec (.hmacReseed false) refSeeded = .next (hmacReseed Config.prims false refSeeded) := ⟨rfl, nofun, rfl⟩

/-- Two states that differ in the registers of an `UNINIT` engine. -/
theorem witness_HostCommandsNeverReadUninitRegisters :
    let s := { refSeeded with phases := ⟨.uninit, .seeded, .seeded, .seeded⟩ }
    let s' := { s with ctr := ⟨fill 16 7, fill 16 9, 5⟩ }
    Inv s ∧ s.uop = none ∧ s.visible = s'.visible ∧ s ≠ s' := by
  have h := refSeeded_inv
  exact ⟨⟨h.legal, ⟨h.widths.1, h.widths.2, h.widths.3, h.widths.4, h.widths.5, h.widths.6, h.widths.7⟩,
    fun sp => by cases sp <;> decide, ⟨by decide, by decide⟩, fun _ e _ => by cases e <;> decide,
    fun _ _ => by decide +kernel, fun _ e _ h => by cases e <;> exact absurd h (by decide),
    fun _ e => by cases e <;> decide⟩, rfl, rfl, fun h => absurd (congrArg (·.ctr.reseedCounter) h) (by decide)⟩

theorem witness_PredictionResistance :
    refSeeded.inflight = none ∧ refSeeded.entropy = .ok [1, 2, 3] :: [.fail] ∧
    exec (generateOf .hmac true true) refSeeded = .next (hmacGenerate Config.prims true true refSeeded) ∧
    (hmacGenerate Config.prims true true refSeeded).err = .ok := ⟨rfl, rfl, rfl, rfl⟩

/-- A GENERATE of one byte that ends without a halt. -/
theorem witness_InstructionFrame :
    exec (.hmacGenerate false false) refSeeded = .next (hmacGenerate Config.prims false false refSeeded) ∧
    Memory.wf refSeeded.out = true ∧ refSeeded.halt = false ∧
    (hmacGenerate Config.prims false false refSeeded).halt = false ∧
    Instr.hmacGenerate false false = generateOf .hmac false false ∧ refSeeded.outLenOp ≤ 1 :=
  ⟨rfl, rfl, rfl, rfl, rfl, by decide⟩

theorem witness_OutcomesAreAllOrNothing :
    (Instr.hashReseed false).command = some (.hash, .reseed) ∧
    exec (.hashReseed false) (refState []) = .next (hashReseed Config.prims false (refState [])) ∧
    (hashReseed Config.prims false (refState [])).err = .illegalState := ⟨rfl, rfl, rfl⟩

/-- A strength too great by one with no entropy answer (as in P3, step 2), and a ready command with an answer. -/
theorem witness_InstantiateOutcome :
    (let s := { refState [] with strength := 257 }
     buildLegal s.build = true ∧ s.entropy = [] ∧ ¬StrengthSupported .hash s ∧
      (InstantiateReady .hash s → s.entropy ≠ [])) ∧
    (let s := { refState [] with strength := 256, entropy := [.fail] }
     buildLegal s.build = true ∧ InstantiateReady .hash s ∧ s.entropy ≠ []) :=
  ⟨⟨by decide +kernel, rfl, by decide, fun h => absurd h (by decide)⟩, by decide +kernel, by decide, nofun⟩

/-- A request too large by one with no entropy answer, and a ready one with an answer. -/
theorem witness_GenerateOutcome :
    (let s := { refSeeded with outLen := 32769, entropy := [] }
     buildLegal s.build = true ∧ WidthsOk s ∧ ¬RequestFits .hash s ∧
      (true = true → GenerateReady .hash true s → s.entropy ≠ [])) ∧
    buildLegal refSeeded.build = true ∧ WidthsOk refSeeded ∧ GenerateReady .dualec true refSeeded ∧
    refSeeded.entropy ≠ [] :=
  let h := refSeeded_inv.widths
  ⟨⟨by decide +kernel, ⟨h.1, h.2, h.3, h.4, h.5, h.6, h.7⟩, by decide, fun _ h => absurd h (by decide)⟩,
    by decide +kernel, h, by decide, nofun⟩

/-- An input too large by one with no entropy answer, and a ready command with an answer. -/
theorem witness_ReseedOutcome :
    (let s := { refSeeded with aiLen := 513, entropy := [] }
     buildLegal s.build = true ∧ WidthsOk s ∧ ¬InputFits .dualec true s ∧
      (ReseedReady .dualec true s → s.entropy ≠ [])) ∧
    buildLegal refSeeded.build = true ∧ WidthsOk refSeeded ∧ ReseedReady .dualec true refSeeded ∧
    refSeeded.entropy ≠ [] :=
  let h := refSeeded_inv.widths
  ⟨⟨by decide +kernel, ⟨h.1, h.2, h.3, h.4, h.5, h.6, h.7⟩, by decide, fun h => absurd h (by decide)⟩,
    by decide +kernel, h, by decide, nofun⟩

/-- One bit above each maximum. -/
theorem witness_RequestTooLarge :
    hasEngine referenceBuild .dualec = true ∧ refSeeded.p0 .dualec ≠ .uninit ∧
    referenceBuild.outCap < State.outLenOp { refSeeded with outLen := 32769 } ∧
    2 ^ 18 < State.outLenOp { refSeeded with outLen := 32769 } * 8 ∧
    (let s := { refSeeded with build := tdeaBuild, outLen := 513 }
     s.build.ctr.isTdea = true ∧ 2 ^ 12 < s.outLenOp * 8 ∧ s.p0 .ctr ≠ .uninit) := by decide

theorem witness_IllegalState :
    hasEngine referenceBuild .ctr = true ∧ refSeeded.p0 .ctr ≠ .uninit ∧ (refState []).p0 .ctr = .uninit ∧
    instantiateOf .ctr = .ctrInstantiate ∧ generateOf .ctr true false = .ctrGenerate true false ∧
    reseedOf .ctr true = .ctrReseed true := by decide

/-- Every engine seeded, its counter one above its ceiling. -/
def refPast : State :=
  { refSeeded with
    ctr := ⟨[], [], 140737488355329⟩, hash := ⟨[], [], 140737488355329⟩, hmac := ⟨[], [], 140737488355329⟩
    dualec := ⟨[], .p256, 2147483648⟩ }

theorem witness_ReseedRequiredSignal :
    (hasEngine refPast.build .ctr = true ∧ refPast.p0 .ctr ≠ .uninit ∧ RequestFits .ctr refPast ∧
      InputFits .ctr true refPast ∧ ¬BelowCeiling .ctr refPast) ∧
    (¬BelowCeiling .hash refPast ∧ ¬BelowCeiling .hmac refPast) ∧
    (RequestFits .dualec refPast ∧ InputFits .dualec true refPast ∧ ¬BelowCeiling .dualec refPast) :=
  ⟨by decide, by decide, by decide⟩

theorem witness_EntropyFailureAndStall :
    InstantiateReady .dualec (refState []) ∧ (refState []).entropy = [] ∧ GenerateReady .dualec true refSeeded ∧
    ReseedReady .dualec true { refSeeded with entropy := [.fail] } ∧
    { refSeeded with entropy := [.fail] }.entropy = .fail :: [] := by decide

/-- INSTANTIATE of every engine at the greatest strength it supports. -/
theorem witness_InstantiateCompletes :
    let s := { refState [] with strength := 128, entropy := [.ok [1, 2, 3]] }
    let s256 := { s with strength := 256 }
    buildLegal s.build = true ∧ InstantiateReady .ctr s ∧ InstantiateReady .hash s256 ∧ InstantiateReady .hmac s256 ∧
      InstantiateReady .dualec s256 ∧ s.entropy = .ok [1, 2, 3] :: [] := by decide +kernel

/-- Every engine seeded, and the greatest request of CTR, Hash and HMAC. -/
def refGreatest : State := { refSeeded with outLen := 32768 }

theorem witness_GenerateCompletes :
    (buildLegal refGreatest.build = true ∧ refGreatest.entropy = .ok [1, 2, 3] :: [.fail]) ∧
      (GenerateReady .ctr true refGreatest ∧ GenerateReady .ctr false refGreatest) ∧
      (GenerateReady .hash true refGreatest ∧ GenerateReady .hash false refGreatest) ∧
      GenerateReady .hmac true refGreatest ∧ GenerateReady .hmac false refGreatest :=
  ⟨by decide +kernel, by decide, by decide, by decide⟩

theorem witness_GenerateWidths : WidthsOk refGreatest :=
  let h := refSeeded_inv.widths
  ⟨h.1, h.2, h.3, h.4, h.5, h.6, h.7⟩

theorem witness_ReseedCompletes :
    buildLegal refSeeded.build = true ∧ ReseedReady .ctr true refSeeded ∧ ReseedReady .hash true refSeeded ∧
      ReseedReady .hmac true refSeeded ∧ ReseedReady .dualec true refSeeded := by decide +kernel

/-- A seed of the length, and one of another. -/
theorem witness_CtrUpdateCompletes :
    ctrLegal refSeeded.build.ctr = true ∧ WidthsOk refSeeded ∧ (zeros 32).length = ctrSeedBytes refSeeded.build.ctr ∧
      (zeros 31).length ≠ ctrSeedBytes refSeeded.build.ctr := ⟨by decide, refSeeded_inv.widths, by decide, by decide⟩

theorem witness_ExpandKeyCompletes :
    (refState []).build.ctr.isTdea = false ∧ tdeaBuild.ctr.isTdea = true ∧ (zeros 21).length = tdeaBuild.ctr.expandTakes ∧
      (zeros 20).length ≠ tdeaBuild.ctr.expandTakes ∧ buildLegal tdeaBuild = true := by decide +kernel

/-- No block, two blocks, and a block and a byte. -/
theorem witness_BccCompletes :
    ctrLegal referenceBuild.ctr = true ∧ (zeros 16).length = ctrKeyBytes referenceBuild.ctr ∧
      ([] : Bytes).length = 0 * ctrBlockBytes referenceBuild.ctr ∧
      (zeros 32).length = 2 * ctrBlockBytes referenceBuild.ctr ∧
      (zeros 17).length % ctrBlockBytes referenceBuild.ctr ≠ 0 := by decide

theorem witness_BlockCipherDfCompletes :
    ctrLegal referenceBuild.ctr = true ∧ (256 : Word).toNat % 8 = 0 ∧ (7 : Word).toNat % 8 ≠ 0 := by decide

/-- The greatest length whose counter stays at 255, and the first above it. -/
theorem witness_HashDfCompletes :
    0 < (digestOf Config.prims referenceBuild .hashDigest).2 ∧ 0 < (digestOf Config.prims referenceBuild .dualecDigest).2 ∧
      ceilDiv (65272 : Word).toNat 8 / referenceBuild.hash.digestSize + 1 ≤ 255 ∧
      255 < ceilDiv (65280 : Word).toNat 8 / referenceBuild.hash.digestSize + 1 := by decide

theorem witness_HashgenCompletes : hashLegal (refState []).build.hash = true := by decide

theorem witness_HmacUpdateCompletes :
    (refState []).dp.material = none ∧
      ({ refState [] with dp := { Datapath.atReset with material := some [] } } : State).dp.material ≠ none := by decide

/-- The running values of the Dual-EC loop from a first value. -/
def svFrom (t : Nat) : Nat → Option Nat
  | 0 => some t
  | j + 1 => (svFrom t j).bind fun k =>
      portEcMulX Config.prims refSeeded.dualec.row refSeeded.curve refSeeded.curve.p refSeeded.curve.pOrder k

/-- A request of one byte: the plain form, the form with an additional input, and the form with prediction
resistance. -/
theorem witness_DualecGenerateResult :
    GenerateReady .dualec true refSeeded ∧ refSeeded.entropy = .ok [1, 2, 3] :: [.fail] ∧
      ceilDiv refSeeded.outLenOp refSeeded.curve.outlen = 1 ∧ be refSeeded.dualec.s = 5 ∧
      svFrom 5 0 = some 5 ∧
      (∃ d x, hashDf (portDualecHash Config.prims refSeeded.build.dualec) refSeeded.build.dualec.digestSize
        (orEmpty (refSeeded.aiIn true)) refSeeded.curve.seedlen = some d ∧
        xorBytes (curveSeedBytes refSeeded.curve) refSeeded.dualec.s d 0 = some x) ∧
      ∃ r0, dualecReseedOf Config.prims refSeeded.build refSeeded.dualec [1, 2, 3] (orEmpty (refSeeded.aiIn true)) =
        some r0 := by
  refine ⟨by decide, rfl, by decide, by decide +kernel, rfl, ?_, ?_⟩
  · obtain ⟨d, hd, hl, -⟩ := dualecDf_some (p := Config.prims) refSeeded_inv.legal .p256 (orEmpty (refSeeded.aiIn true))
    have hl' : d.length = 32 := hl
    obtain ⟨x, hx, -⟩ := xorBytes_some (n := curveSeedBytes refSeeded.curve) (a := refSeeded.dualec.s) (b := d)
      (off := 0) (by decide) (by rw [hl']; decide)
    exact ⟨d, x, hd, hx⟩
  · obtain ⟨r, hr, -⟩ := dualecReseedOf_some (p := Config.prims) refSeeded_inv.legal refSeeded.dualec [1, 2, 3]
      (orEmpty (refSeeded.aiIn true))
    exact ⟨r, hr⟩

theorem witness_DualecGenerateOfNoBytesCompletes :
    let s := { refSeeded with outLen := 0 }
    GenerateReady .dualec false s ∧ s.outLenOp = 0 ∧ be s.dualec.s % s.curve.pOrder ≠ 0 := by decide +kernel

theorem witness_DualecInfinityHalts :
    let s := { refSeeded with dualec := ⟨zeros 32, .p256, 0⟩ }
    GenerateReady .dualec false s ∧ be s.dualec.s % s.curve.pOrder = 0 := by decide +kernel

theorem witness_Pad8Completes :
    let s := { refSeeded with dualec := ⟨zeros 66, .p521, 0⟩, dp := { Datapath.atReset with bufA := zeros 65 ++ [1] } }
    s.dp.bufA.length = curveSeedBytes s.curve ∧ be s.dp.bufA < 2 ^ s.curve.seedlen ∧ s.curve.seedlen % 8 = 1 := by
  decide +kernel

/-- Operands that just reach, and each one a byte too short. -/
theorem witness_XorIntoCompletes :
    let s := toyMicro [1, 2, 3] [4, 5, 6, 7] 3 1 0
    (s.dp.len ≤ s.dp.bufA.length ∧ s.dp.len + s.dp.offset ≤ s.dp.bufB.length) ∧
      (toyMicro [1, 2] [4, 5, 6, 7] 3 1 0).dp.bufA.length < 3 ∧ (toyMicro [1, 2, 3] [4, 5, 6] 3 1 0).dp.bufB.length < 3 + 1 :=
  by decide

theorem witness_AddBeCompletes :
    (toyMicro [1, 2] [3, 4] 0 0 0).dp.bufB.length ≤ (toyMicro [1, 2] [3, 4] 0 0 0).dp.bufA.length ∧
      (toyMicro [1] [3, 4] 0 0 0).dp.bufA.length < (toyMicro [1] [3, 4] 0 0 0).dp.bufB.length := by decide

theorem witness_IncBeCompletes : incBE (fill 3 0xFF) = zeros 3 ∧ incBE^[256 ^ 1] (zeros 1) = zeros 1 := by decide +kernel

theorem witness_ShiftBitsComplete :
    (1 : BitVec 3) ≠ 0 ∧ (7 : BitVec 3) ≠ 0 ∧ 1 ≤ 1 ∧ 7 ≤ 7 ∧
      (shlBytes [0x01, 0xff] 7).bind (fun x => shrBytes x 7) = some [0x01, 0xff] := by decide

/-- The strength at the bound, one above it (alone, and in an INSTANTIATE in flight), and one above what the entropy
source provides. -/
theorem witness_StrengthChkCompletes :
    (let s := { refState [] with strength := 128 }
     StrengthSupported s.dp.engine s ∧ s.strengthOp ≤ s.build.entropyBits) ∧
    ¬StrengthSupported .ctr { refState [] with strength := 129 } ∧
    (let l := { latchOf 0x20000000 (some (.ctr, .uninit)) with strength := 129 }
     let s := { refState [] with inflight := some l }
     ¬StrengthSupported s.dp.engine s ∧ s.target = some (.ctr, .uninit)) ∧
    (let s := { State.resetOf { referenceBuild with entropyBits := 127 } with strength := 128 }
     StrengthSupported s.dp.engine s ∧ s.build.entropyBits < s.strengthOp) := by decide

end Sys2Proof.Tests
end

section
/-! PROOF. The step by the head of the agenda and the host's access to an idle block: the register map, the hazard
guard, and what an access can change (R30, R60, R90, R310). -/

namespace Sys2Proof.Machine

/-! ## The step, by the next input -/

theorem step_idle {s : State} (h : s.agenda = []) : step s = blockTurn s := by
  simp only [step, turn, h]

theorem step_block {s : State} {rest : List Input} (h : s.agenda = .block :: rest) :
    step s = blockTurn { s with agenda := rest } := by
  simp only [step, turn, h]

theorem step_entropy {s : State} {a : EntropyAnswer} {rest : List Input} (h : s.agenda = .entropy a :: rest) :
    step s = .next { s with agenda := rest, entropy := s.entropy ++ [a] } := by
  simp only [step, turn, h]

theorem step_reset {s : State} {rest : List Input} (h : s.agenda = .reset :: rest) :
    step s = .next { s.hwReset with agenda := rest } := by
  simp only [step, turn, h]

/-- A `POLL` gives a busy block the turn and stays; on an idle block it is the read of `STATUS` (R90). -/
theorem step_poll {s : State} {rest : List Input} (h : s.agenda = .host .poll :: rest) :
    step s = if s.busy then blockTurn s else hostAccess .poll { s with agenda := rest } := by
  simp only [step, turn, h, pollTurn]

/-- Every other host step is one access. -/
theorem step_host {s : State} {x : HostStep} {rest : List Input} (h : s.agenda = .host x :: rest) (hx : x ≠ .poll) :
    step s = hostAccess x { s with agenda := rest } := by
  cases x with
  | poll => exact absurd rfl hx
  | wr reg value => simp only [step, turn, h]
  | rd reg => simp only [step, turn, h]
  | fill sp bytes => simp only [step, turn, h]
  | dump sp n => simp only [step, turn, h]

/-! ## The hazard guard (R310) -/

theorem guarded_idle {s : State} (h : s.busy = false) (r : Bool) (x : Host.Outcome State Fault Refusal) :
    guarded r s x = x := by
  simp [guarded, h]

theorem guarded_busy {s : State} (h : s.busy = true) (x : Host.Outcome State Fault Refusal) :
    guarded true s x = .fault .hostHazard := by
  simp [guarded, h]

/-- A register that does not exist is no hazard. -/
theorem guarded_absent (s : State) (x : Host.Outcome State Fault Refusal) : guarded false s x = x := by
  simp [guarded]

theorem guarded_next {s t : State} {r : Bool} {x : Host.Outcome State Fault Refusal} (h : guarded r s x = .next t) :
    x = .next t ∧ (s.busy = false ∨ r = false) := by
  unfold guarded at h
  split at h
  · cases h
  · rename_i hg
    refine ⟨h, ?_⟩
    cases hb : s.busy <;> simp_all

/-! ## The registers (R30, R31) -/

theorem writeCmd_halted {s : State} (h : s.halt = true) (w : Word) :
    s.writeCmd w = { s with err := .contractViolation } := by
  simp [State.writeCmd, h]

theorem writeCmd_running {s : State} (h : s.halt = false) (w : Word) : s.writeCmd w = s.accept w := by
  simp [State.writeCmd, h]

theorem readReg_some {s : State} {n : Nat} {v : BitVec 64} (h : regValue n s = some v) :
    readReg n s = .next { s with hostReg := v } := by
  simp only [readReg, h]

theorem readReg_absent {n : Nat} (h : 8 ≤ n) (s : State) : readReg n s = .refused (.noSuchRegister n) := by
  obtain ⟨k, rfl⟩ := Nat.exists_eq_add_of_le' h
  rfl

theorem writeReg_absent {n : Nat} (h : 8 ≤ n) (v : Word) (s : State) :
    writeReg n v s = .refused (.noSuchRegister n) := by
  obtain ⟨k, rfl⟩ := Nat.exists_eq_add_of_le' h
  rfl

theorem hostAccess_rd_absent {n : Nat} (h : 8 ≤ n) (s : State) :
    hostAccess (.rd n) s = .refused (.noSuchRegister n) := by
  have hn : ¬ n < 8 := by omega
  simp [hostAccess, hn, guarded_absent, readReg_absent h]

theorem hostAccess_wr_absent {n : Nat} (h : 8 ≤ n) (v : Word) (s : State) :
    hostAccess (.wr n v) s = .refused (.noSuchRegister n) := by
  have hn : ¬ n < 8 := by omega
  simp [hostAccess, hn, guarded_absent, writeReg_absent h]

theorem hostAccess_rd_idle {s : State} (h : s.busy = false) {n : Nat} {v : BitVec 64} (hv : regValue n s = some v) :
    hostAccess (.rd n) s = .next { s with hostReg := v } :=
  (guarded_idle h _ _).trans (readReg_some hv)

theorem hostAccess_wr_idle {s : State} (h : s.busy = false) (n : Nat) (v : Word) :
    hostAccess (.wr n v) s = writeReg n v s :=
  guarded_idle h _ _

/-- Settles O9: the four cases of a `CMD` access by `BUSY` and `HALT`. -/
theorem commandRegister : Obligations.CommandRegister := by
  intro s w rest
  refine ⟨fun ha hb hh => ?accepted, fun ha hb => ?hazard, fun ha hb hh => ?ignored, fun ha hb => ?read, rfl⟩
  case accepted =>
    refine ⟨State.accept w { s with agenda := rest }, _, ?_, rfl, rfl, rfl, rfl, rfl, rfl, rfl, rfl, rfl⟩
    rw [step_host ha nofun, hostAccess_wr_idle (s := { s with agenda := rest }) hb]
    exact congrArg _ (writeCmd_running (s := { s with agenda := rest }) hh w)
  case hazard =>
    rw [step_host ha nofun]
    exact guarded_busy (s := { s with agenda := rest }) hb _
  case ignored =>
    rw [step_host ha nofun, hostAccess_wr_idle (s := { s with agenda := rest }) hb]
    exact congrArg _ (writeCmd_halted (s := { s with agenda := rest }) hh w)
  case read =>
    rw [step_host ha nofun]
    exact hostAccess_rd_idle (s := { s with agenda := rest }) hb rfl

/-- Settles O11: one case per register of R30, and one for all the numbers above them. -/
theorem hostRegisterMap : Obligations.HostRegisterMap := by
  intro s n rest
  refine ⟨fun x hb ha hx => ?read, fun v t hb ha ht => ?write, fun hn ha => ?noRead, fun v hn ha => ?noWrite⟩
  case read =>
    rw [step_host ha nofun]
    refine hostAccess_rd_idle (s := { s with agenda := rest }) hb ?_
    simp only [List.mem_cons, Prod.mk.injEq, List.not_mem_nil, or_false] at hx
    rcases hx with ⟨rfl, rfl⟩ | ⟨rfl, rfl⟩ | ⟨rfl, rfl⟩ | ⟨rfl, rfl⟩ | ⟨rfl, rfl⟩ | ⟨rfl, rfl⟩ | ⟨rfl, rfl⟩ |
      ⟨rfl, rfl⟩ <;> rfl
  case write =>
    rw [step_host ha nofun, hostAccess_wr_idle (s := { s with agenda := rest }) hb]
    simp only [List.mem_cons, Prod.mk.injEq, List.not_mem_nil, or_false] at ht
    rcases ht with ⟨rfl, rfl⟩ | ⟨rfl, rfl⟩ | ⟨rfl, rfl⟩ | ⟨rfl, rfl⟩ | ⟨rfl, rfl⟩ | ⟨rfl, rfl⟩ | ⟨rfl, rfl⟩ <;> rfl
  case noRead => rw [step_host ha nofun, hostAccess_rd_absent hn]
  case noWrite => rw [step_host ha nofun, hostAccess_wr_absent hn]

/-! ## What an access can change, and that it passes by the working registers (R38) -/

/-- What a host access that goes on can do: set an operand register or what the host has read, have a command
accepted, record the write to a halted block, or fill a buffer. -/
inductive HostEnds (s t : State) : Prop where
  | quiet (h : t = { s with
      strength := t.strength, outLen := t.outLen, aiLen := t.aiLen, persLen := t.persLen, nonceLen := t.nonceLen
      hostReg := t.hostReg, hostBytes := t.hostBytes })
  | accepted (w : Word) (hb : s.busy = false) (hh : s.halt = false) (h : t = s.accept w)
  | ignored (hb : s.busy = false) (hh : s.halt = true) (h : t = { s with err := .contractViolation })
  | filled (sp : Space) (bytes : Bytes) (hl : bytes.length ≤ capacity s.build sp) (h : t = s.fillBuffer sp bytes)

theorem readReg_ends {n : Nat} {s t : State} (h : readReg n s = .next t) : HostEnds s t := by
  unfold readReg at h
  split at h
  · obtain rfl := Host.Outcome.next.inj h
    exact .quiet rfl
  · cases h

theorem writeReg_ends {n : Nat} {v : Word} {s t : State} (hb : n < 8 → s.busy = false)
    (h : writeReg n v s = .next t) : HostEnds s t := by
  unfold writeReg at h
  split at h
  case h_1 =>
    obtain rfl := Host.Outcome.next.inj h
    cases hh : s.halt with
    | true => exact .ignored (hb (by decide)) hh (writeCmd_halted hh v)
    | false => exact .accepted v (hb (by decide)) hh (writeCmd_running hh v)
  case h_9 => cases h
  all_goals
    obtain rfl := Host.Outcome.next.inj h
    exact .quiet rfl

theorem hostAccess_ends {x : HostStep} {s t : State} (h : hostAccess x s = .next t) : HostEnds s t := by
  cases x with
  | wr reg value =>
    obtain ⟨h, hg⟩ := guarded_next h
    exact writeReg_ends (fun hn => hg.resolve_right (by simpa using hn)) h
  | rd reg => exact readReg_ends (guarded_next h).1
  | fill sp bytes =>
    have h := (guarded_next h).1
    unfold fillSpace at h
    split at h
    · cases h
    · obtain rfl := Host.Outcome.next.inj h
      exact .filled sp bytes (by omega) rfl
  | dump sp n =>
    have h := (guarded_next h).1
    unfold dumpSpace at h
    split at h
    · cases h
    · obtain rfl := Host.Outcome.next.inj h
      exact .quiet rfl
  | poll => exact readReg_ends (n := 1) h

section WithRegs
variable (c : CtrRegs) (h : HashRegs) (m : HmacRegs) (d : DualecRegs)

theorem mapNext_guarded (f : State → State) (r : Bool) {s s' : State} (hb : s'.busy = s.busy)
    (x : Host.Outcome State Fault Refusal) : guarded r s' (mapNext f x) = mapNext f (guarded r s x) := by
  unfold guarded
  rw [hb]
  split <;> rfl

theorem readReg_withRegs (n : Nat) (s : State) :
    readReg n (s.withRegs c h m d) = mapNext (State.withRegs c h m d) (readReg n s) := by
  have hv : regValue n (s.withRegs c h m d) = regValue n s := by unfold regValue; rfl
  unfold readReg
  rw [hv]
  cases regValue n s <;> rfl

theorem writeReg_withRegs (n : Nat) (v : Word) (s : State) :
    writeReg n v (s.withRegs c h m d) = mapNext (State.withRegs c h m d) (writeReg n v s) := by
  unfold writeReg
  split
  case h_1 =>
    cases hh : s.halt with
    | true => rw [writeCmd_halted hh, writeCmd_halted (s := s.withRegs c h m d) hh]; rfl
    | false => rw [writeCmd_running hh, writeCmd_running (s := s.withRegs c h m d) hh]; rfl
  all_goals rfl

theorem fillSpace_withRegs (sp : Space) (bytes : Bytes) (s : State) :
    fillSpace sp bytes (s.withRegs c h m d) = mapNext (State.withRegs c h m d) (fillSpace sp bytes s) := by
  show (if capacity s.build sp < bytes.length then _ else _) = _
  unfold fillSpace
  split
  · rfl
  · cases sp <;> rfl

theorem dumpSpace_withRegs (sp : Space) (n : Nat) (s : State) :
    dumpSpace sp n (s.withRegs c h m d) = mapNext (State.withRegs c h m d) (dumpSpace sp n s) := by
  show (if capacity s.build sp < n then _ else _) = _
  unfold dumpSpace
  split
  · rfl
  · cases sp <;> rfl

end WithRegs

/-- Settles O15: each access commutes with putting other working registers in place. -/
theorem hostCannotSeeWorkingState : Obligations.HostCannotSeeWorkingState := by
  intro s x c h m d
  cases x with
  | wr reg value =>
    exact (congrArg _ (writeReg_withRegs c h m d reg value s)).trans (mapNext_guarded _ _ rfl _)
  | rd reg => exact (congrArg _ (readReg_withRegs c h m d reg s)).trans (mapNext_guarded _ _ rfl _)
  | fill sp bytes => exact (congrArg _ (fillSpace_withRegs c h m d sp bytes s)).trans (mapNext_guarded _ _ rfl _)
  | dump sp n => exact (congrArg _ (dumpSpace_withRegs c h m d sp n s)).trans (mapNext_guarded _ _ rfl _)
  | poll => exact readReg_withRegs c h m d 1 s

end Sys2Proof.Machine
end

section
/-! PROOF. The fields of `STATUS` and the values after reset (R29, R32, R40, R270). -/

namespace Sys2Proof.Machine

theorem Phase.number_lt (p : Phase) : p.number < 4 := by cases p <;> decide

theorem Code.number_lt (c : Code) : c.number < 16 := by cases c <;> decide

theorem bit_lt (b : Bool) : bit b < 2 := by cases b <;> decide

theorem ofBool_eq_ofNat_bit (b : Bool) : BitVec.ofBool b = BitVec.ofNat 1 (bit b) := by cases b <;> rfl

/-- A field of a word that is given as a number. -/
theorem extractLsb'_ofNat_eq {x lo n y : Nat} (hx : x < 2 ^ 32) (h : x / 2 ^ lo % 2 ^ n = y % 2 ^ n) :
    (BitVec.ofNat 32 x).extractLsb' lo n = BitVec.ofNat n y := by
  apply BitVec.eq_of_toNat_eq
  rw [BitVec.extractLsb'_toNat, BitVec.toNat_ofNat, BitVec.toNat_ofNat, Nat.mod_eq_of_lt hx,
    Nat.shiftRight_eq_div_pow, h]

/-- Settles O12: no field of `STATUS` overflows into the next, so each is a quotient of the sum. -/
theorem statusFields : Obligations.StatusFields := by
  refine ⟨fun s => ?_, ⟨rfl, rfl, rfl, rfl⟩, rfl, rfl, rfl, rfl, rfl, rfl, rfl, rfl, rfl, rfl⟩
  have h0 := s.phases.ctr.number_lt
  have h1 := s.phases.hash.number_lt
  have h2 := s.phases.hmac.number_lt
  have h3 := s.phases.dualec.number_lt
  have h4 := bit_lt s.busy
  have h5 := bit_lt s.halt
  have h6 := s.err.number_lt
  rw [State.status, ofBool_eq_ofNat_bit, ofBool_eq_ofNat_bit]
  generalize s.phases.ctr.number = p0, s.phases.hash.number = p1, s.phases.hmac.number = p2,
    s.phases.dualec.number = p3, bit s.busy = b, bit s.halt = h, s.err.number = e at *
  refine ⟨?_, ?_, ?_, ?_, ?_, ?_, extractLsb'_ofNat_eq (y := 0) (by omega) (by omega), ?_,
    extractLsb'_ofNat_eq (y := 0) (by omega) (by omega)⟩
  all_goals exact extractLsb'_ofNat_eq (by omega) (by omega)

/-- Settles O17. -/
theorem resetValues : Obligations.ResetValues :=
  ⟨rfl, rfl, rfl, rfl, rfl, rfl, rfl, rfl, rfl, rfl, rfl, rfl⟩

end Sys2Proof.Machine
end

section
/-! PROOF. The frame of an instruction: what taking an outcome, a command and a micro-operation leave unchanged
(R20, R60, R69, R255 (c)). -/

namespace Sys2Proof.Machine

/-! ## The same registers, the same inputs -/

theorem SameRegs.refl (f : Engine) (s : State) : SameRegs f s s := by cases f <;> rfl

theorem SameRegs.trans {f : Engine} {s t u : State} (h : SameRegs f s t) (k : SameRegs f t u) : SameRegs f s u := by
  cases f <;> exact Eq.trans k h

theorem SameInputs.refl (s : State) : SameInputs s s := by constructor <;> rfl

theorem SameInputs.trans {s t u : State} (h : SameInputs s t) (k : SameInputs t u) : SameInputs s u where
  build := k.build.trans h.build
  cmd := k.cmd.trans h.cmd
  strength := k.strength.trans h.strength
  outLen := k.outLen.trans h.outLen
  aiLen := k.aiLen.trans h.aiLen
  persLen := k.persLen.trans h.persLen
  nonceLen := k.nonceLen.trans h.nonceLen
  pers := k.pers.trans h.pers
  nonce := k.nonce.trans h.nonce
  ai := k.ai.trans h.ai
  agenda := k.agenda.trans h.agenda
  hostReg := k.hostReg.trans h.hostReg
  hostBytes := k.hostBytes.trans h.hostBytes

/-! ## Taking an outcome -/

theorem raise_inputs (e : Option Engine) (c : Code) (s : State) : SameInputs s (s.raise e c) := by
  constructor <;> simp

/-- An outcome changes at most the registers of the engine it is taken on, and those only when it halts the block. -/
theorem raise_sameRegs {e : Option Engine} {c : Code} {f : Engine} (s : State)
    (h : c ≠ .contractViolation ∨ e ≠ some f) : SameRegs f s (s.raise e c) := by
  rcases s.raise_cases e c with ⟨-, h1, h2, h3, h4, -⟩ | ⟨hc, h1, h2, h3, h4, -⟩
  · cases f <;> assumption
  · have hf : e ≠ some f := h.resolve_left (fun k => k hc)
    cases f
    · exact h1.trans (if_neg hf)
    · exact h2.trans (if_neg hf)
    · exact h3.trans (if_neg hf)
    · exact h4.trans (if_neg hf)

theorem raise_out {e : Option Engine} {c : Code} {s : State} (h : c ≠ .contractViolation) :
    (s.raise e c).out = s.out := by
  rw [State.raise_of_ne e c s h, State.finish_out]

theorem raise_halt_of_ne {e : Option Engine} {c : Code} {s : State} (h : c ≠ .contractViolation) :
    (s.raise e c).halt = s.halt := by
  rw [State.raise_of_ne e c s h, State.finish_halt]

theorem raise_halt (e : Option Engine) (s : State) : (s.raise e .contractViolation).halt = true := by
  rw [State.raise_violation, State.finish_halt]

/-! ## Inside a command -/

theorem Advanced.refl (e : Engine) (s : State) : Advanced e s s := Touched.refl e s

/-- Taking an answer of the source. -/
theorem advanced_entropy (e : Engine) (s : State) (rest : List EntropyAnswer) :
    Advanced e s { s with entropy := rest } := Touched.refl e _

section Advanced
variable {e : Engine} {s u : State} (h : Advanced e s u)
include h

theorem Advanced.others {f : Engine} (hf : f ≠ e) : SameRegs f s u := by
  have := Touched.others h f hf
  cases f <;> exact this

theorem Advanced.inputs : SameInputs s u := by
  rw [Touched.frame h]
  constructor <;> rfl

theorem Advanced.phases : u.phases = s.phases := by rw [Touched.frame h]

theorem Advanced.out : u.out = s.out := by rw [Touched.frame h]

theorem Advanced.halt : u.halt = s.halt := by rw [Touched.frame h]

theorem Advanced.raise_isolated {f : Engine} (hf : f ≠ e) (c : Code) :
    SameRegs f s (u.raise (some e) c) ∧ (u.raise (some e) c).phases.get f = s.phases.get f := by
  refine ⟨(h.others hf).trans (raise_sameRegs u (.inr fun k => hf (Option.some.inj k).symm)), ?_⟩
  rw [State.raise_phases, State.phasesAfter_other e c u f hf, h.phases]

theorem Advanced.succeed_isolated {f : Engine} (hf : f ≠ e) (n r : Nat) (out : Bytes) :
    SameRegs f s ((u.storeOut n out).succeed e r) ∧
      ((u.storeOut n out).succeed e r).phases.get f = s.phases.get f := by
  refine ⟨(h.others hf).trans (by cases f <;> rfl), ?_⟩
  rw [State.succeed_phases, State.storeOut_phases, Phases.get_set_other _ _ _ _ hf, h.phases]

theorem Advanced.succeed_inputs (n r : Nat) (out : Bytes) : SameInputs s ((u.storeOut n out).succeed e r) :=
  h.inputs.trans (by constructor <;> rfl)

end Advanced

/-- Settles O21: each way a command can end changes its own engine alone. -/
theorem enginesAreIsolated : Obligations.EnginesAreIsolated := by
  intro i e f op s t hi hf ht
  cases command_ends hi ht with
  | check c _ _ _ _ h => subst h; exact (Advanced.refl e s).raise_isolated hf c
  | stall _ h => subst h; exact ⟨SameRegs.refl f t, rfl⟩
  | noEntropy rest _ h => subst h; exact (advanced_entropy e s rest).raise_isolated hf _
  | success u n out hu _ _ _ _ h => subst h; exact hu.succeed_isolated hf n _ out
  | violation u hu _ h => subst h; exact hu.raise_isolated hf _

/-! ## The frame of every instruction -/

theorem command_inputs {e : Engine} {op : CmdOp} {s t : State} (h : CommandEnds e op s t) : SameInputs s t := by
  cases h with
  | check c _ _ _ _ h => subst h; exact raise_inputs _ c s
  | stall _ h => subst h; exact SameInputs.refl t
  | noEntropy rest _ h => subst h; exact (advanced_entropy e s rest).inputs.trans (raise_inputs ..)
  | success u n out hu _ _ _ _ h => subst h; exact hu.succeed_inputs n _ out
  | violation u hu _ h => subst h; exact hu.inputs.trans (raise_inputs ..)

theorem micro_inputs {s t : State} (h : MicroEnds s t) : SameInputs s t := by
  cases h with
  | runs h => rw [h]; constructor <;> rfl
  | violation own h => subst h; exact raise_inputs ..
  | check c _ h => subst h; exact raise_inputs ..

/-- A command that does not halt the block writes `OUT` below the length of its request alone, which is 0 but for a
GENERATE (R69 (b), (c)). -/
theorem command_out {e : Engine} {op : CmdOp} {s t : State} (h : CommandEnds e op s t)
    (hwf : Memory.wf s.out = true) (hh : t.halt = false) {a : Nat} (ha : op = .generate → s.outLenOp ≤ a) :
    Memory.read t.out a = Memory.read s.out a := by
  cases h with
  | check c _ hc _ _ h => subst h; rw [raise_out hc]
  | stall _ h => subst h; rfl
  | noEntropy rest _ h => subst h; rw [raise_out (c := .entropyFailure) nofun]
  | violation u _ _ h => subst h; cases (raise_halt (some e) u).symm.trans hh
  | success u n out hu hn hle _ _ h =>
    have hna : n ≤ a := by
      by_cases hop : op = .generate
      · exact (hle hop).trans_le (ha hop)
      · exact (hn hop).trans_le (Nat.zero_le a)
    have hnone : (out.take n)[a]? = none := List.getElem?_eq_none (by simp; omega)
    subst h
    rw [State.succeed_out, State.storeOut_out, hu.out, Memory.read_writeBytes 0 _ a hwf, if_pos (Nat.zero_le a),
      Nat.sub_zero, hnone, Option.getD_none]

theorem micro_out {s t : State} (h : MicroEnds s t) (hh : t.halt = false) : t.out = s.out := by
  cases h with
  | runs h => rw [h]
  | violation own h => subst h; cases (raise_halt _ s).symm.trans hh
  | check c hc h => subst h; exact raise_out (by rcases hc with rfl | rfl <;> decide)

/-- Settles O24: the frames of the commands and of the micro-operations together. -/
theorem instructionFrame : Obligations.InstructionFrame := by
  intro i s t h
  cases hi : i.command with
  | none =>
    have hm := micro_ends hi h
    exact ⟨micro_inputs hm, fun _ _ hh a _ => by rw [micro_out hm hh]⟩
  | some x =>
    obtain ⟨e, op⟩ := x
    have hc := command_ends hi h
    refine ⟨command_inputs hc, fun hwf _ hh a ha => command_out hc hwf hh fun hop => ?_⟩
    rcases command_is hi with ⟨k, -⟩ | ⟨-, ai, pr, hg⟩ | ⟨k, -⟩
    · cases hop.symm.trans k
    · exact ha e ai pr hg
    · cases hop.symm.trans k

end Sys2Proof.Machine
end

section
/-! PROOF. What one step can do, whoever moves: the inversion lemmas of the block's turn and of the step (R85, R87,
R244). -/

namespace Sys2Proof.Machine

/-- What the block's turn can do: run the issued micro-operation, complete the command in flight, end a word that is no
command of a present engine, or nothing. -/
inductive TurnEnds (s t : State) : Prop where
  | micro (w : Word) (hu : s.uop = some w) (h : MicroEnds { s with uop := none } t)
  | command (l : Latch) (i : Instr) (e : Engine) (op : CmdOp) (hu : s.uop = none) (hl : s.inflight = some l)
      (hd : decode l.word = .ok i) (hi : i.command = some (e, op)) (h : CommandEnds e op s t)
  | illegal (l : Latch) (hu : s.uop = none) (hl : s.inflight = some l) (hc : commandOf s.build l.word = none)
      (h : t = s.raise none .illegalCommand)
  | idle (hb : s.busy = false) (h : t = s)

theorem blockTurn_micro {s : State} {w : Word} (h : s.uop = some w) :
    blockTurn s = runMicro w { s with uop := none } := by
  simp only [blockTurn, h]

theorem blockTurn_command {s : State} {l : Latch} (hu : s.uop = none) (hl : s.inflight = some l) :
    blockTurn s = runCommand l.word s := by
  simp only [blockTurn, hu, hl]

theorem blockTurn_idle {s : State} (hu : s.uop = none) (hl : s.inflight = none) : blockTurn s = .next s := by
  simp only [blockTurn, hu, hl]

/-- A word of no host command is `IllegalCommand` (R87). -/
theorem runCommand_illegal {w : Word} (h : ∀ i, decode w = .ok i → i.command = none) (s : State) :
    runCommand w s = .next (s.raise none .illegalCommand) := by
  unfold runCommand
  cases hd : decode w with
  | error r => rfl
  | ok i => simp only [h i hd, Option.isSome_none, Bool.false_eq_true, if_false]

theorem runCommand_command {w : Word} {i : Instr} {x : Engine × CmdOp} (hd : decode w = .ok i)
    (hi : i.command = some x) (s : State) : runCommand w s = exec i s := by
  simp only [runCommand, hd, hi, Option.isSome_some, if_true]

/-- Every word is of no host command or decodes to one. -/
theorem decode_command_cases (w : Word) :
    (∀ i, decode w = .ok i → i.command = none) ∨ ∃ i e op, decode w = .ok i ∧ i.command = some (e, op) := by
  cases hd : decode w with
  | error r => exact .inl nofun
  | ok i =>
    cases hi : i.command with
    | none => exact .inl fun j hj => by obtain rfl := Except.ok.inj hj; exact hi
    | some x => exact .inr ⟨i, x.1, x.2, rfl, hi⟩

theorem commandOf_none {w : Word} (h : ∀ i, decode w = .ok i → i.command = none) (b : Build) :
    commandOf b w = none := by
  unfold commandOf
  cases hd : decode w with
  | error r => rfl
  | ok i => simp only [h i hd, Option.bind_none]

theorem commandOf_command {w : Word} {i : Instr} {x : Engine × CmdOp} (hd : decode w = .ok i)
    (hi : i.command = some x) (b : Build) : commandOf b w = if hasEngine b x.1 then some x else none := by
  simp only [commandOf, hd, hi, Option.bind_some]

theorem runMicro_ends {w : Word} {s t : State} (h : runMicro w s = .next t) : MicroEnds s t := by
  unfold runMicro at h
  split at h
  · split at h
    · rename_i hi
      exact micro_ends (Option.isNone_iff_eq_none.1 hi) h
    · exact .violation none (Host.Outcome.next.inj h).symm
  · exact .violation none (Host.Outcome.next.inj h).symm

theorem blockTurn_ends {s t : State} (h : blockTurn s = .next t) : TurnEnds s t := by
  cases hu : s.uop with
  | some w =>
    rw [blockTurn_micro hu] at h
    exact .micro w hu (runMicro_ends h)
  | none =>
    cases hl : s.inflight with
    | none =>
      rw [blockTurn_idle hu hl] at h
      exact .idle (by simp [State.busy, hu, hl]) (Host.Outcome.next.inj h).symm
    | some l =>
      rw [blockTurn_command hu hl] at h
      rcases decode_command_cases l.word with hn | ⟨i, e, op, hd, hi⟩
      · rw [runCommand_illegal hn] at h
        exact .illegal l hu hl (commandOf_none hn _) (Host.Outcome.next.inj h).symm
      · rw [runCommand_command hd hi] at h
        exact .command l i e op hu hl hd hi (command_ends hi h)

/-- What a step can do: the block's turn, a host access, an answer of the source that arrives, or the reset. -/
inductive StepEnds (s t : State) : Prop where
  | turn (agenda : List Input) (h : TurnEnds { s with agenda := agenda } t)
  | host (rest : List Input) (h : HostEnds { s with agenda := rest } t)
  | entropy (a : EntropyAnswer) (rest : List Input) (h : t = { s with agenda := rest, entropy := s.entropy ++ [a] })
  | reset (rest : List Input) (ha : s.agenda = .reset :: rest) (h : t = { s.hwReset with agenda := rest })

theorem step_ends {s t : State} (h : step s = .next t) : StepEnds s t := by
  cases ha : s.agenda with
  | nil =>
    rw [step_idle ha] at h
    exact .turn s.agenda (blockTurn_ends h)
  | cons x rest =>
    cases x with
    | block =>
      rw [step_block ha] at h
      exact .turn rest (blockTurn_ends h)
    | entropy a =>
      rw [step_entropy ha] at h
      exact .entropy a rest (Host.Outcome.next.inj h).symm
    | reset =>
      rw [step_reset ha] at h
      exact .reset rest ha (Host.Outcome.next.inj h).symm
    | host x =>
      by_cases hx : x = .poll
      · subst hx
        rw [step_poll ha] at h
        split at h
        · exact .turn s.agenda (blockTurn_ends h)
        · exact .host rest (hostAccess_ends h)
      · rw [step_host ha hx] at h
        exact .host rest (hostAccess_ends h)

end Sys2Proof.Machine
end

section
/-! PROOF. The invariant `Inv`: its parts under the operations of the block, then under every step (R24, R25, R60,
R241, R243, R255 (d), R277). -/

namespace Sys2Proof.Machine

/-! ## Widths (R25 (c)) -/

theorem RegsOk.congr {f : Engine} {s t : State} (h : RegsOk f s) (hs : SameRegs f s t) (hb : t.build = s.build) :
    RegsOk f t := by
  cases f <;> simp only [SameRegs] at hs <;> simp only [RegsOk, State.curve, hs, hb] <;> exact h

theorem WidthsOk.congr {s t : State} (h : WidthsOk s) (hs : ∀ f, SameRegs f s t) (hb : t.build = s.build) :
    WidthsOk t := WidthsOk.of_regs fun f => (h.regs f).congr (hs f) hb

theorem freeCtr_widths (b : Build) (n : Nat) : CtrWidths b.ctr (freeCtr b n) := ⟨toBE_length _ _, toBE_length _ _⟩

theorem freeHash_widths (b : Build) (n : Nat) : HashWidths b.hash (freeHash b n) :=
  ⟨toBE_length _ _, toBE_length _ _⟩

theorem freeHmac_widths (b : Build) (n : Nat) : HmacWidths b.hmac (freeHmac b n) :=
  ⟨toBE_length _ _, toBE_length _ _⟩

theorem freeDualec_width (b : Build) (n : Nat) :
    (freeDualec b n).s.length = curveSeedBytes (curveOf b (freeDualec b n).row) := toBE_length _ _

theorem raise_widths {s : State} (h : WidthsOk s) (e : Option Engine) (c : Code) : WidthsOk (s.raise e c) := by
  refine WidthsOk.of_regs fun f => ?_
  by_cases hf : c ≠ .contractViolation ∨ e ≠ some f
  · exact (h.regs f).congr (raise_sameRegs s hf) (State.raise_build e c s)
  · obtain ⟨rfl, rfl⟩ : c = .contractViolation ∧ e = some f := by simpa using hf
    cases f
    · exact freeCtr_widths s.build s.freeCount
    · exact freeHash_widths s.build s.freeCount
    · exact freeHmac_widths s.build s.freeCount
    · exact freeDualec_width s.build s.freeCount

/-- A command writes the registers of its own engine alone. -/
theorem Advanced.widths {e : Engine} {s u : State} (hu : Advanced e s u) (h : WidthsOk s) (he : RegsOk e u) :
    WidthsOk u := by
  refine WidthsOk.of_regs fun f => ?_
  by_cases hf : f = e
  · subst hf; exact he
  · exact (h.regs f).congr (hu.others hf) hu.inputs.build

/-! ## Buffers (R60) -/

theorem BuffersOk.congr {s t : State} (h : BuffersOk s) (hb : t.build = s.build)
    (hs : ∀ sp, t.buffer sp = s.buffer sp) : BuffersOk t := fun sp => by rw [hb, hs sp]; exact h sp

theorem BuffersOk.fillBuffer {s : State} (h : BuffersOk s) {sp : Space} {bytes : Bytes}
    (hl : bytes.length ≤ capacity s.build sp) : BuffersOk (s.fillBuffer sp bytes) := by
  intro sp'
  rw [State.fillBuffer_build]
  by_cases hsp : sp' = sp
  · subst hsp
    rw [State.fillBuffer_same]
    exact ⟨Memory.writeBytes_wf 0 bytes (h sp').1, Memory.writeBytes_within (h sp').2 (by omega)⟩
  · rw [State.fillBuffer_other _ _ _ _ hsp]
    exact h sp'

theorem Advanced.buffers {e : Engine} {s u : State} (hu : Advanced e s u) (h : BuffersOk s) : BuffersOk u :=
  h.congr hu.inputs.build fun sp => by
    cases sp
    · exact hu.inputs.pers
    · exact hu.inputs.nonce
    · exact hu.inputs.ai
    · exact hu.out

theorem raise_buffers {s : State} (h : BuffersOk s) (e : Option Engine) (c : Code) : BuffersOk (s.raise e c) := by
  intro sp
  rw [State.raise_build]
  cases sp with
  | pers => simpa [State.buffer] using h .pers
  | nonce => simpa [State.buffer] using h .nonce
  | ai => simpa [State.buffer] using h .ai
  | out =>
    rcases s.raise_cases e c with ⟨-, -, -, -, -, ho, -⟩ | ⟨-, -, -, -, -, ho, -⟩
    · simpa [State.buffer, ho] using h .out
    · simp only [State.buffer, ho, State.spoil_out]
      exact ⟨freeMemory_wf .., freeMemory_within ..⟩

/-! ## Counters and the ceiling (R25, R241, R273) -/

theorem counter_congr {f : Engine} {s t : State} (h : SameRegs f s t) : t.counter f = s.counter f := by
  cases f <;> simp only [SameRegs] at h <;> simp only [State.counter, h]

/-- The ceiling of CTR, Hash and HMAC does not depend on the request. -/
theorem pastCeiling_congr {f : Engine} {s t : State} (hf : f ≠ .dualec) (hb : t.build = s.build)
    (hc : t.counter f = s.counter f) : t.pastCeiling f = s.pastCeiling f := by
  cases f with
  | dualec => exact absurd rfl hf
  | ctr | hash | hmac => simp only [State.pastCeiling, hb, hc]

theorem counterStart_toNat (e : Engine) : (counterStart e).toNat = counterLow e := by cases e <;> rfl

theorem reseedInterval_bounds (b : Build) (e : Engine) :
    2 ^ 31 ≤ reseedInterval b e ∧ reseedInterval b e ≤ 2 ^ 47 := by
  cases e with
  | ctr => simp only [reseedInterval]; split <;> omega
  | hash | hmac | dualec => simp only [reseedInterval]; omega

theorem counterHigh_bounds (b : Build) (e : Engine) :
    counterLow e ≤ counterHigh b e ∧ counterHigh b e < 2 ^ 64 := by
  have := reseedInterval_bounds b e
  cases e <;> simp only [counterLow, counterHigh] <;> omega

/-- Below the ceiling there is room for the advance of one GENERATE (R218, R273). -/
theorem counter_room {e : Engine} {s : State} (h : BelowCeiling e s) :
    (s.counter e).toNat + (counterStep e s.outLenOp s).toNat ≤ counterHigh s.build e := by
  obtain ⟨hctr, hhash, hhmac, hdualec⟩ := h
  cases e with
  | ctr => exact Nat.add_le_add_right (hctr rfl) 1
  | hash => exact Nat.add_le_add_right (hhash rfl) 1
  | hmac => exact Nat.add_le_add_right (hhmac rfl) 1
  | dualec =>
    refine le_trans (Nat.add_le_add_left ?_ _) (hdualec rfl)
    exact (BitVec.toNat_ofNat ..).trans_le (Nat.mod_le _ _)

/-- A counter that had room for it is within its bounds after the advance. -/
theorem counter_advance {e : Engine} {b : Build} {c d : BitVec 64} (hlow : counterLow e ≤ c.toNat)
    (hroom : c.toNat + d.toNat ≤ counterHigh b e) :
    counterLow e ≤ (c + d).toNat ∧ (c + d).toNat ≤ counterHigh b e := by
  have := (counterHigh_bounds b e).2
  rw [BitVec.toNat_add, Nat.mod_eq_of_lt (by omega)]
  omega

/-- The counter after a command that succeeds is within its bounds (R25 (a), (b)). -/
theorem EngineAfter.counter_bounds {e : Engine} {op : CmdOp} {n : Nat} {s u : State} (h : EngineAfter e op n s u)
    (hg : op = .generate → n = s.outLenOp ∧ BelowCeiling e s ∧ counterLow e ≤ (s.counter e).toNat) :
    counterLow e ≤ (u.counter e).toNat ∧ (u.counter e).toNat ≤ counterHigh s.build e := by
  by_cases hop : op = .generate
  · obtain ⟨rfl, hbelow, hlow⟩ := hg hop
    have hroom := counter_room hbelow
    rcases h.stepped hop with hc | hc <;> rw [hc]
    · exact counter_advance hlow hroom
    · rw [← counterStart_toNat] at hlow
      exact counter_advance (counterStart_toNat e).ge (by omega)
  · rw [h.started hop, counterStart_toNat]
    exact ⟨le_rfl, (counterHigh_bounds s.build e).1⟩

/-! ## Phases and the latch (R241, R243) -/

theorem p0_of_idle {s : State} (h : s.inflight = none) (f : Engine) : s.p0 f = s.phases.get f := by
  simp [State.p0, State.target, h]

/-- `p0` of an engine that no command in flight addresses is its phase. -/
theorem p0_of_other {s : State} {f : Engine} (h : s.target.map (·.1) ≠ some f) : s.p0 f = s.phases.get f := by
  unfold State.p0
  cases ht : s.target with
  | none => rfl
  | some x => exact if_neg fun k => h (by rw [ht, ← k]; rfl)

theorem p0_of_target {s : State} {e : Engine} {p : Phase} (h : s.target = some (e, p)) : s.p0 e = p := by
  simp [State.p0, h]

theorem flightOk_idle {s : State} (h : s.inflight = none) : FlightOk s ↔ ∀ e, s.phases.get e ≠ .generating := by
  simp only [FlightOk, h]

/-- What the latch and the phases are: no engine addressed and none `GENERATING`, or the engine of the command in
flight with the phase it had. -/
theorem FlightOk.cases {s : State} (h : FlightOk s) :
    (s.target = none ∧ ∀ f, s.phases.get f ≠ .generating) ∨
      ∃ l e op p, s.inflight = some l ∧ commandOf s.build l.word = some (e, op) ∧ s.target = some (e, p) ∧
        p ≠ .generating ∧ s.phases.get e = (if op = .generate ∧ p ≠ .uninit then .generating else p) ∧
        ∀ f, f ≠ e → s.phases.get f ≠ .generating := by
  unfold FlightOk at h
  split at h
  case h_1 hl => exact .inl ⟨by simp [State.target, hl], h⟩
  case h_2 l hl =>
    split at h
    case h_1 => exact .inl ⟨by simp [State.target, hl, h.1], h.2⟩
    case h_2 e op hc =>
      obtain ⟨p, hp, ht, hph, ho⟩ := h
      exact .inr ⟨l, e, op, p, hl, hc, by simp [State.target, hl, ht], hp, hph, ho⟩

theorem FlightOk.p0_ne_generating {s : State} (h : FlightOk s) (f : Engine) : s.p0 f ≠ .generating := by
  rcases h.cases with ⟨ht, hg⟩ | ⟨l, e, op, p, -, -, ht, hp, -, ho⟩
  · rw [p0_of_other (by simp [ht])]; exact hg f
  · by_cases hf : f = e
    · subst hf; rw [p0_of_target ht]; exact hp
    · rw [p0_of_other (by simpa [ht] using Ne.symm hf)]; exact ho f hf

/-- Acceptance changes no engine from or to `UNINIT`. -/
theorem FlightOk.p0_uninit_iff {s : State} (h : FlightOk s) (f : Engine) :
    s.p0 f = .uninit ↔ s.phases.get f = .uninit := by
  rcases h.cases with ⟨ht, -⟩ | ⟨l, e, op, p, -, -, ht, -, hph, -⟩
  · rw [p0_of_other (by simp [ht])]
  · by_cases hf : f = e
    · subst hf
      rw [p0_of_target ht, hph]
      by_cases hp : p = .uninit <;> split_ifs <;> simp_all
    · rw [p0_of_other (by simpa [ht] using Ne.symm hf)]

/-- A command in flight addresses its own engine, or none where that engine is absent. -/
theorem FlightOk.phase_eq_p0 {s : State} (h : FlightOk s) {l : Latch} {i : Instr} {e f : Engine} {op : CmdOp}
    (hl : s.inflight = some l) (hd : decode l.word = .ok i) (hi : i.command = some (e, op)) (hf : f ≠ e) :
    s.p0 f = s.phases.get f := by
  rcases h.cases with ⟨ht, -⟩ | ⟨l', e', op', p, hl', hc, ht, -⟩
  · exact p0_of_other (by simp [ht])
  · obtain rfl := Option.some.inj (hl.symm.trans hl')
    rw [commandOf_command hd hi] at hc
    split at hc
    · obtain ⟨rfl, rfl⟩ := Prod.mk.inj (Option.some.inj hc)
      exact p0_of_other (by simpa [ht] using Ne.symm hf)
    · cases hc

theorem FlightOk.target_none {s : State} (h : FlightOk s) {l : Latch} (hl : s.inflight = some l)
    (hc : commandOf s.build l.word = none) : s.target = none := by
  rcases h.cases with ⟨ht, -⟩ | ⟨l', e', op', p, hl', hc', -⟩
  · exact ht
  · obtain rfl := Option.some.inj (hl.symm.trans hl')
    cases hc.symm.trans hc'

theorem acceptPhases_get (ph : Phases) (c : Option (Engine × CmdOp)) (f : Engine) :
    (acceptPhases ph c).get f = if c = some (f, .generate) ∧ ph.get f ≠ .uninit then .generating else ph.get f := by
  rcases c with _ | ⟨e, op⟩
  · rfl
  · cases op with
    | instantiate => simp [acceptPhases]
    | reseed => simp [acceptPhases]
    | generate =>
      simp only [acceptPhases, Option.some.injEq, Prod.mk.injEq, and_true]
      by_cases hf : e = f
      · subst hf; by_cases hp : ph.get e = .uninit <;> simp [hp]
      · split_ifs <;> simp_all [Phases.get_set_other _ _ _ _ (Ne.symm hf)]

theorem acceptPhases_uninit_iff (ph : Phases) (c : Option (Engine × CmdOp)) (f : Engine) :
    (acceptPhases ph c).get f = .uninit ↔ ph.get f = .uninit := by
  rw [acceptPhases_get]
  by_cases hp : ph.get f = .uninit <;> split_ifs <;> simp_all

/-- The latch of an accepted word holds the phase from before acceptance (R243). -/
theorem accept_p0 (w : Word) (s : State) (f : Engine) : (s.accept w).p0 f = s.phases.get f := by
  unfold State.p0
  simp only [State.target, State.accept_inflight, State.accept_phases, Option.bind_some, acceptPhases_get]
  rcases commandOf s.build w with _ | ⟨e, op⟩
  · simp
  · by_cases hf : e = f
    · subst hf; simp
    · simp [hf]

theorem accept_flight {s : State} (h : ∀ f, s.phases.get f ≠ .generating) (w : Word) : FlightOk (s.accept w) := by
  simp only [FlightOk, State.accept_inflight, State.accept_build, State.accept_phases]
  cases hc : commandOf s.build w with
  | none => exact ⟨rfl, h⟩
  | some x =>
    obtain ⟨e, op⟩ := x
    refine ⟨s.phases.get e, h e, rfl, ?_, fun f hf => ?_⟩
    · simp [acceptPhases_get]
    · rw [acceptPhases_get, if_neg fun k => hf (Prod.mk.inj (Option.some.inj k.1)).1.symm]
      exact h f

/-! ## The invariant under the operations of the block -/

/-- The parts of the invariant that speak of counters, the Dual-EC registers, the phases and the latch stay where these
stay. -/
theorem Inv.congr {s t : State} (h : Inv s) (hb : t.build = s.build) (widths : WidthsOk t) (buffers : BuffersOk t)
    (halted : HaltOk t) (hh : t.halt = false → s.halt = false) (hc : ∀ f, t.counter f = s.counter f)
    (hd : t.dualec = s.dualec) (hp : t.phases = s.phases) (hl : t.inflight = s.inflight) : Inv t where
  legal := hb ▸ h.legal
  widths := widths
  buffers := buffers
  halted := halted
  counters k f hf := by
    rw [hc, hb]
    exact h.counters (hh k) f (hp ▸ hf)
  scalar k hf := by
    simp only [State.curve, hb, hd]
    exact h.scalar (hh k) (hp ▸ hf)
  signal k f hf hr := by
    have hp0 : t.p0 f = s.p0 f := by simp only [State.p0, State.target, hl, hp]
    rw [pastCeiling_congr hf hb (hc f)]
    exact h.signal (hh k) f hf (hp0 ▸ hr)
  flight k := by
    have := h.flight (hh k)
    simpa only [FlightOk, hl, hb, hp] using this

/-- The invariant says nothing of the operand registers, the temporaries and the ports. -/
theorem Inv.frame {s t : State} (h : Inv s) (ht : t = { s with
    cmd := t.cmd, result := t.result, strength := t.strength, outLen := t.outLen, aiLen := t.aiLen
    persLen := t.persLen, nonceLen := t.nonceLen, dp := t.dp, agenda := t.agenda, entropy := t.entropy
    hostReg := t.hostReg, hostBytes := t.hostBytes, freeCount := t.freeCount }) : Inv t := by
  rw [ht]
  exact h.congr rfl (h.widths.congr (fun f => by cases f <;> rfl) rfl)
    (h.buffers.congr rfl fun sp => by cases sp <;> rfl) ⟨h.halted.1, h.halted.2⟩ id (fun f => by cases f <;> rfl)
    rfl rfl rfl

theorem Inv.idle_phase {s : State} (h : Inv s) (hh : s.halt = false) (hb : s.busy = false) :
    s.inflight = none ∧ ∀ f, s.phases.get f ≠ .generating := by
  have hl : s.inflight = none := by
    simp only [State.busy, Bool.or_eq_false_iff, Option.isSome_eq_false_iff, Option.isNone_iff_eq_none] at hb
    exact hb.1
  exact ⟨hl, (flightOk_idle hl).1 (h.flight hh)⟩

theorem Inv.running {s : State} (h : Inv s) (hb : s.busy = true) : s.halt = false := by
  cases hh : s.halt with
  | false => rfl
  | true => cases (h.halted.idle hh).symm.trans hb

/-- Every engine of a block that runs and is `UNINIT` throughout meets the invariant without a condition. -/
theorem Inv.of_uninit {s : State} (legal : buildLegal s.build = true) (widths : WidthsOk s) (buffers : BuffersOk s)
    (hp : s.phases = ⟨.uninit, .uninit, .uninit, .uninit⟩) (hh : s.halt = false) (he : s.err = .ok)
    (hl : s.inflight = none) : Inv s := by
  have hu : ∀ f, s.phases.get f = .uninit := fun f => by rw [hp]; cases f <;> rfl
  refine ⟨legal, widths, buffers, ⟨by simp [hh, he], by simp [hh]⟩, fun _ f hf => absurd (hu f) hf,
    fun _ hf => absurd (hu .dualec) hf, fun _ f _ hf => ?_, fun _ => (flightOk_idle hl).2 fun f => by simp [hu f]⟩
  rw [p0_of_idle hl, hu f] at hf
  cases hf

theorem Inv.hwReset {s : State} (h : Inv s) : Inv s.hwReset := by
  refine Inv.of_uninit h.legal (WidthsOk.of_regs fun f => ?_) (fun sp => ?_) rfl rfl rfl rfl
  · cases f
    · exact freeCtr_widths _ _
    · exact freeHash_widths _ _
    · exact freeHmac_widths _ _
    · exact freeDualec_width _ _
  · cases sp <;> exact ⟨freeMemory_wf .., freeMemory_within ..⟩

/-- A contract violation leaves a halted block, of which the invariant asks widths and buffers alone (R277). -/
theorem Inv.halts {s : State} (legal : buildLegal s.build = true) (widths : WidthsOk s) (buffers : BuffersOk s)
    (e : Option Engine) : Inv (s.raise e .contractViolation) := by
  have hh := raise_halt e s
  have hn : (s.raise e .contractViolation).halt ≠ false := by rw [hh]; decide
  exact ⟨by rwa [State.raise_build], raise_widths widths e _, raise_buffers buffers e _,
    ⟨by simp [hh], fun _ => State.raise_busy ..⟩, fun k => absurd k hn, fun k => absurd k hn, fun k => absurd k hn,
    fun k => absurd k hn⟩

theorem phasesAfter_get {s : State} {e : Option Engine} {c : Code} (hc : c ≠ .contractViolation)
    (he : ∀ f, e ≠ some f → s.p0 f = s.phases.get f) (f : Engine) :
    (s.phasesAfter e c).get f = if e = some f ∧ c = .reseedRequired then .reseedRequired else s.p0 f := by
  cases e with
  | none => rw [if_neg (by simp), he f nofun]; rfl
  | some g =>
    by_cases hf : f = g
    · subst hf
      by_cases hr : c = .reseedRequired
      · subst hr; simp [State.phasesAfter_signal]
      · rw [State.phasesAfter_error _ _ _ hc hr]; simp [hr]
    · have hg : some g ≠ some f := fun k => hf (Option.some.inj k).symm
      rw [State.phasesAfter_other _ _ _ _ hf, if_neg fun k => hg k.1, he f hg]

/-- An error keeps the invariant, where it is taken on the engine of the command in flight and a signal is raised
past the ceiling alone (R241, R273). -/
theorem Inv.raise_error {s : State} (h : Inv s) (hh : s.halt = false) {e : Option Engine} {c : Code}
    (hc : c ≠ .contractViolation) (he : ∀ f, e ≠ some f → s.p0 f = s.phases.get f)
    (hs : c = .reseedRequired → ∀ f, e = some f → s.p0 f ≠ .uninit ∧ s.pastCeiling f = true) :
    Inv (s.raise e c) := by
  have hsame : ∀ f, SameRegs f s (s.raise e c) := fun f => raise_sameRegs s (.inl hc)
  have hidle := State.raise_inflight e c s
  have hphase : ∀ f, (s.raise e c).phases.get f =
      if e = some f ∧ c = .reseedRequired then .reseedRequired else s.p0 f := fun f => by
    rw [State.raise_phases, phasesAfter_get hc he]
  have hinit : ∀ f, (s.raise e c).phases.get f ≠ .uninit → s.phases.get f ≠ .uninit := fun f hf => by
    refine ((h.flight hh).p0_uninit_iff f).not.1 ?_
    rw [hphase] at hf
    split at hf
    · rename_i k; exact (hs k.2 f k.1).1
    · exact hf
  have hpast : ∀ f, f ≠ .dualec → (s.raise e c).pastCeiling f = s.pastCeiling f := fun f hf =>
    pastCeiling_congr hf (State.raise_build ..) (counter_congr (hsame f))
  refine ⟨by rw [State.raise_build]; exact h.legal, raise_widths h.widths e c, raise_buffers h.buffers e c,
    ⟨?halted, fun _ => State.raise_busy ..⟩, fun _ f hf => ?counters, fun _ hf => ?scalar, fun _ f hd hf => ?signal,
    fun _ => (flightOk_idle hidle).2 fun f => ?flight⟩
  case halted => rw [raise_halt_of_ne hc, hh, State.raise_err]; simp [hc]
  case counters =>
    rw [counter_congr (hsame f), State.raise_build]
    exact h.counters hh f (hinit f hf)
  case scalar =>
    have hd : (s.raise e c).dualec = s.dualec := hsame .dualec
    simp only [State.curve, State.raise_build, hd]
    exact h.scalar hh (hinit .dualec hf)
  case signal =>
    rw [hpast f hd]
    rw [p0_of_idle hidle, hphase] at hf
    split at hf
    · rename_i k; exact (hs k.2 f k.1).2
    · exact h.signal hh f hd hf
  case flight =>
    rw [hphase]
    split
    · decide
    · exact (h.flight hh).p0_ne_generating f

/-- A command that succeeds keeps the invariant. -/
theorem Inv.succeed {e : Engine} {op : CmdOp} {n : Nat} {s u : State} (h : Inv s) (hh : s.halt = false)
    (he : ∀ f, f ≠ e → s.p0 f = s.phases.get f) (hu : Advanced e s u) (hn : op ≠ .generate → n = 0)
    (hle : op = .generate → n = s.outLenOp) (hg : op = .generate → ∃ ai, GenerateReady e ai s)
    (ha : EngineAfter e op n s u) (out : Bytes) (r : Nat) : Inv ((u.storeOut n out).succeed e r) := by
  have hb : u.build = s.build := hu.inputs.build
  have hphase : ∀ f, (u.phases.set e .seeded).get f = if f = e then .seeded else s.p0 f := fun f => by
    rw [Phases.get_set, hu.phases]
    split
    · rfl
    · rename_i hf; exact (he f hf).symm
  have hbounds := ha.counter_bounds fun hop => by
    obtain ⟨ai, -, hp, -, -, hbelow⟩ := hg hop
    exact ⟨hle hop, hbelow, (h.counters hh e ((h.flight hh).p0_uninit_iff e |>.not.1 hp)).1⟩
  have hlen : (out.take n).length ≤ capacity u.build .out := by
    by_cases hop : op = .generate
    · obtain ⟨ai, -, -, hr, -⟩ := hg hop
      have : s.outLenOp ≤ capacity u.build .out := by rw [hb]; exact hr.1
      rw [hle hop]
      exact (List.length_take_le _ _).trans this
    · rw [hn hop]; simp
  have hw := hu.widths h.widths ha.regs
  refine ⟨hb ▸ h.legal, hw.congr (fun f => by cases f <;> rfl) rfl,
    ((hu.buffers h.buffers).fillBuffer hlen).congr rfl fun sp => by cases sp <;> rfl, ⟨?halted, fun _ => rfl⟩,
    fun _ f hf => ?counters, fun _ hf => ?scalar, fun _ f hd hf => ?signal, fun _ => (flightOk_idle rfl).2 fun f => ?flight⟩
  case halted =>
    show u.halt = true ↔ Code.ok = .contractViolation
    rw [hu.halt, hh]; decide
  case counters =>
    show counterLow f ≤ (u.counter f).toNat ∧ (u.counter f).toNat ≤ counterHigh u.build f
    rw [hb]
    by_cases hfe : f = e
    · subst hfe; exact hbounds
    · rw [counter_congr (hu.others hfe)]
      have hf : (u.phases.set e .seeded).get f ≠ .uninit := hf
      rw [hphase, if_neg hfe, he f hfe] at hf
      exact h.counters hh f hf
  case scalar =>
    show be u.dualec.s < 2 ^ u.curve.seedlen
    by_cases hfe : .dualec = e
    · exact ha.scalar hfe.symm
    · have hd : u.dualec = s.dualec := hu.others hfe
      have hf : (u.phases.set e .seeded).get .dualec ≠ .uninit := hf
      rw [hphase, if_neg hfe, he _ hfe] at hf
      simp only [State.curve, hb, hd]
      exact h.scalar hh hf
  case signal =>
    have hf : (u.phases.set e .seeded).get f = .reseedRequired := hf
    by_cases hfe : f = e
    · subst hfe; rw [Phases.get_set_same] at hf; cases hf
    · rw [hphase, if_neg hfe] at hf
      refine Eq.trans ?_ (h.signal hh f hd hf)
      exact pastCeiling_congr hd hb (counter_congr (hu.others hfe))
  case flight =>
    show (u.phases.set e .seeded).get f ≠ .generating
    rw [hphase]
    split
    · decide
    · exact (h.flight hh).p0_ne_generating f

/-! ## The invariant under a step -/

theorem Inv.command {e : Engine} {op : CmdOp} {s t : State} (h : Inv s) (hh : s.halt = false)
    (he : ∀ f, f ≠ e → s.p0 f = s.phases.get f) (ht : CommandEnds e op s t) : Inv t := by
  have he' : ∀ f, some e ≠ some f → s.p0 f = s.phases.get f := fun f hf => he f fun k => hf (by rw [k])
  cases ht with
  | check c _ hc _ hs ht =>
    subst ht
    refine h.raise_error hh hc he' fun hr f hf => ?_
    obtain rfl := Option.some.inj hf
    obtain ⟨-, hp, hb⟩ := hs hr
    exact ⟨hp, (pastCeiling_iff e s).2 hb⟩
  | stall _ ht => subst ht; exact h
  | noEntropy rest _ ht =>
    subst ht
    exact (h.frame (t := { s with entropy := rest }) rfl).raise_error hh nofun he' nofun
  | success u n out hu hn hle hg hf ht =>
    subst ht
    exact h.succeed hh he hu hn hle hg (hf h.legal h.widths) out _
  | violation u hu hf ht =>
    subst ht
    exact Inv.halts (hu.inputs.build ▸ h.legal) (hu.widths h.widths (hf h.legal h.widths)) (hu.buffers h.buffers) _

theorem Inv.micro {s t : State} (h : Inv s) (hh : s.halt = false) (ht : MicroEnds s t) : Inv t := by
  cases ht with
  | runs ht hw =>
    have hw := hw h.legal h.widths
    generalize t.dp = d, t.ctr.key = ck, t.ctr.v = cv, t.hmac.k = mk, t.hmac.v = mv at ht
    subst ht
    exact h.congr rfl hw (h.buffers.congr rfl fun sp => by cases sp <;> rfl) ⟨h.halted.1, h.halted.2⟩ id
      (fun f => by cases f <;> rfl) rfl rfl rfl
  | violation own ht => subst ht; exact Inv.halts h.legal h.widths h.buffers _
  | check c hc ht =>
    subst ht
    exact h.raise_error hh (by rcases hc with rfl | rfl <;> decide) (fun f hf => p0_of_other hf)
      (fun hr => by rcases hc with rfl | rfl <;> cases hr)

theorem Inv.turn {s t : State} (h : Inv s) (ht : TurnEnds s t) : Inv t := by
  cases ht with
  | micro w hu ht =>
    have hh : s.halt = false := h.running (by simp [State.busy, hu])
    refine Inv.micro (s := { s with uop := none }) ?_ hh ht
    exact h.congr rfl (h.widths.congr (fun f => by cases f <;> rfl) rfl)
      (h.buffers.congr rfl fun sp => by cases sp <;> rfl) ⟨h.halted.1, by simp [hh]⟩ id (fun f => by cases f <;> rfl)
      rfl rfl rfl
  | command l i e op hu hl hd hi ht =>
    have hh : s.halt = false := h.running (by simp [State.busy, hl])
    exact h.command hh (fun f hf => (h.flight hh).phase_eq_p0 hl hd hi hf) ht
  | illegal l hu hl hc ht =>
    have hh : s.halt = false := h.running (by simp [State.busy, hl])
    subst ht
    exact h.raise_error hh nofun (fun f _ => p0_of_other (by simp [(h.flight hh).target_none hl hc])) nofun
  | idle _ ht => subst ht; exact h

theorem Inv.accept {s : State} (h : Inv s) (hb : s.busy = false) (hh : s.halt = false) (w : Word) :
    Inv (s.accept w) := by
  obtain ⟨hl, hg⟩ := h.idle_phase hh hb
  refine ⟨h.legal, h.widths.congr (fun f => by cases f <;> rfl) rfl, h.buffers.congr rfl fun sp => by cases sp <;> rfl,
    ⟨h.halted.1, by simp [hh]⟩, fun _ f hf => ?counters, fun _ hf => ?scalar, fun _ f hd hf => ?signal,
    fun _ => accept_flight hg w⟩
  case counters => exact h.counters hh f ((acceptPhases_uninit_iff ..).not.1 hf)
  case scalar => exact h.scalar hh ((acceptPhases_uninit_iff _ _ .dualec).not.1 hf)
  case signal =>
    rw [accept_p0, ← p0_of_idle hl] at hf
    refine Eq.trans ?_ (h.signal hh f hd hf)
    exact pastCeiling_congr hd rfl (by cases f <;> rfl)

theorem Inv.hostAccess {s t : State} (h : Inv s) (ht : HostEnds s t) : Inv t := by
  cases ht with
  | quiet ht => exact h.frame (by rw [ht])
  | accepted w hb hh ht => subst ht; exact h.accept hb hh w
  | ignored hb hh ht =>
    subst ht
    exact h.congr rfl (h.widths.congr (fun f => by cases f <;> rfl) rfl)
      (h.buffers.congr rfl fun sp => by cases sp <;> rfl) ⟨by simp [hh], fun _ => hb⟩ id (fun f => by cases f <;> rfl)
      rfl rfl rfl
  | filled sp bytes hl ht =>
    subst ht
    have hregs : ∀ f, SameRegs f s (s.fillBuffer sp bytes) := fun f => by cases f <;> simp [SameRegs]
    refine h.congr (by simp) (h.widths.congr hregs (by simp)) (h.buffers.fillBuffer hl) ?halted (by simp)
      (fun f => counter_congr (hregs f)) (by simp) (by simp) (by simp)
    exact ⟨by simpa using h.halted.1, by simpa [State.busy] using h.halted.2⟩

/-- Settles O19: the invariant under each of the moves a step can be. -/
theorem stepKeepsTheInvariant : Obligations.StepKeepsTheInvariant := by
  intro s t h hst
  cases step_ends hst with
  | turn agenda ht => exact (h.frame (t := { s with agenda := agenda }) rfl).turn ht
  | host rest ht => exact (h.frame (t := { s with agenda := rest }) rfl).hostAccess ht
  | entropy a rest ht => exact h.frame (by rw [ht])
  | reset rest _ ht => exact h.hwReset.frame (by rw [ht])

/-- Settles O18: a block of a legal build right after reset is `UNINIT` throughout, with registers of their widths. -/
theorem resetKeepsTheInvariant : Obligations.ResetKeepsTheInvariant :=
  Inv.of_uninit elaborated_legal
    ⟨zeros_length _, zeros_length _, zeros_length _, zeros_length _, zeros_length _, zeros_length _, zeros_length _⟩
    (fun sp => by cases sp <;> exact ⟨Memory.wf_nil, rfl⟩) rfl rfl rfl rfl

end Sys2Proof.Machine
end

section
/-! PROOF. Two runs side by side: states that differ in the working registers of `UNINIT` engines alone take steps that
differ in such registers alone (R27). -/

namespace Sys2Proof.Machine

/-! ## Twin states -/

/-- Two states that differ in working registers alone, and not in those of the engines in `K`. -/
structure Twin (K : Engine → Prop) (s s' : State) : Prop where
  frame : s' = s.withRegs s'.ctr s'.hash s'.hmac s'.dualec
  same  : ∀ f, K f → SameRegs f s s'

/-- Two states that differ in the working registers of `UNINIT` engines alone. -/
def Alike (s s' : State) : Prop := Twin (fun f => s.phases.get f ≠ .uninit) s s'

theorem Twin.exists_withRegs {K : Engine → Prop} {s s' : State} (h : Twin K s s') :
    ∃ c k m d, s' = s.withRegs c k m d := ⟨_, _, _, _, h.frame⟩

theorem Twin.mono {K L : Engine → Prop} {s s' : State} (h : Twin K s s') (hK : ∀ f, L f → K f) : Twin L s s' :=
  ⟨h.frame, fun f hf => h.same f (hK f hf)⟩

theorem hidden_eq_iff {α : Type} (p : Phase) (x a b : α) :
    (if p = .uninit then x else a) = (if p = .uninit then x else b) ↔ (p ≠ .uninit → b = a) := by
  by_cases hp : p = .uninit <;> simp [hp, eq_comm]

/-- `State.visible` hides exactly what `Alike` leaves open. -/
theorem visible_eq_iff (s s' : State) : s.visible = s'.visible ↔ Alike s s' := by
  constructor
  · intro h
    have hframe : s' = s.withRegs s'.ctr s'.hash s'.hmac s'.dualec := by
      have k := congrArg (State.withRegs s'.ctr s'.hash s'.hmac s'.dualec) h.symm
      exact k
    refine ⟨hframe, fun f => ?_⟩
    generalize s'.ctr = c, s'.hash = k, s'.hmac = m, s'.dualec = d at hframe
    subst hframe
    cases f
    · exact (hidden_eq_iff ..).1 (congrArg State.ctr h)
    · exact (hidden_eq_iff ..).1 (congrArg State.hash h)
    · exact (hidden_eq_iff ..).1 (congrArg State.hmac h)
    · exact (hidden_eq_iff ..).1 (congrArg State.dualec h)
  · intro h
    obtain ⟨c, k, m, d, rfl⟩ := h.exists_withRegs
    have hc := (hidden_eq_iff s.phases.ctr ⟨[], [], 0⟩ s.ctr c).2 (h.same .ctr)
    have hk := (hidden_eq_iff s.phases.hash ⟨[], [], 0⟩ s.hash k).2 (h.same .hash)
    have hm := (hidden_eq_iff s.phases.hmac ⟨[], [], 0⟩ s.hmac m).2 (h.same .hmac)
    have hd := (hidden_eq_iff s.phases.dualec ⟨[], .p256, 0⟩ s.dualec d).2 (h.same .dualec)
    unfold State.visible
    rw [hc, hk, hm, hd]
    rfl

/-! ## Twin states under the operations of a command -/

theorem raise_ctr (e : Option Engine) (c : Code) (s : State) :
    (s.raise e c).ctr = if c = .contractViolation ∧ e = some .ctr then freeCtr s.build s.freeCount else s.ctr := by
  by_cases h : c = .contractViolation
  · subst h; simp [State.raise_violation]
  · simp [State.raise_of_ne e c s h, h]

theorem raise_hash (e : Option Engine) (c : Code) (s : State) :
    (s.raise e c).hash = if c = .contractViolation ∧ e = some .hash then freeHash s.build s.freeCount else s.hash := by
  by_cases h : c = .contractViolation
  · subst h; simp [State.raise_violation]
  · simp [State.raise_of_ne e c s h, h]

theorem raise_hmac (e : Option Engine) (c : Code) (s : State) :
    (s.raise e c).hmac = if c = .contractViolation ∧ e = some .hmac then freeHmac s.build s.freeCount else s.hmac := by
  by_cases h : c = .contractViolation
  · subst h; simp [State.raise_violation]
  · simp [State.raise_of_ne e c s h, h]

theorem raise_dualec (e : Option Engine) (c : Code) (s : State) :
    (s.raise e c).dualec =
      if c = .contractViolation ∧ e = some .dualec then freeDualec s.build s.freeCount else s.dualec := by
  by_cases h : c = .contractViolation
  · subst h; simp [State.raise_violation]
  · simp [State.raise_of_ne e c s h, h]

theorem Twin.raise {K : Engine → Prop} {s s' : State} (h : Twin K s s') (e : Option Engine) (c : Code) :
    Twin K (s.raise e c) (s'.raise e c) := by
  obtain ⟨x, y, z, w, rfl⟩ := h.exists_withRegs
  refine ⟨?_, fun f hf => ?_⟩
  · have hp : (s.withRegs x y z w).phasesAfter e c = s.phasesAfter e c := by cases e <;> cases c <;> rfl
    by_cases hc : c = .contractViolation
    · subst hc; simp only [State.raise_violation]; rfl
    · simp only [State.raise_of_ne _ _ _ hc, hp]; rfl
  · have hs := h.same f hf
    cases f <;> simp only [SameRegs] at hs ⊢
    · rw [raise_ctr, raise_ctr, hs]; rfl
    · rw [raise_hash, raise_hash, hs]; rfl
    · rw [raise_hmac, raise_hmac, hs]; rfl
    · rw [raise_dualec, raise_dualec, hs]; rfl

theorem Twin.storeOut {K : Engine → Prop} {s s' : State} (h : Twin K s s') (n : Nat) (out : Bytes) :
    Twin K (s.storeOut n out) (s'.storeOut n out) := by
  obtain ⟨x, y, z, w, rfl⟩ := h.exists_withRegs
  exact ⟨rfl, fun f hf => by have := h.same f hf; cases f <;> exact this⟩

theorem Twin.succeed {K : Engine → Prop} {s s' : State} (h : Twin K s s') (e : Engine) (r : Nat) :
    Twin K (s.succeed e r) (s'.succeed e r) := by
  obtain ⟨x, y, z, w, rfl⟩ := h.exists_withRegs
  exact ⟨rfl, fun f hf => by have := h.same f hf; cases f <;> exact this⟩

theorem Alike.entropy {s s' : State} (h : Alike s s') (rest : List EntropyAnswer) :
    Alike { s with entropy := rest } { s' with entropy := rest } := by
  obtain ⟨x, y, z, w, rfl⟩ := h.exists_withRegs
  exact ⟨rfl, fun f hf => by have := h.same f hf; cases f <;> exact this⟩

theorem Alike.agenda {s s' : State} (h : Alike s s') (rest : List Input) :
    Alike { s with agenda := rest } { s' with agenda := rest } := by
  obtain ⟨x, y, z, w, rfl⟩ := h.exists_withRegs
  exact ⟨rfl, fun f hf => by have := h.same f hf; cases f <;> exact this⟩

section Put
variable {K : Engine → Prop} {s s' : State} (h : Twin K s s')
include h

/-! The same registers put into one engine of both states. -/

theorem Twin.putCtr (r : CtrRegs) : Twin (fun f => f = .ctr ∨ K f) { s with ctr := r } { s' with ctr := r } := by
  obtain ⟨x, y, z, w, rfl⟩ := h.exists_withRegs
  refine ⟨rfl, fun f hf => ?_⟩
  cases f with
  | ctr => rfl
  | hash | hmac | dualec => exact h.same _ (hf.resolve_left nofun)

theorem Twin.putHash (r : HashRegs) : Twin (fun f => f = .hash ∨ K f) { s with hash := r } { s' with hash := r } := by
  obtain ⟨x, y, z, w, rfl⟩ := h.exists_withRegs
  refine ⟨rfl, fun f hf => ?_⟩
  cases f with
  | hash => rfl
  | ctr | hmac | dualec => exact h.same _ (hf.resolve_left nofun)

theorem Twin.putHmac (r : HmacRegs) : Twin (fun f => f = .hmac ∨ K f) { s with hmac := r } { s' with hmac := r } := by
  obtain ⟨x, y, z, w, rfl⟩ := h.exists_withRegs
  refine ⟨rfl, fun f hf => ?_⟩
  cases f with
  | hmac => rfl
  | ctr | hash | dualec => exact h.same _ (hf.resolve_left nofun)

theorem Twin.putDualec (r : DualecRegs) :
    Twin (fun f => f = .dualec ∨ K f) { s with dualec := r } { s' with dualec := r } := by
  obtain ⟨x, y, z, w, rfl⟩ := h.exists_withRegs
  refine ⟨rfl, fun f hf => ?_⟩
  cases f with
  | dualec => rfl
  | ctr | hash | hmac => exact h.same _ (hf.resolve_left nofun)

end Put

/-! ## Twin states under the engines' own parts -/

theorem option_map_rel {α β : Type} {R : β → β → Prop} {g g' : α → β} (h : ∀ a, R (g a) (g' a)) (r : Option α) :
    Option.Rel R (r.map g) (r.map g') := by
  cases r with
  | none => exact .none
  | some a => exact .some (h a)

theorem option_rel_map {α β : Type} {R : α → α → Prop} {S : β → β → Prop} {g : α → β} {r r' : Option α}
    (h : Option.Rel R r r') (hg : ∀ a b, R a b → S (g a) (g b)) : Option.Rel S (r.map g) (r'.map g) := by
  cases h with
  | none => exact .none
  | some h => exact .some (hg _ _ h)

/-- Seeding reads no working register, and makes those of its engine the same. -/
theorem seedFn_twin {K : Engine → Prop} {s s' : State} (h : Twin K s s') (p : Prims) (e : Engine) (n : Nat)
    (m : Bytes) : Option.Rel (Twin fun f => f = e ∨ K f) (seedFn p e n m s) (seedFn p e n m s') := by
  obtain ⟨x, y, z, w, rfl⟩ := h.exists_withRegs
  cases e with
  | ctr => exact option_map_rel h.putCtr _
  | hash => exact option_map_rel h.putHash _
  | hmac => exact .some (h.putHmac _)
  | dualec => exact option_map_rel h.putDualec _

/-- Reseeding reads the working registers of its own engine alone. -/
theorem reseedFn_twin {K : Engine → Prop} {s s' : State} (h : Twin K s s') {e : Engine} (he : K e) (p : Prims)
    (x a : Bytes) : Option.Rel (Twin K) (reseedFn p e x a s) (reseedFn p e x a s') := by
  obtain ⟨c, k, m, d, rfl⟩ := h.exists_withRegs
  have hs := h.same e he
  cases e with
  | ctr =>
    obtain rfl : c = s.ctr := hs
    exact option_map_rel (fun r => (h.putCtr r).mono fun _ => .inr) _
  | hash =>
    obtain rfl : k = s.hash := hs
    exact option_map_rel (fun r => (h.putHash r).mono fun _ => .inr) _
  | hmac =>
    obtain rfl : m = s.hmac := hs
    exact .some ((h.putHmac _).mono fun _ => .inr)
  | dualec =>
    obtain rfl : d = s.dualec := hs
    exact option_map_rel (fun r => (h.putDualec r).mono fun _ => .inr) _

/-- So does the output part of GENERATE. -/
theorem produceFn_twin {K : Engine → Prop} {s s' : State} (h : Twin K s s') {e : Engine} (he : K e) (p : Prims)
    (a : Option Bytes) (n : Nat) :
    Option.Rel (fun x y => Twin K x.1 y.1 ∧ x.2 = y.2) (produceFn p e a n s) (produceFn p e a n s') := by
  obtain ⟨c, k, m, d, rfl⟩ := h.exists_withRegs
  have hs := h.same e he
  cases e with
  | ctr =>
    obtain rfl : c = s.ctr := hs
    exact option_map_rel (fun r => ⟨(h.putCtr r.1).mono fun _ => .inr, rfl⟩) _
  | hash =>
    obtain rfl : k = s.hash := hs
    exact option_map_rel (fun r => ⟨(h.putHash r.1).mono fun _ => .inr, rfl⟩) _
  | hmac =>
    obtain rfl : m = s.hmac := hs
    exact .some ⟨(h.putHmac _).mono fun _ => .inr, rfl⟩
  | dualec =>
    obtain rfl : d = s.dualec := hs
    exact option_map_rel (fun r => ⟨(h.putDualec r.1).mono fun _ => .inr, rfl⟩) _

/-! ## Alike states under the frames of the commands -/

/-- Taking an outcome initialises no engine, where the latch agrees with the phases. -/
theorem raise_uninit {s : State} {e f : Engine} {c : Code} (hp : s.p0 e = .uninit ↔ s.phases.get e = .uninit)
    (hc : c = .reseedRequired → s.phases.get e ≠ .uninit) (hf : (s.raise (some e) c).phases.get f ≠ .uninit) :
    s.phases.get f ≠ .uninit := by
  rw [State.raise_phases] at hf
  by_cases hfe : f = e
  · subst hfe
    by_cases hv : c = .contractViolation
    · subst hv; exact hf
    · by_cases hr : c = .reseedRequired
      · exact hc hr
      · rw [State.phasesAfter_error _ _ _ hv hr, Phases.get_set_same] at hf
        exact hp.not.1 hf
  · rwa [State.phasesAfter_other _ _ _ _ hfe] at hf

theorem Alike.raise {s s' : State} (h : Alike s s') {e : Engine} {c : Code}
    (hp : s.p0 e = .uninit ↔ s.phases.get e = .uninit) (hc : c = .reseedRequired → s.phases.get e ≠ .uninit) :
    Alike (s.raise (some e) c) (s'.raise (some e) c) :=
  (Twin.raise h (some e) c).mono fun _ => raise_uninit hp hc

theorem Alike.withEntropy {s s' : State} (h : Alike s s') {e : Engine}
    (hp : s.p0 e = .uninit ↔ s.phases.get e = .uninit) {k k' : Bytes → State → State}
    (hk : ∀ bytes rest, Alike (k bytes { s with entropy := rest }) (k' bytes { s' with entropy := rest })) :
    Alike (s.withEntropy e k) (s'.withEntropy e k') := by
  have he : s'.entropy = s.entropy := by rw [h.frame]; rfl
  match hs : s.entropy with
  | [] => rwa [State.withEntropy_nil _ _ _ hs, State.withEntropy_nil _ _ _ (he.trans hs)]
  | .fail :: rest =>
    rw [State.withEntropy_fail _ _ _ _ hs, State.withEntropy_fail _ _ _ _ (he.trans hs)]
    exact (h.entropy rest).raise hp nofun
  | .ok bytes :: rest =>
    rw [State.withEntropy_ok _ _ _ _ _ hs, State.withEntropy_ok _ _ _ _ _ (he.trans hs)]
    exact hk bytes rest

/-- The end of a command: a success makes its engine visible, with the same registers. -/
theorem Alike.conclude {s s' : State} (h : Alike s s') {e : Engine} (n : Nat)
    (hp : s.p0 e = .uninit ↔ s.phases.get e = .uninit) {r r' : Option State}
    (hr : Option.Rel (Twin fun f => f = e ∨ s.phases.get f ≠ .uninit) r r')
    (hph : ∀ u, r = some u → u.phases = s.phases) : Alike (s.conclude e n r) (s'.conclude e n r') := by
  cases hr with
  | none => exact h.raise hp nofun
  | some hu =>
    refine (hu.succeed e n).mono fun f hf => ?_
    rw [State.conclude_some, State.succeed_phases, hph _ rfl, Phases.get_set] at hf
    split at hf
    · rename_i hfe; exact .inl hfe
    · exact .inr hf

theorem Alike.instantiateFrame {s s' : State} (h : Alike s s') (p : Prims) {e : Engine}
    (hp : s.p0 e = .uninit ↔ s.phases.get e = .uninit) :
    Alike (instantiateFrame e (seedFn p e) s) (instantiateFrame e (seedFn p e) s') := by
  have hcheck : instantiateCheck e s' = instantiateCheck e s := by
    obtain ⟨x, y, z, w, rfl⟩ := h.exists_withRegs
    rfl
  have hmat : s'.nonceIn = s.nonceIn ∧ s'.persIn = s.persIn ∧ s'.strengthOp = s.strengthOp := by
    obtain ⟨x, y, z, w, rfl⟩ := h.exists_withRegs
    exact ⟨rfl, rfl, rfl⟩
  obtain ⟨hn, hpers, hs⟩ := hmat
  unfold Machine.instantiateFrame
  rw [hcheck, hn, hpers, hs]
  cases hc : instantiateCheck e s with
  | some c => exact h.raise hp fun k => absurd k (instantiateCheck_codes hc).2.2.2
  | none =>
    refine h.withEntropy hp fun bytes rest => ?_
    exact (h.entropy rest).conclude 0 hp (seedFn_twin (h.entropy rest) ..) fun u hu => by
      rw [(seedFn_touched hu).frame]

theorem Alike.emitFrame {s s' : State} (h : Alike s s') (p : Prims) {e : Engine} (he : s.phases.get e ≠ .uninit)
    (hp : s.p0 e = .uninit ↔ s.phases.get e = .uninit) (n : Nat) (a : Option Bytes) :
    Alike (emitFrame e (produceFn p e) n a s) (emitFrame e (produceFn p e) n a s') := by
  refine h.conclude _ hp ?_ fun u hu => ?_
  · refine option_rel_map (produceFn_twin h he p a n) fun x y hxy => ?_
    rw [hxy.2]
    refine (hxy.1.storeOut n y.2).mono fun f hf => ?_
    rcases hf with rfl | hf
    · exact he
    · exact hf
  · obtain ⟨x, hx, rfl⟩ := Option.map_eq_some_iff.1 hu
    rw [State.storeOut_phases, (produceFn_touched hx).frame]

/-- The ceiling is asked of an instantiated engine alone (R246, R250). -/
theorem Alike.generateCheck {s s' : State} (h : Alike s s') {e : Engine} (ai : Bool)
    (hp : s.p0 e = .uninit ↔ s.phases.get e = .uninit) : generateCheck e ai s' = generateCheck e ai s := by
  obtain ⟨c, k, m, d, rfl⟩ := h.exists_withRegs
  by_cases hu : s.p0 e = .uninit
  · have hu' : (s.withRegs c k m d).p0 e = .uninit := hu
    simp only [generateCheck_eq, hu, hu', if_true]
    rfl
  · have hs := h.same e (hp.not.1 hu)
    have hc : (s.withRegs c k m d).pastCeiling e = s.pastCeiling e := by
      cases e with
      | ctr => obtain rfl : c = s.ctr := hs; rfl
      | hash => obtain rfl : k = s.hash := hs; rfl
      | hmac => obtain rfl : m = s.hmac := hs; rfl
      | dualec => obtain rfl : d = s.dualec := hs; rfl
    unfold Machine.generateCheck
    rw [hc]
    rfl

theorem Alike.generateFrame {s s' : State} (h : Alike s s') (p : Prims) {e : Engine} (ai pr : Bool)
    (hp : s.p0 e = .uninit ↔ s.phases.get e = .uninit) :
    Alike (generateFrame e ai pr (reseedFn p e) (produceFn p e) s)
      (generateFrame e ai pr (reseedFn p e) (produceFn p e) s') := by
  have hin : s'.aiIn ai = s.aiIn ai ∧ s'.outLenOp = s.outLenOp := by
    obtain ⟨x, y, z, w, rfl⟩ := h.exists_withRegs
    exact ⟨rfl, rfl⟩
  unfold Machine.generateFrame
  rw [h.generateCheck ai hp, hin.1, hin.2]
  cases hc : Machine.generateCheck e ai s with
  | some c => exact h.raise hp fun k => hp.not.1 ((generateCheck_codes hc).2.2.2 k).1
  | none =>
    have he : s.phases.get e ≠ .uninit := hp.not.1 ((generateCheck_none e ai s).1 hc).2.1
    cases pr with
    | false => exact h.emitFrame p he hp _ _
    | true =>
      simp only [if_true]
      refine h.withEntropy hp fun bytes rest => ?_
      have hr := reseedFn_twin (h.entropy rest) he p bytes (orEmpty (s.aiIn ai))
      have hph : ∀ u, reseedFn p e bytes (orEmpty (s.aiIn ai)) { s with entropy := rest } = some u →
          u.phases = s.phases ∧ u.inflight = s.inflight := fun u hu => by
        rw [(reseedFn_touched hu).frame]; exact ⟨rfl, rfl⟩
      generalize reseedFn p e bytes (orEmpty (s.aiIn ai)) { s with entropy := rest } = r,
        reseedFn p e bytes (orEmpty (s.aiIn ai)) { s' with entropy := rest } = r' at hr hph
      cases hr with
      | none => exact (h.entropy rest).raise hp nofun
      | @some u u' hu =>
        obtain ⟨hphu, hlu⟩ := hph u rfl
        have hp0 : u.p0 e = s.p0 e := by simp only [State.p0, State.target, hphu, hlu]
        have hal : Alike u u' := hu.mono fun f hf => hphu ▸ hf
        exact hal.emitFrame p (by rwa [hphu]) (by rwa [hp0, hphu]) _ _

theorem Alike.reseedFrame {s s' : State} (h : Alike s s') (p : Prims) {e : Engine} (ai : Bool)
    (hp : s.p0 e = .uninit ↔ s.phases.get e = .uninit) :
    Alike (reseedFrame e ai (reseedFn p e) s) (reseedFrame e ai (reseedFn p e) s') := by
  have hin : s'.aiIn ai = s.aiIn ai ∧ reseedCheck e ai s' = reseedCheck e ai s := by
    obtain ⟨x, y, z, w, rfl⟩ := h.exists_withRegs
    exact ⟨rfl, rfl⟩
  unfold Machine.reseedFrame
  rw [hin.1, hin.2]
  cases hc : reseedCheck e ai s with
  | some c => exact h.raise hp fun k => absurd k (reseedCheck_codes hc).2.2.2
  | none =>
    have he : s.phases.get e ≠ .uninit := hp.not.1 ((reseedCheck_none e ai s).1 hc).2.1
    refine h.withEntropy hp fun bytes rest => (h.entropy rest).conclude 0 hp ?_ fun u hu => by
      rw [(reseedFn_touched hu).frame]
    refine reseedFn_twin (Twin.mono (h.entropy rest) fun f hf => ?_) (.inl rfl) p bytes _
    rcases hf with rfl | hf
    · exact he
    · exact hf

/-! ## Alike states under a step -/

theorem Alike.exec {s s' : State} (h : Alike s s') {i : Instr} {e : Engine} {op : CmdOp}
    (hi : i.command = some (e, op)) (hp : s.p0 e = .uninit ↔ s.phases.get e = .uninit) :
    ∃ t t', exec i s = .next t ∧ exec i s' = .next t' ∧ Alike t t' := by
  rcases command_is hi with ⟨-, rfl⟩ | ⟨-, ai, pr, rfl⟩ | ⟨-, ai, rfl⟩
  · exact ⟨_, _, exec_instantiateOf e s, exec_instantiateOf e s', h.instantiateFrame _ hp⟩
  · exact ⟨_, _, exec_generateOf e ai pr s, exec_generateOf e ai pr s', h.generateFrame _ ai pr hp⟩
  · exact ⟨_, _, exec_reseedOf e ai s, exec_reseedOf e ai s', h.reseedFrame _ ai hp⟩

theorem mapNext_visible {t t' : State} (h : Alike t t') :
    mapNext State.visible (.next t) = mapNext State.visible (.next t') :=
  congrArg Host.Outcome.next ((visible_eq_iff t t').2 h)

theorem Alike.blockTurn {s s' : State} (h : Alike s s') (hi : Inv s) (hu : s.uop = none) :
    mapNext State.visible (blockTurn s) = mapNext State.visible (blockTurn s') := by
  have hsame : s'.uop = s.uop ∧ s'.inflight = s.inflight := by
    obtain ⟨x, y, z, w, rfl⟩ := h.exists_withRegs
    exact ⟨rfl, rfl⟩
  have hu' := hsame.1.trans hu
  cases hl : s.inflight with
  | none =>
    rw [blockTurn_idle hu hl, blockTurn_idle hu' (hsame.2.trans hl)]
    exact mapNext_visible h
  | some l =>
    have hp := (hi.flight (hi.running (by simp [State.busy, hl]))).p0_uninit_iff
    rw [blockTurn_command hu hl, blockTurn_command hu' (hsame.2.trans hl)]
    rcases decode_command_cases l.word with hn | ⟨i, e, op, hd, hc⟩
    · rw [runCommand_illegal hn, runCommand_illegal hn]
      refine mapNext_visible ((Twin.raise h none .illegalCommand).mono fun f hf => ?_)
      rwa [State.raise_phases] at hf
    · rw [runCommand_command hd hc, runCommand_command hd hc]
      obtain ⟨t, t', ht, ht', hal⟩ := h.exec hc (hp e)
      rw [ht, ht']
      exact mapNext_visible hal

/-- A host access leaves the working registers, and every engine `UNINIT` or not (R38, R243). -/
theorem HostEnds.uninit_iff {s t : State} (h : HostEnds s t) (f : Engine) :
    SameRegs f s t ∧ (t.phases.get f = .uninit ↔ s.phases.get f = .uninit) := by
  cases h with
  | quiet h => rw [h]; exact ⟨by cases f <;> rfl, Iff.rfl⟩
  | accepted w _ _ h => subst h; exact ⟨by cases f <;> rfl, acceptPhases_uninit_iff ..⟩
  | ignored _ _ h => subst h; exact ⟨by cases f <;> rfl, Iff.rfl⟩
  | filled sp bytes _ h => subst h; exact ⟨by cases f <;> simp [SameRegs], by rw [State.fillBuffer_phases]⟩

theorem Alike.hostAccess {s s' : State} (h : Alike s s') (x : HostStep) :
    mapNext State.visible (hostAccess x s) = mapNext State.visible (hostAccess x s') := by
  obtain ⟨c, k, m, d, rfl⟩ := h.exists_withRegs
  rw [hostCannotSeeWorkingState s x c k m d]
  cases ht : Machine.hostAccess x s with
  | fault r => rfl
  | refused r => rfl
  | next t =>
    refine mapNext_visible ⟨rfl, fun f hf => ?_⟩
    obtain ⟨hregs, huninit⟩ := (hostAccess_ends ht).uninit_iff f
    have hs := h.same f (huninit.not.1 hf)
    cases f <;> exact Eq.trans hs (Eq.symm hregs)

/-- Settles O22: each move a step can be keeps states alike. -/
theorem hostCommandsNeverReadUninitRegisters : Obligations.HostCommandsNeverReadUninitRegisters := by
  intro s s' hi hu hv
  have h := (visible_eq_iff s s').1 hv
  have hsame : s'.agenda = s.agenda ∧ s'.busy = s.busy ∧ s'.entropy = s.entropy ∧ s'.hwReset = s.hwReset := by
    obtain ⟨c, k, m, d, rfl⟩ := h.exists_withRegs
    exact ⟨rfl, rfl, rfl, rfl⟩
  obtain ⟨hagenda, hbusy, hentropy, hreset⟩ := hsame
  cases ha : s.agenda with
  | nil =>
    rw [step_idle ha, step_idle (hagenda.trans ha)]
    exact h.blockTurn hi hu
  | cons x rest =>
    have ha' := hagenda.trans ha
    cases x with
    | block =>
      rw [step_block ha, step_block ha']
      exact (h.agenda rest).blockTurn (hi.frame rfl) hu
    | entropy a =>
      rw [step_entropy ha, step_entropy ha', hentropy]
      exact mapNext_visible ((h.agenda rest).entropy _)
    | reset => rw [step_reset ha, step_reset ha', hreset]
    | host x =>
      by_cases hx : x = .poll
      · subst hx
        rw [step_poll ha, step_poll ha', hbusy]
        split
        · exact h.blockTurn hi hu
        · exact (h.agenda rest).hostAccess .poll
      · rw [step_host ha hx, step_host ha' hx]
        exact (h.agenda rest).hostAccess x

end Sys2Proof.Machine
end

section
/-! PROOF. The host's access to the buffers, a command that waits for its entropy, and the point at infinity (R60, R66,
R69, R276, R277, R311). -/

namespace Sys2Proof.Machine

/-! ## FILL and DUMP (R60, R90) -/

theorem hostAccess_fill_idle {s : State} (h : s.busy = false) (sp : Space) (bytes : Bytes) :
    hostAccess (.fill sp bytes) s = fillSpace sp bytes s :=
  guarded_idle h _ _

theorem hostAccess_dump_idle {s : State} (h : s.busy = false) (sp : Space) (n : Nat) :
    hostAccess (.dump sp n) s = dumpSpace sp n s :=
  guarded_idle h _ _

theorem fillSpace_fits {s : State} {sp : Space} {bytes : Bytes} (h : bytes.length ≤ capacity s.build sp) :
    fillSpace sp bytes s = .next (s.fillBuffer sp bytes) :=
  if_neg h.not_gt

theorem fillSpace_above {s : State} {sp : Space} {bytes : Bytes} (h : capacity s.build sp < bytes.length) :
    fillSpace sp bytes s = .fault (.noSuchByte sp) :=
  if_pos h

theorem dumpSpace_fits {s : State} {sp : Space} {n : Nat} (h : n ≤ capacity s.build sp) :
    dumpSpace sp n s = .next { s with hostBytes := Memory.readBytes (s.buffer sp) 0 n } :=
  if_neg h.not_gt

theorem dumpSpace_above {s : State} {sp : Space} {n : Nat} (h : capacity s.build sp < n) :
    dumpSpace sp n s = .fault (.noSuchByte sp) :=
  if_pos h

/-- What a buffer reads as after a fill: the bytes from offset 0, and the old contents behind them. -/
theorem read_fillBuffer {s : State} {sp : Space} (bytes : Bytes) (hwf : Memory.wf (s.buffer sp) = true) (a : Nat) :
    Memory.read ((s.fillBuffer sp bytes).buffer sp) a = (bytes[a]?).getD (Memory.read (s.buffer sp) a) := by
  rw [State.fillBuffer_same, Memory.read_writeBytes 0 bytes a hwf, if_pos a.zero_le, Nat.sub_zero]

/-- A fill changes nothing but buffers. -/
theorem fillBuffer_frame (sp : Space) (bytes : Bytes) (s : State) :
    s.fillBuffer sp bytes = { s with
      pers := (s.fillBuffer sp bytes).pers, nonce := (s.fillBuffer sp bytes).nonce
      ai := (s.fillBuffer sp bytes).ai, out := (s.fillBuffer sp bytes).out } := by
  cases sp <;> rfl

theorem Memory.readBytes_eq_map_range (m : Memory) (n : Nat) :
    Memory.readBytes m 0 n = (List.range n).map (Memory.read m) :=
  List.ext_getElem (by simp) fun i hi _ => by
    have h := Memory.readBytes_getElem? m 0 n i (by simpa using hi)
    rw [List.getElem?_eq_getElem hi] at h
    simpa using h

/-- Settles O14: each of the two accesses to an idle block, within the capacity and above it. -/
theorem bufferAccess : Obligations.BufferAccess := by
  intro s sp rest hb
  have hb' : State.busy { s with agenda := rest } = false := hb
  refine ⟨fun bytes ha => ?fill, fun n ha => ?dump⟩
  case fill =>
    rw [step_host ha nofun, hostAccess_fill_idle hb']
    refine ⟨fun hfit hwf => ?_, fillSpace_above (s := { s with agenda := rest })⟩
    exact ⟨_, fillSpace_fits hfit, read_fillBuffer (s := { s with agenda := rest }) bytes hwf,
      fun q hq => State.fillBuffer_other sp q bytes { s with agenda := rest } hq, fillBuffer_frame ..⟩
  case dump =>
    rw [step_host ha nofun, hostAccess_dump_idle hb', ← Memory.readBytes_eq_map_range]
    exact ⟨dumpSpace_fits (s := { s with agenda := rest }), dumpSpace_above (s := { s with agenda := rest })⟩

/-! ## A command that has passed its checks asks for entropy (R65, R250) -/

theorem exec_instantiate_ready {e : Engine} {s : State} (h : InstantiateReady e s) :
    ∃ k, exec (instantiateOf e) s = .next (s.withEntropy e k) := by
  rw [exec_instantiateOf, instantiateFrame, (instantiateCheck_none e s).2 h]
  exact ⟨_, rfl⟩

theorem exec_generate_ready {e : Engine} {ai : Bool} {s : State} (h : GenerateReady e ai s) :
    ∃ k, exec (generateOf e ai true) s = .next (s.withEntropy e k) := by
  rw [exec_generateOf, generateFrame, (generateCheck_none e ai s).2 h]
  exact ⟨_, congrArg _ (if_pos rfl)⟩

theorem exec_reseed_ready {e : Engine} {ai : Bool} {s : State} (h : ReseedReady e ai s) :
    ∃ k, exec (reseedOf e ai) s = .next (s.withEntropy e k) := by
  rw [exec_reseedOf, reseedFrame, (reseedCheck_none e ai s).2 h]
  exact ⟨_, rfl⟩

/-- An entropy failure leaves its engine in the phase it had at acceptance (R276). -/
theorem raise_entropyFailure (e : Engine) (s : State) :
    s.raise (some e) .entropyFailure = { s with
      err := .entropyFailure, result := BitVec.ofInt 64 (-6), phases := s.phases.set e (s.p0 e)
      inflight := none, uop := none } :=
  State.raise_of_ne (some e) .entropyFailure s nofun

/-- Settles O32: the three ready commands all ask for entropy, and only the answer matters from there. -/
theorem entropyFailureAndStall : Obligations.EntropyFailureAndStall := by
  intro e i ai s h
  obtain ⟨k, hk⟩ : ∃ k, exec i s = .next (s.withEntropy e k) := by
    rcases h with ⟨rfl, hr⟩ | ⟨rfl, hr⟩ | ⟨rfl, hr⟩
    · exact exec_instantiate_ready hr
    · exact exec_generate_ready hr
    · exact exec_reseed_ready hr
  rw [hk]
  refine ⟨fun rest hfail => ?_, fun hnone => congrArg _ (State.withEntropy_nil e k s hnone)⟩
  rw [State.withEntropy_fail e k s rest hfail]
  exact congrArg _ (raise_entropyFailure e { s with entropy := rest })

/-! ## The point at infinity (R66, R219 (g), R277) -/

theorem portEcMulX_infinity {order k : Nat} (h : k % order = 0) (p : Prims) (row : Row) (c : Curve) (pt : Point) :
    portEcMulX p row c pt order k = none :=
  if_pos h

/-- Where the first multiple of `P` is the point at infinity there is no output: the first block asks for it, or, with
no block, the last advance of `s` does. -/
theorem dualecProduce_infinity {p : Prims} {b : Build} {r : DualecRegs} {n : Nat}
    (h : be r.s % (curveOf b r.row).pOrder = 0) : dualecProduce p b r none n = none := by
  have hmul := portEcMulX_infinity h p r.row (curveOf b r.row) (curveOf b r.row).p
  unfold dualecProduce
  cases ceilDiv n (curveOf b r.row).outlen with
  | zero => simp [dualecAbsorb, dualecBlocks, hmul]
  | succ blocks => simp [dualecAbsorb, dualecBlocks, hmul]

/-- A contract violation halts the block and touches the registers of its engine alone (R277). -/
theorem raise_halted (e : Option Engine) (s : State) : HaltedFrom e s (s.raise e .contractViolation) where
  err := State.raise_err ..
  result := State.raise_result ..
  halt := raise_halt e s
  busy := State.raise_busy ..
  phases := by rw [State.raise_violation, State.finish_phases]
  inputs := raise_inputs ..
  others _ hf := raise_sameRegs s (.inr hf.symm)

/-- Settles O53: with nothing produced the command ends with the contract violation. -/
theorem dualecInfinityHalts : Obligations.DualecInfinityHalts := by
  intro s hready hinf
  refine ⟨_, ?_, raise_halted (some .dualec) s⟩
  have hnone : produceFn Config.prims .dualec none s.outLenOp s = none := by
    rw [produceFn, dualecProduce_infinity hinf, Option.map_none]
  have hemit : emitFrame .dualec (produceFn Config.prims .dualec) s.outLenOp none s =
      s.raise (some .dualec) .contractViolation := by
    rw [emitFrame, hnone, Option.map_none, State.conclude_none]
  calc exec (generateOf .dualec false false) s
      = .next (emitFrame .dualec (produceFn Config.prims .dualec) s.outLenOp none s) := by
        rw [exec_generateOf, generateFrame, (generateCheck_none .dualec false s).2 hready]; rfl
    _ = .next (s.raise (some .dualec) .contractViolation) := congrArg _ hemit

end Sys2Proof.Machine
end

section
/-! PROOF. The opcode map as a table: a word selects at most one row, the decoder answers that row's instruction, and
the encoder puts a row's free bits back beside its fixed ones (R80 to R88). -/

namespace Sys2Proof

/-! ## Selecting a row (R84) -/

theorem OpRow.selects_iff {r : OpRow} {w : Word} : r.selects w = true ↔ w &&& r.mask = r.mat :=
  beq_iff_eq

/-- Two rows that fix some bit to different values have no word in common. -/
theorem not_selects_both {a b : OpRow} (h : a.mat &&& b.mask ≠ b.mat &&& a.mask) (w : Word) :
    ¬(a.selects w = true ∧ b.selects w = true) := by
  rw [OpRow.selects_iff, OpRow.selects_iff]
  rintro ⟨ha, hb⟩
  apply h
  rw [← ha, ← hb, BitVec.and_assoc, BitVec.and_assoc, BitVec.and_comm a.mask]

/-- Settles O3: any two rows of the table fix a bit to different values. -/
theorem rowsDoNotOverlap : Obligations.RowsDoNotOverlap := by
  have hfixed : opTable.Pairwise fun a b => a.mat &&& b.mask ≠ b.mat &&& a.mask := by decide
  exact ⟨rfl, hfixed.imp not_selects_both⟩

/-- A search finds the one element that satisfies the predicate. -/
theorem find?_eq_some_of_pairwise {α : Type} {p : α → Bool} {l : List α}
    (hl : l.Pairwise fun a b => ¬(p a = true ∧ p b = true)) {a : α} (ha : a ∈ l) (hp : p a = true) :
    l.find? p = some a := by
  induction hl with
  | nil => cases ha
  | @cons x xs hx _ ih =>
    rcases List.mem_cons.1 ha with rfl | ha
    · exact List.find?_cons_of_pos hp
    · rw [List.find?_cons_of_neg fun hpx => hx a ha ⟨hpx, hp⟩, ih ha]

/-! ## The decoder by the row (R84, R87) -/

theorem decode_of_selects {r : OpRow} {w : Word} (hr : r ∈ opTable) (h : r.selects w = true) :
    decode w = if (r.make w).wf then .ok (r.make w) else .error .reservedShiftCount := by
  have hfind : opTable.find? (fun r => r.selects w) = some r :=
    find?_eq_some_of_pairwise (rowsDoNotOverlap.2.imp fun hab => hab w) hr h
  simp only [decode, hfind]

theorem decode_of_no_row {w : Word} (h : ∀ r ∈ opTable, r.selects w = false) :
    decode w = .error (rejectReason w) := by
  have hfind : opTable.find? (fun r => r.selects w) = none :=
    List.find?_eq_none.2 fun r hr => by simp [h r hr]
  simp only [decode, hfind]

theorem decode_ok {w : Word} {i : Instr} (h : decode w = .ok i) :
    ∃ r ∈ opTable, r.selects w = true ∧ r.make w = i ∧ i.wf = true := by
  by_cases hsel : ∃ r ∈ opTable, r.selects w = true
  · obtain ⟨r, hr, hs⟩ := hsel
    rw [decode_of_selects hr hs] at h
    split at h
    · rename_i hwf
      obtain rfl := Except.ok.inj h
      exact ⟨r, hr, hs, rfl, hwf⟩
    · cases h
  · rw [decode_of_no_row fun r hr => by simpa using fun hs => hsel ⟨r, hr, hs⟩] at h
    cases h

/-! ## The encoder by the row (R85, R86) -/

/-- The word of an instruction selects a row that gives the instruction back. -/
theorem exists_row_of_encode (i : Instr) :
    ∃ r ∈ opTable, r.selects (encode i) = true ∧ r.make (encode i) = i := by
  cases i with
  | ctrGenerate ai pr | hashGenerate ai pr | hmacGenerate ai pr | dualecGenerate ai pr => revert ai pr; decide
  | ctrReseed ai | hashReseed ai | hmacReseed ai | dualecReseed ai => revert ai; decide
  | shrBits k | shlBits k => revert k; decide
  | hmacUpdatePass marker => revert marker; decide
  | _ => decide

/-- Settles O1: by the row of the instruction's word. -/
theorem decodeOfEncode : Obligations.DecodeOfEncode := by
  intro i hwf
  obtain ⟨r, hr, hs, hi⟩ := exists_row_of_encode i
  rw [decode_of_selects hr hs, hi, if_pos hwf]

/-- The three low bits of a word, the only ones that a row leaves free. -/
theorem and_seven (w : Word) : w &&& 7 = (immField w).setWidth 32 := by
  apply BitVec.eq_of_toNat_eq
  simp only [immField, BitVec.toNat_and, BitVec.toNat_setWidth, BitVec.extractLsb'_toNat, Nat.shiftRight_zero]
  exact (Nat.and_two_pow_sub_one_eq_mod w.toNat 3).trans (by omega)

theorem aiBit_and_seven (w : Word) : aiBit (w &&& 7) = aiBit w := by simp [aiBit]

theorem lowBit_and_seven (w : Word) : lowBit (w &&& 7) = lowBit w := by simp [lowBit]

theorem immField_and_seven (w : Word) : immField (w &&& 7) = immField w := by
  have hlow : ∀ k : BitVec 3, (k.setWidth 32).extractLsb' 0 3 = k := by decide
  rw [and_seven]
  exact hlow (immField w)

/-- A row reads its operands from the three low bits. -/
theorem make_and_seven {r : OpRow} (hr : r ∈ opTable) (w : Word) : r.make (w &&& 7) = r.make w := by
  revert r
  simp only [opTable, hostRows, microRows, List.cons_append, List.nil_append, List.forall_mem_cons, aiBit_and_seven,
    lowBit_and_seven, immField_and_seven, List.not_mem_nil, false_imp_iff, implies_true, and_self]

/-- The encoder puts the free bits of a row beside its fixed ones. -/
theorem encode_make {r : OpRow} (hr : r ∈ opTable) (w : Word) :
    encode (r.make w) = r.mat ||| (w &&& ~~~r.mask) := by
  have hlow : ∀ r ∈ opTable, ∀ k : BitVec 3,
      encode (r.make (k.setWidth 32)) = r.mat ||| (k.setWidth 32 &&& ~~~r.mask) := by decide
  have hfree : ∀ r ∈ opTable, 7 &&& ~~~r.mask = ~~~r.mask := by decide
  rw [← make_and_seven hr w, and_seven, hlow r hr, ← and_seven, BitVec.and_assoc, hfree r hr]

/-- A word that selects a row is the word of the row's instruction. -/
theorem encode_make_of_selects {r : OpRow} {w : Word} (hr : r ∈ opTable) (h : r.selects w = true) :
    encode (r.make w) = w := by
  rw [encode_make hr, ← OpRow.selects_iff.1 h]
  ext i
  simp only [BitVec.getElem_or, BitVec.getElem_and, BitVec.getElem_not]
  cases w[i] <;> cases r.mask[i] <;> rfl

/-- Settles O2: by the row the word selects. -/
theorem encodeOfDecode : Obligations.EncodeOfDecode := by
  intro w i h
  obtain ⟨r, hr, hs, rfl, hwf⟩ := decode_ok h
  exact ⟨hwf, encode_make_of_selects hr hs⟩

/-- Settles O5: each word is looked up in the table. -/
theorem sampleWordsDecode : Obligations.SampleWordsDecode :=
  ⟨rfl, rfl, rfl, rfl, rfl, rfl, rfl, rfl, rfl, rfl, rfl, rfl, rfl⟩

/-! ## Reserved words (R87) -/

/-- Field `UNIT` of a word (R80). -/
def unitField (w : Word) : Nat := (w.extractLsb' 28 4).toNat

/-- Field `OP` of a word (R80). -/
def opField (w : Word) : Nat := (w.extractLsb' 24 4).toNat

theorem unitField_eq (w : Word) : unitField w = (w.ushiftRight 28).toNat := by
  have h : (w.ushiftRight 28).toNat = w.toNat >>> 28 := BitVec.toNat_ushiftRight w 28
  rw [unitField, BitVec.extractLsb'_toNat, h, Nat.shiftRight_eq_div_pow]
  omega

/-- The opcode byte, bits 31:24, is `UNIT` and `OP`. -/
theorem opcodeByte_eq_iff (v w : Word) :
    v.ushiftRight 24 = w.ushiftRight 24 ↔ unitField v = unitField w ∧ opField v = opField w := by
  have h (x : Word) : (x.ushiftRight 24).toNat = x.toNat >>> 24 := BitVec.toNat_ushiftRight x 24
  rw [BitVec.toNat_eq, h, h, unitField, unitField, opField, opField]
  simp only [BitVec.extractLsb'_toNat, Nat.shiftRight_eq_div_pow]
  omega

/-- A word selects no row where it sets a bit that the row fixes to 0. -/
theorem selects_eq_false {r : OpRow} {w m : Word} (hmask : r.mask &&& m = m) (hmat : r.mat &&& m = 0)
    (hw : w &&& m ≠ 0) : r.selects w = false := by
  rw [Bool.eq_false_iff, ne_eq, OpRow.selects_iff]
  intro h
  apply hw
  rw [← hmask, ← BitVec.and_assoc, h, hmat]

/-- The word of a row has the row's `UNIT` and `OP`: every row fixes the opcode byte. -/
theorem fields_of_selects {r : OpRow} {w : Word} (hr : r ∈ opTable) (h : r.selects w = true) :
    unitField r.mat = unitField w ∧ opField r.mat = opField w := by
  have hbyte : ∀ r ∈ opTable, r.mask.ushiftRight 24 = 0xFF := by decide
  rw [← opcodeByte_eq_iff, ← OpRow.selects_iff.1 h]
  have hand : (w &&& r.mask) >>> 24 = w >>> 24 &&& r.mask >>> 24 := BitVec.ushiftRight_and_distrib w r.mask 24
  have hw : w >>> 24 &&& 0xFF = w >>> 24 := by
    apply BitVec.eq_of_toNat_eq
    rw [BitVec.toNat_and, BitVec.toNat_ushiftRight, Nat.shiftRight_eq_div_pow]
    exact (Nat.and_two_pow_sub_one_eq_mod _ 8).trans (Nat.mod_eq_of_lt (by omega))
  exact hand.trans ((congrArg _ (hbyte r hr)).trans hw)

/-- A word that sets a bit which the rows of its `UNIT` and `OP` all fix to 0 is no instruction. -/
theorem decode_of_zero_bits {w m : Word} (hw : w &&& m ≠ 0)
    (hrows : ∀ r ∈ opTable, unitField r.mat = unitField w → opField r.mat = opField w →
      r.mask &&& m = m ∧ r.mat &&& m = 0) : decode w = .error (rejectReason w) := by
  refine decode_of_no_row fun r hr => Bool.eq_false_iff.2 fun hs => ?_
  obtain ⟨hunit, hop⟩ := fields_of_selects hr hs
  obtain ⟨hmask, hmat⟩ := hrows r hr hunit hop
  exact Bool.eq_false_iff.1 (selects_eq_false hmask hmat hw) hs

/-- A word whose `UNIT` and `OP` are of no row is no instruction. -/
theorem decode_of_no_opcode {w : Word}
    (h : ∀ r ∈ opTable, unitField r.mat = unitField w → opField r.mat ≠ opField w) :
    decode w = .error (rejectReason w) := by
  refine decode_of_no_row fun r hr => Bool.eq_false_iff.2 fun hs => ?_
  obtain ⟨hunit, hop⟩ := fields_of_selects hr hs
  exact h r hr hunit hop

theorem rejectReason_unit {w : Word} (h : 6 ≤ unitField w) : rejectReason w = .reservedUnit := by
  rw [unitField_eq] at h
  simp only [rejectReason, h, if_true]

theorem find?_opcode_isNone {w : Word} :
    (opTable.find? fun r => r.mat.ushiftRight 24 == w.ushiftRight 24).isNone = true ↔
      ∀ r ∈ opTable, unitField r.mat = unitField w → opField r.mat ≠ opField w := by
  simp only [Option.isNone_iff_eq_none, List.find?_eq_none, beq_iff_eq, opcodeByte_eq_iff, not_and, ne_eq]

theorem rejectReason_op {w : Word} (hu : unitField w < 6)
    (h : ∀ r ∈ opTable, unitField r.mat = unitField w → opField r.mat ≠ opField w) :
    rejectReason w = .reservedOp := by
  rw [unitField_eq] at hu
  rw [rejectReason, if_neg hu.not_ge, if_pos (find?_opcode_isNone.2 h)]

theorem rejectReason_bits {w : Word} (hu : unitField w < 6)
    (h : ∃ r ∈ opTable, unitField r.mat = unitField w ∧ opField r.mat = opField w)
    (hw : w &&& (0x00FFFFFC : Word) ≠ 0) : rejectReason w = .reservedBits := by
  obtain ⟨r, hr, hunit, hop⟩ := h
  rw [unitField_eq] at hu
  rw [rejectReason, if_neg hu.not_ge, if_neg fun k => find?_opcode_isNone.1 k r hr hunit hop,
    if_neg fun k => hw (beq_iff_eq.1 k)]

/-! What the rows of R84 and R85 say of the reserved words, read off the table. -/

theorem unitField_row : ∀ r ∈ opTable, unitField r.mat < 6 := by decide

theorem opField_row : ∀ r ∈ opTable, 2 ≤ unitField r.mat → opField r.mat < 3 ∨ 7 < opField r.mat := by decide

theorem exists_command_row {unit op : Nat} (h2 : 2 ≤ unit) (h5 : unit ≤ 5) (hop : op ≤ 2) :
    ∃ r ∈ opTable, unitField r.mat = unit ∧ opField r.mat = op := by
  have h : ∀ unit < 6, ∀ op < 3, 2 ≤ unit → ∃ r ∈ opTable, unitField r.mat = unit ∧ opField r.mat = op := by
    decide
  exact h unit (by omega) op (by omega) h2

/-- A host command fixes bits 23:2 to 0 (R80). -/
theorem command_row_reserved : ∀ r ∈ opTable, 2 ≤ unitField r.mat → opField r.mat ≤ 2 →
    r.mask &&& 0x00FFFFFC = 0x00FFFFFC ∧ r.mat &&& 0x00FFFFFC = 0 := by decide

/-- RESEED has no flag `PR` (R84). -/
theorem reseed_row_flags : ∀ r ∈ opTable, 2 ≤ unitField r.mat → opField r.mat = 2 →
    r.mask &&& 1 = 1 ∧ r.mat &&& 1 = 0 := by decide

/-- INSTANTIATE has no flag (R84). -/
theorem instantiate_row_flags : ∀ r ∈ opTable, 2 ≤ unitField r.mat → opField r.mat = 0 →
    r.mask &&& 3 = 3 ∧ r.mat &&& 3 = 0 := by decide

/-- Settles O4: what the rows of the word's `UNIT` and `OP` say of its other bits. -/
theorem reservedWordsRejected : Obligations.ReservedWordsRejected := by
  intro w unit op hunit hop
  change unitField w = unit at hunit
  change opField w = op at hop
  subst hunit hop
  refine ⟨fun h6 => ?unit, fun h2 h5 h3 h7 => ?op, fun h2 h5 hop hw => ?bits, fun h2 h5 hop hw => ?reseed,
    fun h2 h5 hop hw => ?instantiate, fun hw => ?shift⟩
  case unit =>
    rw [decode_of_no_opcode fun r hr hu => absurd (unitField_row r hr) (by omega), rejectReason_unit h6]
  case op =>
    have hnone : ∀ r ∈ opTable, unitField r.mat = unitField w → opField r.mat ≠ opField w := fun r hr hu => by
      have := opField_row r hr (hu ▸ h2)
      omega
    rw [decode_of_no_opcode hnone, rejectReason_op (by omega) hnone]
  case bits =>
    rw [decode_of_zero_bits hw fun r hr hu ho => command_row_reserved r hr (hu ▸ h2) (ho ▸ hop),
      rejectReason_bits (by omega) (exists_command_row h2 h5 hop) hw]
  case reseed =>
    exact ⟨_, decode_of_zero_bits hw fun r hr hu ho => reseed_row_flags r hr (hu ▸ h2) (ho.trans hop)⟩
  case instantiate =>
    exact ⟨_, decode_of_zero_bits hw fun r hr hu ho => instantiate_row_flags r hr (hu ▸ h2) (ho.trans hop)⟩
  case shift => rcases hw with rfl | rfl <;> rfl

end Sys2Proof
end

section
/-! PROOF. A word of no host command of a present engine, from its write to the end (R87, R278). -/

namespace Sys2Proof.Machine

/-- An error outcome other than the reseed signal changes no phase where the engine has the phase it had at
acceptance. -/
theorem raise_keeps_phases {s : State} {e : Option Engine} {c : Code} (h1 : c ≠ .contractViolation)
    (h2 : c ≠ .reseedRequired) (hp : ∀ f, e = some f → s.p0 f = s.phases.get f) :
    s.raise e c = s.finish c (codeResult c) s.phases := by
  rw [State.raise_of_ne e c s h1]
  cases e with
  | none => rfl
  | some f => rw [State.phasesAfter_error f c s h1 h2, hp f rfl, Phases.set_get]

/-- A command of an engine that is not in the build is `IllegalCommand`: the presence check is the first (R87 (e),
R250). -/
theorem exec_absent {i : Instr} {e : Engine} {op : CmdOp} {s : State} (hi : i.command = some (e, op))
    (h : hasEngine s.build e = false) : exec i s = .next (s.raise (some e) .illegalCommand) := by
  rcases command_is hi with ⟨-, rfl⟩ | ⟨-, ai, pr, rfl⟩ | ⟨-, ai, rfl⟩
  · rw [exec_instantiateOf, instantiateFrame, instantiateCheck_eq, if_pos h]
  · rw [exec_generateOf, generateFrame, generateCheck_eq, if_pos h]
  · rw [exec_reseedOf, reseedFrame, reseedCheck_eq, if_pos h]

/-- A word that names no host command of a present engine: of no host command at all, or of an absent engine. -/
theorem refused_word_cases {w : Word} {b : Build}
    (h : ∀ i, decode w = .ok i → i.command = none ∨ ∃ e op, i.command = some (e, op) ∧ hasEngine b e = false) :
    (∀ i, decode w = .ok i → i.command = none) ∨
      ∃ i e op, decode w = .ok i ∧ i.command = some (e, op) ∧ hasEngine b e = false := by
  rcases decode_command_cases w with hn | ⟨i, e, op, hd, hi⟩
  · exact .inl hn
  · obtain ⟨e', op', hi', habsent⟩ := (h i hd).resolve_left (by simp [hi])
    exact .inr ⟨i, e', op', hd, hi', habsent⟩

/-- Such a word is taken as an `IllegalCommand`, on the absent engine or on none. -/
theorem runCommand_refused {w : Word} {s : State}
    (h : ∀ i, decode w = .ok i →
      i.command = none ∨ ∃ e op, i.command = some (e, op) ∧ hasEngine s.build e = false) :
    ∃ e, runCommand w s = .next (s.raise e .illegalCommand) := by
  rcases refused_word_cases h with hn | ⟨i, e, op, hd, hi, habsent⟩
  · exact ⟨none, runCommand_illegal hn s⟩
  · exact ⟨some e, (runCommand_command hd hi s).trans (exec_absent hi habsent)⟩

theorem commandOf_refused {w : Word} {b : Build}
    (h : ∀ i, decode w = .ok i → i.command = none ∨ ∃ e op, i.command = some (e, op) ∧ hasEngine b e = false) :
    commandOf b w = none := by
  rcases refused_word_cases h with hn | ⟨i, e, op, hd, hi, habsent⟩
  · exact commandOf_none hn b
  · rw [commandOf_command hd hi]
    exact if_neg (by simp [habsent])

theorem idle_of_not_busy {s : State} (h : s.busy = false) : s.inflight = none ∧ s.uop = none := by
  simpa [State.busy] using h

/-- The whole state after acceptance and refusal: `CMD`, `ERR` and `RESULT` alone differ (R278). -/
theorem accept_raise_illegalCommand {s : State} {w : Word} (hb : s.busy = false) (hw : commandOf s.build w = none)
    (e : Option Engine) : (s.accept w).raise e .illegalCommand =
      { s with cmd := w, err := .illegalCommand, result := BitVec.ofInt 64 (-8) } := by
  obtain ⟨hinflight, huop⟩ := idle_of_not_busy hb
  have hphases : (s.accept w).phases = s.phases := congrArg (acceptPhases s.phases) hw
  calc (s.accept w).raise e .illegalCommand
      = (s.accept w).finish .illegalCommand (codeResult .illegalCommand) (s.accept w).phases :=
        raise_keeps_phases (c := .illegalCommand) nofun nofun fun f _ => by rw [accept_p0, hphases]
    _ = { s with
          cmd := w, err := .illegalCommand, result := codeResult .illegalCommand, inflight := none, uop := none } := by
        rw [hphases]; rfl
    _ = { s with cmd := w, err := .illegalCommand, result := BitVec.ofInt 64 (-8) } := by
        rw [← hinflight, ← huop]; rfl

/-- Settles O8: the word is latched without a target, and taken as an `IllegalCommand` that changes no phase. -/
theorem illegalCommandWord : Obligations.IllegalCommandWord := by
  intro s w rest hb hh ha hw
  refine ⟨State.accept w { s with agenda := .block :: rest }, ?written, rfl, ?taken⟩
  case written =>
    rw [step_host ha nofun, hostAccess_wr_idle (s := { s with agenda := .block :: rest }) hb]
    exact congrArg _ (writeCmd_running (s := { s with agenda := .block :: rest }) hh w)
  case taken =>
    have hturn : step (State.accept w { s with agenda := .block :: rest }) =
        runCommand w (State.accept w { s with agenda := rest }) :=
      (step_block rfl).trans (blockTurn_command (s := State.accept w { s with agenda := rest })
        (idle_of_not_busy hb).2 rfl)
    obtain ⟨e, he⟩ := runCommand_refused (s := State.accept w { s with agenda := rest }) hw
    rw [hturn, he]
    exact congrArg _ (accept_raise_illegalCommand (s := { s with agenda := rest }) hb (commandOf_refused hw) e)

end Sys2Proof.Machine
end

section
/-! PROOF. GENERATE with prediction resistance as RESEED and then GENERATE (R91, R251, R255 (f)). -/

namespace Sys2Proof.Machine

/-! ## What a reseed leaves of the counter and the curve -/

theorem ctrFold_counter {p : Prims} {c : CtrCipher} {r r' : CtrRegs} {seed : Bytes}
    (h : ctrFold p c r seed = some r') : r'.reseedCounter = r.reseedCounter := by
  obtain ⟨kv, -, rfl⟩ := Option.map_eq_some_iff.1 h
  rfl

/-- A reseed starts the counter again (R148, R176, R194, R220). -/
theorem reseedFn_counter {p : Prims} {e : Engine} {x a : Bytes} {s t : State} (h : reseedFn p e x a s = some t) :
    t.counter e = counterStart e := by
  cases e with
  | ctr =>
    obtain ⟨r, hr, rfl⟩ := Option.map_eq_some_iff.1 h
    obtain ⟨seed, -, hfold⟩ := Option.bind_eq_some_iff.1 hr
    exact ctrFold_counter hfold
  | hash =>
    obtain ⟨r, hr, rfl⟩ := Option.map_eq_some_iff.1 h
    obtain ⟨v, -, hv⟩ := Option.bind_eq_some_iff.1 hr
    obtain ⟨c, -, rfl⟩ := Option.map_eq_some_iff.1 hv
    rfl
  | hmac =>
    obtain rfl := Option.some.inj h
    exact (hmacUpdateOf_facts ..).2
  | dualec =>
    obtain ⟨r, hr, rfl⟩ := Option.map_eq_some_iff.1 h
    obtain ⟨padded, -, hdf⟩ := Option.bind_eq_some_iff.1 hr
    obtain ⟨v, -, rfl⟩ := Option.map_eq_some_iff.1 hdf
    rfl

/-- A reseed stays on its curve (R220). -/
theorem reseedFn_curve {p : Prims} {e : Engine} {x a : Bytes} {s t : State} (h : reseedFn p e x a s = some t) :
    t.curve = s.curve := by
  cases e with
  | dualec =>
    obtain ⟨r, hr, rfl⟩ := Option.map_eq_some_iff.1 h
    obtain ⟨padded, -, hdf⟩ := Option.bind_eq_some_iff.1 hr
    obtain ⟨v, -, rfl⟩ := Option.map_eq_some_iff.1 hdf
    rfl
  | ctr | hash | hmac =>
    have hrow : t.dualec = s.dualec := (reseedFn_touched h).others .dualec nofun
    have hbuild : t.build = s.build := by rw [(reseedFn_touched h).frame]
    rw [State.curve, State.curve, hrow, hbuild]

/-! ## The output part after a success -/

/-- The output part reads the build and the working registers alone, and writes registers alone. -/
theorem produceFn_succeed (p : Prims) (e f : Engine) (a : Option Bytes) (n r : Nat) (s : State) :
    produceFn p e a n (s.succeed f r) = (produceFn p e a n s).map fun x => (x.1.succeed f r, x.2) := by
  cases e <;> simp only [produceFn, Option.map_map] <;> rfl

/-- Of two successes of an engine the second one stands. -/
theorem succeed_storeOut_succeed (e : Engine) (q r n : Nat) (out : Bytes) (s : State) :
    ((s.succeed e q).storeOut n out).succeed e r = (s.storeOut n out).succeed e r := by
  have hphases : (s.phases.set e .seeded).set e .seeded = s.phases.set e .seeded := Phases.set_set ..
  exact congrArg (State.finish .ok (BitVec.ofNat 64 r) · (s.storeOut n out)) hphases

/-- A successful output part gives the same state after a success of the engine. -/
theorem emitFrame_succeed {e : Engine} {n : Nat} {a : Option Bytes} {s : State} (q : Nat) (p : Prims)
    (h : (emitFrame e (produceFn p e) n a s).err = .ok) :
    emitFrame e (produceFn p e) n a (s.succeed e q) = emitFrame e (produceFn p e) n a s := by
  rcases emitFrame_cases e (produceFn p e) n a s with ⟨s', out, hp, he⟩ | ⟨-, he⟩
  · rw [he, emitFrame, produceFn_succeed, hp]
    exact succeed_storeOut_succeed e q (n * 8) n out s'
  · rw [he, State.raise_err] at h
    cases h

/-! ## The checks of the two commands -/

/-- A GENERATE that passes its checks would pass those of a RESEED. -/
theorem GenerateReady.reseedReady {e : Engine} {ai : Bool} {s : State} (h : GenerateReady e ai s) :
    ReseedReady e ai s := by
  obtain ⟨hpresent, hphase, -, hinput, -⟩ := h
  exact ⟨hpresent, hphase, hinput⟩

/-- A counter that starts again is below the ceiling for every request that was below it before. -/
theorem BelowCeiling.of_start {e : Engine} {s t : State} (h : BelowCeiling e s) (hc : t.counter e = counterStart e)
    (hcurve : t.curve = s.curve) (hlen : t.outLenOp = s.outLenOp) : BelowCeiling e t := by
  obtain ⟨-, -, -, hdualec⟩ := h
  cases e with
  | ctr =>
    have hc : t.ctr.reseedCounter = 1 := hc
    refine ⟨fun _ => ?_, nofun, nofun, nofun⟩
    rw [hc]
    split <;> decide
  | hash =>
    have hc : t.hash.reseedCounter = 1 := hc
    refine ⟨nofun, fun _ => ?_, nofun, nofun⟩
    rw [hc]
    decide
  | hmac =>
    have hc : t.hmac.reseedCounter = 1 := hc
    refine ⟨nofun, nofun, fun _ => ?_, nofun⟩
    rw [hc]
    decide
  | dualec =>
    have hc : t.dualec.reseedCounter = 0 := hc
    refine ⟨nofun, nofun, nofun, fun _ => ?_⟩
    rw [hc, hcurve, hlen]
    exact (Nat.add_le_add_right (Nat.zero_le _) _).trans (hdualec rfl)

theorem outLenOp_of_idle {s : State} (h : s.inflight = none) : s.outLenOp = s.outLen.toNat := by
  simp only [State.outLenOp, State.operands, h]

/-- After the reseed of a GENERATE that was ready, the plain GENERATE is ready. -/
theorem GenerateReady.after_reseed {p : Prims} {e : Engine} {ai : Bool} {x a : Bytes} {s u : State}
    (h : GenerateReady e ai s) (hidle : s.inflight = none) (hu : reseedFn p e x a s = some u) :
    GenerateReady e false (u.succeed e 0) ∧ (u.succeed e 0).outLenOp = s.outLenOp := by
  obtain ⟨hpresent, -, hrequest, -, hceiling⟩ := h
  have hbuild : (u.succeed e 0).build = s.build := by rw [State.succeed_build, (reseedFn_touched hu).frame]
  have hlen : (u.succeed e 0).outLenOp = s.outLenOp := by
    rw [outLenOp_of_idle hidle, outLenOp_of_idle (State.succeed_inflight ..), State.succeed_outLen,
      (reseedFn_touched hu).frame]
  have hphase : (u.succeed e 0).p0 e = .seeded := by
    rw [p0_of_idle (State.succeed_inflight ..), State.succeed_phases, Phases.get_set_same]
  have hcounter : (u.succeed e 0).counter e = counterStart e := by
    rw [← reseedFn_counter hu]
    cases e <;> rfl
  have hcurve : u.curve = s.curve := reseedFn_curve hu
  refine ⟨⟨?_, ?_, ?_, nofun, hceiling.of_start hcounter hcurve hlen⟩, hlen⟩
  · rw [hbuild]; exact hpresent
  · rw [hphase]; exact nofun
  · rw [RequestFits, hlen, hbuild]; exact hrequest

/-- A GENERATE with prediction resistance that succeeds has passed its checks and its reseed. -/
theorem generateFrame_ok {e : Engine} {ai : Bool} {reseed : Bytes → Bytes → State → Option State}
    {produce : Option Bytes → Nat → State → Option (State × Bytes)} {s : State} {bytes : Bytes}
    {rest : List EntropyAnswer} (hs : s.entropy = .ok bytes :: rest)
    (hok : (generateFrame e ai true reseed produce s).err = .ok) :
    GenerateReady e ai s ∧ ∃ t, reseed bytes (orEmpty (s.aiIn ai)) { s with entropy := rest } = some t ∧
      generateFrame e ai true reseed produce s = emitFrame e produce s.outLenOp none t := by
  cases hc : generateCheck e ai s with
  | some c =>
    rw [generateFrame, hc] at hok
    exact absurd ((State.raise_err ..).symm.trans hok) (generateCheck_codes hc).1
  | none =>
    refine ⟨(generateCheck_none e ai s).1 hc, ?_⟩
    rw [generateFrame, hc] at hok ⊢
    simp only [if_true, State.withEntropy_ok e _ s bytes rest hs] at hok ⊢
    cases hr : reseed bytes (orEmpty (s.aiIn ai)) { s with entropy := rest } with
    | none => rw [hr] at hok; cases (State.raise_err ..).symm.trans hok
    | some t => exact ⟨t, rfl, rfl⟩

/-- Settles O23: the reseed inside the GENERATE is the RESEED, and the output part after it finds what the second
GENERATE finds. -/
theorem predictionResistanceIsReseedThenGenerate : Obligations.PredictionResistanceIsReseedThenGenerate := by
  intro e ai s u entropy rest hidle hentropy hu hok
  rw [exec_generateOf] at hu
  obtain rfl := Host.Outcome.next.inj hu
  obtain ⟨hready, v, hreseed, hemit⟩ := generateFrame_ok hentropy hok
  obtain ⟨hready', hlen⟩ := GenerateReady.after_reseed (s := { s with entropy := rest }) hready hidle hreseed
  refine ⟨v.succeed e 0, ?reseed, ?generate⟩
  case reseed =>
    rw [exec_reseedOf, reseedFrame, (reseedCheck_none e ai s).2 hready.reseedReady]
    refine congrArg _ ((State.withEntropy_ok e _ s entropy rest hentropy).trans ?_)
    rw [hreseed, State.conclude_some]
  case generate =>
    rw [hemit] at hok ⊢
    rw [exec_generateOf, generateFrame, (generateCheck_none e false _).2 hready', hlen]
    exact congrArg _ (emitFrame_succeed 0 Config.prims hok)

end Sys2Proof.Machine
end

section
/-! PROOF. The big-endian string of an integer, cut at its last byte and at its first: what the byte loops of R100 to
R104 compute. -/

namespace Sys2Proof.Machine

/-! ## `to_be` modulo its width (R14) -/

theorem toBE_congr {n x y : Nat} (h : x ≡ y [MOD 256 ^ n]) : toBE n x = toBE n y :=
  be_inj (by simp) (by rw [be_toBE, be_toBE]; exact h)

theorem toBE_add_mul (n x m : Nat) : toBE n (x + m * 256 ^ n) = toBE n x :=
  toBE_congr (Nat.add_mul_mod_self_right ..)

theorem toBE_zero (n : Nat) : toBE n 0 = zeros n := by
  simpa using toBE_be (zeros n)

theorem toBE_pow (n : Nat) : toBE n (256 ^ n) = zeros n := by
  simpa [toBE_zero] using toBE_add_mul n 0 1

theorem be_fill_ff (n : Nat) : be (fill n 0xFF) + 1 = 256 ^ n := by
  induction n with
  | zero => rfl
  | succ n ih =>
    have hcons : be (fill (n + 1) 0xFF) = 255 * 256 ^ n + be (fill n 0xFF) := by
      simp [fill, List.replicate_succ, be]
    omega

/-! ## The last byte of a string -/

theorem be_reverse_cons (b : Byte) (bs : Bytes) : be (b :: bs).reverse = 256 * be bs.reverse + b.toNat := by
  simp [be_append, be, Nat.mul_comm]

/-- The last byte keeps a digit's low eight bits and the rest is carried: one turn of a loop from the right end. -/
theorem toBE_carry (n q d : Nat) : toBE (n + 1) (256 * q + d) = toBE n (q + d / 256) ++ [BitVec.ofNat 8 d] := by
  refine be_inj (by simp) ?_
  have hdiv : (256 * q + d) / 256 = q + d / 256 := by omega
  have hmod : (256 * q + d) % 256 = d % 256 := by omega
  calc be (toBE (n + 1) (256 * q + d))
      = (256 * q + d) % (256 * 256 ^ n) := by rw [be_toBE, pow_succ, Nat.mul_comm (256 ^ n)]
    _ = d % 256 + 256 * ((q + d / 256) % 256 ^ n) := by rw [Nat.mod_mul, hdiv, hmod]
    _ = be (toBE n (q + d / 256) ++ [BitVec.ofNat 8 d]) := by simp [be_append, be]; ring

/-! ## A byte shifted beside another -/

theorem two_pow_mul_two_pow_sub {j : Nat} (hj : j ≤ 8) : 2 ^ j * 2 ^ (8 - j) = 256 := by
  rw [← pow_add, Nat.add_sub_cancel' hj]; norm_num

theorem byte_div_two_pow_lt (y : Byte) {j : Nat} (hj : j ≤ 8) : y.toNat / 2 ^ (8 - j) < 2 ^ j :=
  Nat.div_lt_of_lt_mul (by rw [Nat.mul_comm, two_pow_mul_two_pow_sub hj]; exact y.isLt)

/-- The two parts of a byte that a shift loop joins do not overlap. -/
theorem shiftLeft_or_ushiftRight (x y : Byte) {j : Nat} (hj : j ≤ 8) :
    x <<< j ||| y >>> (8 - j) = BitVec.ofNat 8 (x.toNat * 2 ^ j + y.toNat / 2 ^ (8 - j)) := by
  rw [← Nat.shiftLeft_eq, Nat.shiftLeft_add_eq_or_of_lt (byte_div_two_pow_lt y hj)]
  apply BitVec.eq_of_toNat_eq
  have hmod : y.toNat / 2 ^ (8 - j) % 2 ^ 8 = y.toNat / 2 ^ (8 - j) :=
    Nat.mod_eq_of_lt (lt_of_le_of_lt (Nat.div_le_self _ _) y.isLt)
  rw [BitVec.toNat_or, BitVec.toNat_ofNat, Nat.or_mod_two_pow, hmod, BitVec.toNat_shiftLeft,
    BitVec.toNat_ushiftRight, Nat.shiftRight_eq_div_pow]

/-! ## The byte loops (R100, R102, R103, R104) -/

theorem toBE_incBytes (c : Nat) (bs : Bytes) : toBE bs.length (be bs.reverse + c) = (incBytes c bs).reverse := by
  induction bs generalizing c with
  | nil => rfl
  | cons b bs ih =>
    rw [be_reverse_cons, Nat.add_assoc, List.length_cons, toBE_carry, ih, incBytes, List.reverse_cons]

theorem toBE_addBytes (c : Nat) (ls xs : Bytes) (h : xs.length ≤ ls.length) :
    toBE ls.length (be ls.reverse + be xs.reverse + c) = (addBytes c ls xs).reverse := by
  induction c, ls, xs using addBytes.induct with
  | case1 c xs => rfl
  | case2 c l ls ih =>
    have hsum : be (l :: ls).reverse + be [].reverse + c = 256 * (be ls.reverse + be [].reverse) + (l.toNat + c) := by
      rw [be_reverse_cons]; simp only [List.reverse_nil, be]; omega
    rw [hsum, List.length_cons, toBE_carry, ih (Nat.zero_le _), addBytes, List.reverse_cons]
  | case3 c l ls x xs ih =>
    have hsum : be (l :: ls).reverse + be (x :: xs).reverse + c =
        256 * (be ls.reverse + be xs.reverse) + (l.toNat + x.toNat + c) := by
      rw [be_reverse_cons, be_reverse_cons]; omega
    rw [hsum, List.length_cons, toBE_carry, ih (Nat.le_of_succ_le_succ h), addBytes, List.reverse_cons]

theorem toBE_shlLoop {k : Nat} (hk : k ≤ 8) (carry : Byte) (bs : Bytes) :
    toBE bs.length (be bs.reverse * 2 ^ k + carry.toNat / 2 ^ (8 - k)) = (shlLoop k carry bs).reverse := by
  induction bs generalizing carry with
  | nil => rfl
  | cons b bs ih =>
    have hsum : be (b :: bs).reverse * 2 ^ k + carry.toNat / 2 ^ (8 - k) =
        256 * (be bs.reverse * 2 ^ k) + (b.toNat * 2 ^ k + carry.toNat / 2 ^ (8 - k)) := by
      rw [be_reverse_cons]; ring
    have hcarry : (b.toNat * 2 ^ k + carry.toNat / 2 ^ (8 - k)) / 256 = b.toNat / 2 ^ (8 - k) := by
      rw [← two_pow_mul_two_pow_sub hk, ← Nat.div_div_eq_div_mul, Nat.mul_comm, Nat.mul_add_div (by positivity),
        Nat.div_eq_of_lt (byte_div_two_pow_lt carry hk), Nat.add_zero]
    rw [hsum, List.length_cons, toBE_carry, hcarry, ih, shlLoop, List.reverse_cons, shiftLeft_or_ushiftRight b carry hk]

/-- The right shift with the byte to the left of the string as its carry. -/
theorem toBE_shrLoop {k : Nat} (hk : k ≤ 8) (carry : Byte) (bs : Bytes) :
    toBE bs.length (be (carry :: bs) / 2 ^ k) = shrLoop k carry bs := by
  induction bs generalizing carry with
  | nil => rfl
  | cons b bs ih =>
    have hvalue : be (carry :: b :: bs) = be (b :: bs) + carry.toNat * 2 ^ (8 - k) * 256 ^ bs.length * 2 ^ k := by
      rw [be, List.length_cons, pow_succ, ← two_pow_mul_two_pow_sub hk]; ring
    have hquot : be (carry :: b :: bs) / 2 ^ k =
        be (b :: bs) / 2 ^ k + carry.toNat * 2 ^ (8 - k) * 256 ^ bs.length := by
      rw [hvalue, Nat.add_mul_div_right _ _ (by positivity)]
    have htop : be (b :: bs) / 2 ^ k / 256 ^ bs.length = b.toNat / 2 ^ k := by
      rw [Nat.div_right_comm, be, Nat.mul_comm, Nat.mul_add_div (by positivity), Nat.div_eq_of_lt (be_lt bs),
        Nat.add_zero]
    have hbyte : b >>> k ||| carry <<< (8 - k) = BitVec.ofNat 8 (carry.toNat * 2 ^ (8 - k) + b.toNat / 2 ^ k) := by
      have hback : 8 - (8 - k) = k := by omega
      have hjoin := shiftLeft_or_ushiftRight carry b (Nat.sub_le 8 k)
      rw [hback] at hjoin
      rw [BitVec.or_comm, hjoin]
    rw [List.length_cons, toBE, hquot, toBE_add_mul, ih, Nat.add_mul_div_right _ _ (by positivity), htop, shrLoop,
      hbyte, Nat.add_comm]

end Sys2Proof.Machine
end

section
/-! PROOF. The micro-operations of the utility unit: what each writes in place, the contract violation of each, and its
byte form (R100 to R104, R277). -/

namespace Sys2Proof.Machine

/-! ## What a micro-operation does with its unit's answer (R83, R277) -/

theorem putInPlace_some (s : State) (b : Bytes) :
    s.putInPlace (some b) = { s with dp := { s.dp with bufA := b } } := rfl

theorem putResult_some (own : Option Engine) (s : State) (b : Bytes) :
    s.putResult own (some b) = { s with dp := { s.dp with res := b } } := rfl

/-- A violation of a micro-operation of no engine is taken on the engine of the command in flight alone. -/
theorem violate_none_halted (s : State) : HaltedFrom (s.target.map (·.1)) s (s.violate none) := by
  rw [State.violate, Option.or_none]
  exact raise_halted _ s

theorem putInPlace_none_halted (s : State) : HaltedFrom (s.target.map (·.1)) s (s.putInPlace none) :=
  violate_none_halted s

theorem putResult_none_halted (s : State) : HaltedFrom (s.target.map (·.1)) s (s.putResult none none) :=
  violate_none_halted s

/-! ## `INC_BE` (R100) -/

theorem exec_incBe (s : State) : exec .incBe s = .next (s.putInPlace (some (incBE s.dp.bufA))) := rfl

theorem iterate_incBE (k : Nat) (b : Bytes) : incBE^[k] b = toBE b.length (be b + k) := by
  induction k with
  | zero => simp
  | succ k ih =>
    rw [Function.iterate_succ_apply', ih, incBE, toBE_length, be_toBE]
    exact toBE_congr ((Nat.mod_modEq _ _).add_right 1)

/-- Settles O56: the byte form by the carry of one step, the wrap by the value of a string of `FF`. -/
theorem incBeCompletes : Obligations.IncBeCompletes := by
  refine ⟨by decide, exec_incBe, fun buf => ?byteForm, fun n => ?wrap, fun n => ?cycle⟩
  case byteForm => simpa using toBE_incBytes 1 buf.reverse
  case wrap => rw [incBE, be_fill_ff, fill_length, toBE_pow]
  case cycle => rw [iterate_incBE, be_zeros, zeros_length, Nat.zero_add, toBE_pow]

/-! ## `XOR_INTO` (R101) -/

theorem exec_xorInto (s : State) :
    exec .xorInto s = .next (s.putResult none (xorBytes s.dp.len s.dp.bufA s.dp.bufB s.dp.offset)) := rfl

theorem exists_xorBytes {n off : Nat} {a b : Bytes} (ha : n ≤ a.length) (hb : n + off ≤ b.length) :
    ∃ r, xorBytes n a b off = some r ∧ ∀ i, i < n → r.getD i 0 = a.getD i 0 ^^^ b.getD (i + off) 0 := by
  refine ⟨_, if_pos ⟨ha, hb⟩, fun i hi => ?_⟩
  have hia : i < a.length := by omega
  have hib : i + off < b.length := by omega
  simp [List.getD_eq_getElem?_getD, List.getElem?_zipWith, List.getElem?_drop, hi, hia, hib, Nat.add_comm off i]

/-- Settles O57: the unit answers where both operands reach, and fails else. -/
theorem xorIntoCompletes : Obligations.XorIntoCompletes := by
  refine ⟨by decide, fun s => ⟨fun ha hb => ?result, fun hshort => ?violation⟩⟩
  case result =>
    obtain ⟨r, hr, hbytes⟩ := exists_xorBytes ha hb
    exact ⟨r, by rw [exec_xorInto, hr, putResult_some], xorBytes_length hr, hbytes⟩
  case violation =>
    have hnone : xorBytes s.dp.len s.dp.bufA s.dp.bufB s.dp.offset = none :=
      (xorBytes_eq_none_iff ..).2 (by omega)
    exact ⟨_, by rw [exec_xorInto, hnone], putResult_none_halted s⟩

/-! ## `ADD_BE` (R102) -/

theorem exec_addBe (s : State) : exec .addBe s = .next (s.putInPlace (addBE s.dp.bufA s.dp.bufB)) := rfl

theorem addBE_of_le {l x : Bytes} (h : x.length ≤ l.length) : addBE l x = some (toBE l.length (be l + be x)) :=
  if_pos h

theorem addBE_of_lt {l x : Bytes} (h : l.length < x.length) : addBE l x = none :=
  if_neg (Nat.not_le.2 h)

/-- Settles O58: the byte form by the carry of one step, over the longer operand. -/
theorem addBeCompletes : Obligations.AddBeCompletes := by
  refine ⟨by decide, fun s => ⟨fun hle => ?sum, fun hlt => ?violation⟩, fun longer shorter hle => ?byteForm⟩
  case sum => rw [exec_addBe, addBE_of_le hle, putInPlace_some]
  case violation => exact ⟨_, by rw [exec_addBe, addBE_of_lt hlt], putInPlace_none_halted s⟩
  case byteForm => simpa using toBE_addBytes 0 longer.reverse shorter.reverse (by simpa using hle)

/-! ## `SHR_BITS` and `SHL_BITS` (R103, R104) -/

theorem exec_shrBits (k : BitVec 3) (s : State) :
    exec (.shrBits k) s = .next (s.putInPlace (shrBytes s.dp.bufA k.toNat)) := rfl

theorem exec_shlBits (k : BitVec 3) (s : State) :
    exec (.shlBits k) s = .next (s.putInPlace (shlBytes s.dp.bufA k.toNat)) := rfl

theorem shrBytes_of_count {k : Nat} (h1 : 1 ≤ k) (h7 : k ≤ 7) (b : Bytes) :
    shrBytes b k = some (toBE b.length (be b / 2 ^ k)) :=
  if_pos ⟨h1, h7⟩

theorem shlBytes_of_count {k : Nat} (h1 : 1 ≤ k) (h7 : k ≤ 7) (b : Bytes) :
    shlBytes b k = some (toBE b.length (be b * 2 ^ k)) :=
  if_pos ⟨h1, h7⟩

theorem shrBytes_zero (b : Bytes) : shrBytes b 0 = none := if_neg (by decide)

theorem shlBytes_zero (b : Bytes) : shlBytes b 0 = none := if_neg (by decide)

theorem shift_count_range {k : BitVec 3} (h : k ≠ 0) : 1 ≤ k.toNat ∧ k.toNat ≤ 7 := by
  revert k; decide

/-- Dividing undoes multiplying modulo `m` exactly where the product is below `m`. -/
theorem mul_mod_div_eq_iff {x p m : Nat} (hp : 0 < p) (hm : 0 < m) : x * p % m / p = x ↔ x * p < m := by
  constructor
  case mp =>
    intro h
    calc x * p = x * p % m / p * p := by rw [h]
      _ ≤ x * p % m := Nat.div_mul_le_self ..
      _ < m := Nat.mod_lt _ hm
  case mpr =>
    intro h
    rw [Nat.mod_eq_of_lt h, Nat.mul_div_cancel _ hp]

/-- The right shift restores the string exactly where the left one lost no set bit. -/
theorem shlBytes_bind_shrBytes_iff {k : Nat} (h1 : 1 ≤ k) (h7 : k ≤ 7) (buf : Bytes) :
    ((shlBytes buf k).bind fun x => shrBytes x k) = some buf ↔ be buf * 2 ^ k < 256 ^ buf.length := by
  have hquot : be buf * 2 ^ k % 256 ^ buf.length / 2 ^ k < 256 ^ buf.length :=
    lt_of_le_of_lt (Nat.div_le_self _ _) (Nat.mod_lt _ (by positivity))
  have hvalue : toBE buf.length (be buf * 2 ^ k % 256 ^ buf.length / 2 ^ k) = buf ↔
      be buf * 2 ^ k % 256 ^ buf.length / 2 ^ k = be buf :=
    ⟨fun h => by simpa [Nat.mod_eq_of_lt hquot] using congrArg be h, fun h => by rw [h, toBE_be]⟩
  rw [shlBytes_of_count h1 h7, Option.bind_some, shrBytes_of_count h1 h7, toBE_length, be_toBE, Option.some_inj,
    hvalue, mul_mod_div_eq_iff (by positivity) (by positivity)]

/-- Settles O59: each shift by its unit, the byte forms by one step of their loops, the round trip by its value. -/
theorem shiftBitsComplete : Obligations.ShiftBitsComplete := by
  refine ⟨fun s k hk => ?shifted, fun s => ?violation, fun buf k h1 h7 => ⟨?right, ?left, ?roundTrip⟩⟩
  case shifted =>
    obtain ⟨h1, h7⟩ := shift_count_range hk
    rw [exec_shrBits, exec_shlBits, shrBytes_of_count h1 h7, shlBytes_of_count h1 h7, putInPlace_some, putInPlace_some]
    exact ⟨rfl, rfl⟩
  case violation =>
    have hzero : BitVec.toNat (0 : BitVec 3) = 0 := rfl
    rw [exec_shrBits, exec_shlBits, hzero, shrBytes_zero, shlBytes_zero]
    exact ⟨⟨_, rfl, putInPlace_none_halted s⟩, ⟨_, rfl, putInPlace_none_halted s⟩⟩
  case right => simpa [be] using toBE_shrLoop (by omega : k ≤ 8) 0 buf
  case left => simpa using toBE_shlLoop (by omega : k ≤ 8) 0 buf.reverse
  case roundTrip => exact shlBytes_bind_shrBytes_iff h1 h7 buf

end Sys2Proof.Machine
end

section
/-! PROOF. The derivation unit: `BCC` as a fold over the blocks of its data, `BLOCK_CIPHER_DF` block by block, and
`HASH_DF` as a cut of the digest stream (R120 to R123, R277). -/

namespace Sys2Proof.Machine

/-! ## The contract violation of a micro-operation with an engine of its own (R277) -/

theorem putResult_own_none_halted (own : Option Engine) (s : State) :
    HaltedFrom ((s.target.map (·.1)).or own) s (s.putResult own none) :=
  raise_halted _ s

/-! ## One use of the cipher (R101, R140) -/

theorem exists_expandKeyFor {c : CtrCipher} {key : Bytes} (hk : KeyTaken c key) (p : Prims) :
    ∃ cipherKey, expandKeyFor p c key = some cipherKey := by
  rcases expandKeyFor_cases p c key with ⟨-, h⟩ | ⟨-, -, h⟩ | ⟨htdea, hlen, -⟩
  · exact ⟨_, h⟩
  · exact ⟨_, h⟩
  · exact absurd (hk htdea) hlen

theorem encryptWith_of_expandKeyFor {p : Prims} {c : CtrCipher} {key cipherKey : Bytes}
    (h : expandKeyFor p c key = some cipherKey) (block : Bytes) :
    encryptWith p c key block = some (portEncrypt p c cipherKey block) := by
  rw [encryptWith, h, Option.map_some]

/-- `XOR_INTO` of a whole string with as many bytes of another. -/
theorem xorBytes_whole {n off : Nat} {a b : Bytes} (ha : a.length = n) (hb : n + off ≤ b.length) :
    xorBytes n a b off = some (List.zipWith (fun x y => x ^^^ y) a ((b.drop off).take n)) := by
  rw [xorBytes, if_pos ⟨ha.ge, hb⟩, List.take_of_length_le ha.le]

/-! ## `BCC` (R122) -/

/-- One turn of the chaining loop: block `i` of the data is folded into the chain. -/
def bccStep (p : Prims) (c : CtrCipher) (cipherKey data chain : Bytes) (i : Nat) : Bytes :=
  portEncrypt p c cipherKey
    (List.zipWith (fun x y => x ^^^ y) chain ((data.drop (i * ctrBlockBytes c)).take (ctrBlockBytes c)))

theorem bccStep_length (p : Prims) (c : CtrCipher) (cipherKey data chain : Bytes) (i : Nat) :
    (bccStep p c cipherKey data chain i).length = ctrBlockBytes c := portEncrypt_length ..

theorem bccLoop_succ {p : Prims} {c : CtrCipher} {key cipherKey data chain : Bytes} {i n : Nat}
    (hk : expandKeyFor p c key = some cipherKey) (hc : chain.length = ctrBlockBytes c)
    (hd : (i + 1) * ctrBlockBytes c ≤ data.length) :
    bccLoop p c key data i chain (n + 1) = bccLoop p c key data (i + 1) (bccStep p c cipherKey data chain i) n := by
  have hfits : ctrBlockBytes c + i * ctrBlockBytes c ≤ data.length := by rwa [Nat.add_comm, ← Nat.succ_mul]
  simp only [bccLoop, xorBytes_whole hc hfits, encryptWith_of_expandKeyFor hk, bccStep]

theorem bccLoop_eq_foldl {p : Prims} {c : CtrCipher} {key cipherKey data : Bytes}
    (hk : expandKeyFor p c key = some cipherKey) (n : Nat) :
    ∀ (i : Nat) (chain : Bytes), chain.length = ctrBlockBytes c → (i + n) * ctrBlockBytes c ≤ data.length →
      bccLoop p c key data i chain n = some ((List.range' i n).foldl (bccStep p c cipherKey data) chain) := by
  induction n with
  | zero => intro i chain _ _; rfl
  | succ n ih =>
    intro i chain hc hd
    have hblock : (i + 1) * ctrBlockBytes c ≤ data.length :=
      le_trans (Nat.mul_le_mul_right _ (by omega)) hd
    have hrest : (i + 1 + n) * ctrBlockBytes c ≤ data.length := by rwa [Nat.add_assoc, Nat.add_comm 1 n]
    rw [bccLoop_succ hk hc hblock, ih (i + 1) _ (bccStep_length ..) hrest, List.range'_succ, List.foldl_cons]

/-- `BCC` of `m` blocks under an expanded key. -/
theorem bccOf_eq_foldl {p : Prims} {c : CtrCipher} {key cipherKey data : Bytes} {m : Nat} (hB : 0 < ctrBlockBytes c)
    (hk : expandKeyFor p c key = some cipherKey) (hd : data.length = m * ctrBlockBytes c) :
    bccOf p c key data =
      some ((List.range m).foldl (bccStep p c cipherKey data) (zeros (ctrBlockBytes c))) := by
  have hwhole : data.length % ctrBlockBytes c = 0 := by rw [hd, Nat.mul_mod_left]
  have hcount : data.length / ctrBlockBytes c = m := by rw [hd, Nat.mul_div_cancel _ hB]
  rw [bccOf, if_pos hwhole, hcount, List.range_eq_range']
  exact bccLoop_eq_foldl hk m 0 _ (zeros_length _) (by rw [Nat.zero_add, hd])

theorem exec_bcc (s : State) :
    exec .bcc s = .next (s.putResult (some .ctr) (bccOf Config.prims s.build.ctr s.dp.bufA s.dp.bufB)) := rfl

/-- Settles O38: the chaining loop is a fold over the block numbers, and other data has no answer. -/
theorem bccCompletes : Obligations.BccCompletes := by
  refine fun s hlegal hkey => ⟨fun m hm => ?chain, fun hpartial => ?violation⟩
  case chain =>
    have hB : 0 < ctrBlockBytes s.build.ctr := lt_of_lt_of_le (by decide) (cipherFacts hlegal).block
    obtain ⟨cipherKey, hk⟩ := exists_expandKeyFor (KeyTaken.of_length hlegal hkey) Config.prims
    refine ⟨cipherKey, hk, ?_⟩
    rw [exec_bcc, bccOf_eq_foldl hB hk hm, putResult_some]
    rfl
  case violation => exact ⟨_, by rw [exec_bcc, bccOf_none hpartial], putResult_own_none_halted _ s⟩

/-! ## `BLOCK_CIPHER_DF` (R123) -/

/-- The counter's block before a string of whole blocks gives whole blocks. -/
theorem counterBlock_append_whole {B : Nat} (hB : 4 ≤ B) (i : Nat) {str : Bytes} (hs : str.length % B = 0) :
    (toBE 4 i ++ zeros (B - 4) ++ str).length % B = 0 := by
  have hlen : (toBE 4 i ++ zeros (B - 4) ++ str).length = B + str.length := by
    rw [List.length_append, List.length_append, toBE_length, zeros_length, Nat.add_sub_cancel' hB]
  rw [hlen, Nat.add_mod_left, hs]

/-- `BCC` under the fixed key has an answer for every counter. -/
theorem exists_dfBlock (p : Prims) {c : CtrCipher} (hlegal : ctrLegal c = true) {str : Bytes}
    (hs : str.length % ctrBlockBytes c = 0) (i : Nat) :
    ∃ y, bccOf p c (dfKey c) (toBE 4 i ++ zeros (ctrBlockBytes c - 4) ++ str) = some y := by
  have facts := cipherFacts hlegal
  obtain ⟨y, hy, -⟩ := bccOf_some (p := p) (KeyTaken.of_length hlegal (dfKey_length facts.key))
    (counterBlock_append_whole facts.block i hs)
  exact ⟨y, hy⟩

theorem dfBlocks_eq_flatten {p : Prims} {c : CtrCipher} {str : Bytes} {y : Nat → Bytes}
    (hy : ∀ i, bccOf p c (dfKey c) (toBE 4 i ++ zeros (ctrBlockBytes c - 4) ++ str) = some (y i)) (n : Nat) :
    ∀ i, dfBlocks p c str i n = some ((List.range' i n).map y).flatten := by
  induction n with
  | zero => intro i; rfl
  | succ n ih =>
    intro i
    simp only [dfBlocks, hy, ih, Option.map_some, List.range'_succ, List.map_cons, List.flatten_cons]

theorem feedback_eq_flatten {p : Prims} {c : CtrCipher} {key cipherKey : Bytes}
    (hk : expandKeyFor p c key = some cipherKey) (n : Nat) :
    ∀ x, feedback p c key x n =
      some ((List.range n).map fun j => (portEncrypt p c cipherKey)^[j + 1] x).flatten := by
  induction n with
  | zero => intro x; rfl
  | succ n ih =>
    intro x
    simp only [feedback, encryptWith_of_expandKeyFor hk, ih, Option.map_some, List.range_succ_eq_map, List.map_cons,
      List.map_map, List.flatten_cons, Function.comp_def, Function.iterate_succ_apply, Function.iterate_zero_apply]

/-- `BLOCK_CIPHER_DF` on a legal cipher is its two loops, cut to the bytes asked for. -/
theorem blockCipherDf_of_parts {p : Prims} {c : CtrCipher} (hlegal : ctrLegal c = true) {input temp out : Bytes}
    {bits : Nat} (hbits : bits % 8 = 0)
    (htemp : dfBlocks p c (dfString c input (bits / 8)) 0
      (ceilDiv (ctrKeyBytes c + ctrBlockBytes c) (ctrBlockBytes c)) = some temp)
    (hout : feedback p c (temp.take (ctrKeyBytes c)) ((temp.drop (ctrKeyBytes c)).take (ctrBlockBytes c))
      (ceilDiv (bits / 8) (ctrBlockBytes c)) = some out) :
    blockCipherDf p c input bits = some (out.take (bits / 8)) := by
  have facts := cipherFacts hlegal
  simp only [blockCipherDf, if_pos (And.intro hbits (And.intro facts.block facts.key)), htemp, hout, Option.map_some]

theorem blockCipherDf_of_partial_byte {bits : Nat} (h : bits % 8 ≠ 0) (p : Prims) (c : CtrCipher) (input : Bytes) :
    blockCipherDf p c input bits = none :=
  if_neg fun ⟨hwhole, _⟩ => h hwhole

theorem exec_blockCipherDf (s : State) :
    exec .blockCipherDf s = .next
      (s.putResult (some .ctr) (blockCipherDf Config.prims s.build.ctr s.dp.bufA s.dp.bits.toNat)) := rfl

/-- Settles O39: the first loop gives `temp` block by block, the second iterates the cipher on its tail. -/
theorem blockCipherDfCompletes : Obligations.BlockCipherDfCompletes := by
  refine fun s hlegal => ⟨fun hbits => ?derived, fun hpartial => ?violation⟩
  case derived =>
    have facts := cipherFacts hlegal
    have hB : 0 < ctrBlockBytes s.build.ctr := lt_of_lt_of_le (by decide) facts.block
    have hwhole := dfString_whole hB s.dp.bufA (s.dp.bits.toNat / 8)
    choose y hy using exists_dfBlock Config.prims hlegal hwhole
    obtain ⟨temp, htemp, htempLen⟩ := dfBlocks_some (p := Config.prims) hlegal _ hwhole
      (ceilDiv (ctrKeyBytes s.build.ctr + ctrBlockBytes s.build.ctr) (ctrBlockBytes s.build.ctr)) 0
    have hblocks : temp = ((List.range (ceilDiv (ctrKeyBytes s.build.ctr + ctrBlockBytes s.build.ctr)
        (ctrBlockBytes s.build.ctr))).map y).flatten := by
      rw [List.range_eq_range']
      exact Option.some.inj (htemp.symm.trans (dfBlocks_eq_flatten hy _ 0))
    have hkeyLen : (temp.take (ctrKeyBytes s.build.ctr)).length = ctrKeyBytes s.build.ctr := by
      have hcover := ceilDiv_mul_ge (ctrKeyBytes s.build.ctr + ctrBlockBytes s.build.ctr) _ hB
      rw [List.length_take, htempLen]
      omega
    obtain ⟨cipherKey, hk⟩ := exists_expandKeyFor (KeyTaken.of_length hlegal hkeyLen) Config.prims
    refine ⟨_, _, temp, cipherKey, y, fun j => (portEncrypt Config.prims s.build.ctr cipherKey)^[j]
        ((temp.drop (ctrKeyBytes s.build.ctr)).take (ctrBlockBytes s.build.ctr)),
      Nat.mod_lt _ hB, hwhole, rfl, fun i _ => hy i, hblocks, hk, rfl,
      fun j => Function.iterate_succ_apply' _ j _, ?_⟩
    rw [exec_blockCipherDf, blockCipherDf_of_parts hlegal hbits htemp (feedback_eq_flatten hk _ _), putResult_some]
  case violation =>
    exact ⟨_, by rw [exec_blockCipherDf, blockCipherDf_of_partial_byte hpartial], putResult_own_none_halted _ s⟩

/-! ## `HASH_DF` (R120, R121) -/

theorem digestOf_length (p : Prims) (b : Build) (d : DigestSel) (msg : Bytes) :
    ((digestOf p b d).1 msg).length = (digestOf p b d).2 := by
  cases d with
  | hashDigest => exact portHash_length ..
  | dualecDigest => exact portDualecHash_length ..

theorem dfHashes_eq_flatten (hash : Bytes → Bytes) (bits : Nat) (material : Bytes) (n : Nat) :
    ∀ i, dfHashes hash bits material i n =
      ((List.range n).map fun j => hash (toBE 1 (j + i) ++ toBE 4 bits ++ material)).flatten := by
  induction n with
  | zero => intro i; rfl
  | succ n ih =>
    intro i
    simp only [dfHashes, ih, List.range_succ_eq_map, List.map_cons, List.map_map, List.flatten_cons, Nat.zero_add,
      Function.comp_def, Nat.succ_eq_add_one, Nat.add_right_comm _ 1 i, Nat.add_assoc _ i 1]

/-- The answer of `HASH_DF` is the leftmost `out_bit_len` bits of the stream, as a number (R121). -/
theorem be_hashDf {hash : Bytes → Bytes} {size bits : Nat} {material r : Bytes}
    (h : hashDf hash size material bits = some r) :
    be r = be ((dfHashes hash bits material 1 (ceilDiv bits 8 / size + 1)).take (ceilDiv bits 8)) /
      2 ^ ((8 - bits % 8) % 8) := by
  unfold hashDf at h
  split at h
  case isFalse => cases h
  case isTrue =>
    split at h
    case isTrue hwhole =>
      obtain rfl := Option.some.inj h
      rw [hwhole, Nat.sub_zero, Nat.mod_self, pow_zero, Nat.div_one]
    case isFalse hpartial =>
      obtain ⟨-, -, r', hr', -, hvalue⟩ | ⟨hcount, -⟩ := shrBytes_cases
        ((dfHashes hash bits material 1 (ceilDiv bits 8 / size + 1)).take (ceilDiv bits 8)) (8 - bits % 8)
      · obtain rfl := Option.some.inj (h.symm.trans hr')
        rw [hvalue, Nat.mod_eq_of_lt (by omega : 8 - bits % 8 < 8)]
      · exact absurd ⟨by omega, by omega⟩ hcount

theorem hashDf_of_counter_above {size bits : Nat} (h : 255 < ceilDiv bits 8 / size + 1) (hash : Bytes → Bytes)
    (material : Bytes) : hashDf hash size material bits = none :=
  if_neg (Nat.not_le.2 h)

theorem exec_hashDf (s : State) :
    exec .hashDf s = .next (s.putResult (some s.dp.digest.engine)
      (hashDf (digestOf Config.prims s.build s.dp.digest).1 (digestOf Config.prims s.build s.dp.digest).2 s.dp.bufA
        s.dp.bits.toNat)) := rfl

/-- Settles O43: within the counter there is an answer, its value is read off the digest stream, and above it there is
none. -/
theorem hashDfCompletes : Obligations.HashDfCompletes := by
  refine fun s hsize => ⟨fun hcounter => ?stream, fun habove => ?violation⟩
  case stream =>
    obtain ⟨r, hr, hlen, -⟩ := hashDf_some (digestOf_length Config.prims s.build s.dp.digest) s.dp.bufA
      ((Nat.div_lt_iff_lt_mul hsize).1 (Nat.lt_of_succ_le hcounter))
    refine ⟨r, by rw [exec_hashDf, hr, putResult_some], hlen, ?_⟩
    rw [be_hashDf hr, dfHashes_eq_flatten]
  case violation => exact ⟨_, by rw [exec_hashDf, hashDf_of_counter_above habove], putResult_own_none_halted _ s⟩

end Sys2Proof.Machine
end

section
/-! PROOF. A command that passes its checks and has its answer, at any engine, and a GENERATE past its ceiling (R245,
R247, R249, R251, R273). -/

namespace Sys2Proof.Machine

/-! ## Past the ceiling (R273) -/

/-- The ceiling is the last check: a GENERATE that passes all before it gets the reseed-required signal (R250). -/
theorem generateCheck_pastCeiling {e : Engine} {ai : Bool} {s : State} (hpresent : hasEngine s.build e = true)
    (hphase : s.p0 e ≠ .uninit) (hrequest : RequestFits e s) (hinput : InputFits e ai s)
    (hpast : ¬BelowCeiling e s) : generateCheck e ai s = some .reseedRequired := by
  rw [generateCheck_eq, if_neg (Bool.not_eq_false _ ▸ hpresent), if_neg hphase, if_neg (not_not.2 hrequest),
    if_neg (not_not.2 hinput), if_pos hpast]

/-- Settles O31: the check fails before any entropy call, so the signal is all that is written. -/
theorem reseedRequiredSignal : Obligations.ReseedRequiredSignal := by
  intro e ai pr s hpresent hphase hrequest hinput hpast
  have hcheck := generateCheck_pastCeiling hpresent hphase hrequest hinput hpast
  calc exec (generateOf e ai pr) s
      = .next (s.raise (some e) .reseedRequired) := by rw [exec_generateOf, generateFrame, hcheck]
    _ = _ := congrArg _ (State.raise_of_ne (some e) .reseedRequired s nofun)

/-! ## The normal path of the three frames -/

theorem exec_instantiate_succeeds {e : Engine} {s u : State} {entropy : Bytes} {rest : List EntropyAnswer}
    (h : InstantiateReady e s) (hs : s.entropy = .ok entropy :: rest)
    (hu : seedFn Config.prims e s.strengthOp (entropy ++ s.nonceIn ++ s.persIn) { s with entropy := rest } = some u) :
    exec (instantiateOf e) s = .next (u.succeed e 0) := by
  rw [exec_instantiateOf, instantiateFrame, (instantiateCheck_none e s).2 h]
  refine congrArg _ ((State.withEntropy_ok e _ s entropy rest hs).trans ?_)
  rw [hu, State.conclude_some]

theorem exec_reseed_succeeds {e : Engine} {ai : Bool} {s u : State} {entropy : Bytes} {rest : List EntropyAnswer}
    (h : ReseedReady e ai s) (hs : s.entropy = .ok entropy :: rest)
    (hu : reseedFn Config.prims e entropy (orEmpty (s.aiIn ai)) { s with entropy := rest } = some u) :
    exec (reseedOf e ai) s = .next (u.succeed e 0) := by
  rw [exec_reseedOf, reseedFrame, (reseedCheck_none e ai s).2 h]
  refine congrArg _ ((State.withEntropy_ok e _ s entropy rest hs).trans ?_)
  rw [hu, State.conclude_some]

theorem emitFrame_some {e : Engine} {produce : Option Bytes → Nat → State → Option (State × Bytes)} {n : Nat}
    {a : Option Bytes} {s u : State} {out : Bytes} (h : produce a n s = some (u, out)) :
    emitFrame e produce n a s = (u.storeOut n out).succeed e (n * 8) := by
  rw [emitFrame, h, Option.map_some, State.conclude_some]

/-- GENERATE without prediction resistance produces from the state as it is. -/
theorem exec_generate_plain_succeeds {e : Engine} {ai : Bool} {s u : State} {out : Bytes} (h : GenerateReady e ai s)
    (hu : produceFn Config.prims e (s.aiIn ai) s.outLenOp s = some (u, out)) :
    exec (generateOf e ai false) s = .next ((u.storeOut s.outLenOp out).succeed e (s.outLenOp * 8)) := by
  rw [exec_generateOf, generateFrame, (generateCheck_none e ai s).2 h]
  exact congrArg _ (emitFrame_some hu)

/-- GENERATE with prediction resistance reseeds with the additional input and produces with none (R251). -/
theorem exec_generate_resistant_succeeds {e : Engine} {ai : Bool} {s v u : State} {entropy out : Bytes}
    {rest : List EntropyAnswer} (h : GenerateReady e ai s) (hs : s.entropy = .ok entropy :: rest)
    (hv : reseedFn Config.prims e entropy (orEmpty (s.aiIn ai)) { s with entropy := rest } = some v)
    (hu : produceFn Config.prims e none s.outLenOp v = some (u, out)) :
    exec (generateOf e ai true) s = .next ((u.storeOut s.outLenOp out).succeed e (s.outLenOp * 8)) := by
  rw [exec_generateOf, generateFrame, (generateCheck_none e ai s).2 h]
  simp only [if_true, State.withEntropy_ok e _ s entropy rest hs, hv, emitFrame_some hu]

end Sys2Proof.Machine
end

section
/-! PROOF. The CTR engine: its key expansion, the keystream as encrypted counters, `CTR_UPDATE`, and its three commands
(R140 to R148, R277). -/

namespace Sys2Proof.Machine

/-! ## `EXPAND_KEY` (R140) -/

/-- `oddParity` does what its name says: the number of one bits is odd. -/
theorem countP_oddParity (b : Byte) : ((List.range 8).countP fun j => (oddParity b).getLsbD j) % 2 = 1 := by
  revert b; decide +kernel

theorem portExpandKey_parity (p : Prims) (key : Bytes) :
    ∀ b ∈ portExpandKey p key, ((List.range 8).countP fun j => b.getLsbD j) % 2 = 1 :=
  List.forall_mem_map.2 fun b _ => countP_oddParity b

theorem exec_expandKey (s : State) :
    exec .expandKey s = .next (s.putResult (some .ctr) (expandKeyFor Config.prims s.build.ctr s.dp.bufA)) := rfl

theorem expandKeyFor_plain {c : CtrCipher} (h : c.isTdea = false) (p : Prims) (key : Bytes) :
    expandKeyFor p c key = some key :=
  if_neg (by rw [h]; decide)

theorem expandKeyFor_tdea {c : CtrCipher} (h : c.isTdea = true) (p : Prims) (key : Bytes) :
    expandKeyFor p c key = if key.length = c.expandTakes then some (portExpandKey p key) else none :=
  if_pos h

/-- Settles O37: the identity, the port's answer and the violation, by the kind of cipher and the key's length. -/
theorem expandKeyCompletes : Obligations.ExpandKeyCompletes := by
  refine fun s => ⟨fun hplain => ?plain, fun htdea hlen => ?tdea, fun htdea hlen => ?violation⟩
  case plain => rw [exec_expandKey, expandKeyFor_plain hplain, putResult_some]
  case tdea =>
    refine ⟨_, ?_, rfl, portExpandKey_length .., portExpandKey_parity _ _⟩
    rw [exec_expandKey, expandKeyFor_tdea htdea, if_pos hlen, putResult_some]
  case violation =>
    exact ⟨_, by rw [exec_expandKey, expandKeyFor_tdea htdea, if_neg hlen], putResult_own_none_halted _ s⟩

/-! ## The keystream (R141, R147) -/

/-- `n` keystream blocks: block `j` is the cipher on `v + j + 1`. -/
def ctrStream (p : Prims) (c : CtrCipher) (cipherKey v : Bytes) (n : Nat) : Bytes :=
  ((List.range n).map fun j => portEncrypt p c cipherKey (toBE v.length (be v + j + 1))).flatten

/-- Counting on from `v + 1` is counting on from `v`, one further. -/
theorem toBE_incBE_add (v : Bytes) (k : Nat) :
    toBE (incBE v).length (be (incBE v) + k) = toBE v.length (be v + (k + 1)) := by
  rw [← iterate_incBE k, ← iterate_incBE (k + 1), Function.iterate_succ_apply]

theorem ctrStream_succ (p : Prims) (c : CtrCipher) (cipherKey v : Bytes) (n : Nat) :
    ctrStream p c cipherKey v (n + 1) =
      portEncrypt p c cipherKey (incBE v) ++ ctrStream p c cipherKey (incBE v) n := by
  have hshift (j : Nat) : toBE v.length (be v + (j + 1) + 1) = toBE (incBE v).length (be (incBE v) + j + 1) :=
    (toBE_incBE_add v (j + 1)).symm
  simp only [ctrStream, List.range_succ_eq_map, List.map_cons, List.map_map, List.flatten_cons, Function.comp_def,
    Nat.succ_eq_add_one, hshift, Nat.add_zero, incBE]

theorem ctrStream_length (p : Prims) (c : CtrCipher) (cipherKey v : Bytes) (n : Nat) :
    (ctrStream p c cipherKey v n).length = n * ctrBlockBytes c := by
  simp [ctrStream, List.length_flatten, Function.comp_def]

theorem keystream_eq {p : Prims} {c : CtrCipher} {key cipherKey : Bytes}
    (hk : expandKeyFor p c key = some cipherKey) (n : Nat) :
    ∀ v, keystream p c key v n = some (toBE v.length (be v + n), ctrStream p c cipherKey v n) := by
  induction n with
  | zero => intro v; rw [Nat.add_zero, toBE_be]; rfl
  | succ n ih =>
    intro v
    simp only [keystream, encryptWith_of_expandKeyFor hk, ih, Option.map_some, ctrStream_succ, toBE_incBE_add]

/-! ## `CTR_UPDATE` (R141, R277) -/

theorem violate_halted (own : Option Engine) (s : State) :
    HaltedFrom ((s.target.map (·.1)).or own) s (s.violate own) :=
  raise_halted _ s

/-- `CTR_UPDATE` on a legal cipher: the keystream, cut to the seed's length and XORed with it, is `key || v`. -/
theorem ctrUpdateOf_eq {p : Prims} {c : CtrCipher} (hlegal : ctrLegal c = true) {key cipherKey v seed temp : Bytes}
    (hk : expandKeyFor p c key = some cipherKey) (hs : seed.length = ctrSeedBytes c)
    (htemp : temp = List.zipWith (fun x y => x ^^^ y)
      ((ctrStream p c cipherKey v (ceilDiv (ctrSeedBytes c) (ctrBlockBytes c))).take (ctrSeedBytes c)) seed) :
    ctrUpdateOf p c key v seed = some (temp.take (ctrKeyBytes c), temp.drop (ctrKeyBytes c)) := by
  have facts := cipherFacts hlegal
  have hB : 0 < ctrBlockBytes c := lt_of_lt_of_le (by decide) facts.block
  have hcut : ((ctrStream p c cipherKey v (ceilDiv (ctrSeedBytes c) (ctrBlockBytes c))).take
      (ctrSeedBytes c)).length = ctrSeedBytes c := by
    rw [List.length_take, ctrStream_length, Nat.min_eq_left (ceilDiv_mul_ge _ _ hB)]
  have hxor := xorBytes_whole (off := 0) hcut hs.ge
  rw [List.drop_zero, List.take_of_length_le hs.le, ← htemp] at hxor
  have hv : (temp.drop (ctrKeyBytes c)).length ≤ ctrBlockBytes c := by
    rw [List.length_drop, xorBytes_length hxor, facts.seed, Nat.add_sub_cancel_left]
  simp only [ctrUpdateOf, if_pos hs, keystream_eq hk, hxor, Option.map_some, List.take_of_length_le hv]

theorem ctrFold_of_update {p : Prims} {c : CtrCipher} {r : CtrRegs} {seed : Bytes} {kv : Bytes × Bytes}
    (h : ctrUpdateOf p c r.key r.v seed = some kv) : ctrFold p c r seed = some { r with key := kv.1, v := kv.2 } := by
  rw [ctrFold, h, Option.map_some]

theorem exec_ctrUpdate (s : State) : exec .ctrUpdate s = .next (ctrUpdateOp Config.prims s) := rfl

theorem ctrUpdateOp_of_update {p : Prims} {s : State} {kv : Bytes × Bytes}
    (h : ctrUpdateOf p s.build.ctr s.ctr.key s.ctr.v s.dp.bufA = some kv) :
    ctrUpdateOp p s = { s with ctr := { s.ctr with key := kv.1, v := kv.2 } } := by
  rw [ctrUpdateOp, ctrFold_of_update h]

/-- A seed of another length is a violation of the CTR engine's own, where no command in flight says otherwise. -/
theorem ctrUpdateOp_of_wrong_length {s : State} (h : s.dp.bufA.length ≠ ctrSeedBytes s.build.ctr) (p : Prims) :
    ctrUpdateOp p s = s.violate (some .ctr) := by
  rw [ctrUpdateOp, ctrFold, ctrUpdateOf_none h, Option.map_none]

/-- Settles O36: a seed of the right length is folded in, another one has no answer. -/
theorem ctrUpdateCompletes : Obligations.CtrUpdateCompletes := by
  refine fun s hlegal hw => ⟨fun hs => ?fold, fun hs => ?violation⟩
  case fold =>
    obtain ⟨cipherKey, hk⟩ := exists_expandKeyFor (KeyTaken.of_length hlegal hw.ctrKey) Config.prims
    refine ⟨cipherKey, _, hk, rfl, ?_⟩
    rw [exec_ctrUpdate, ctrUpdateOp_of_update (ctrUpdateOf_eq hlegal hk hs rfl)]
    rfl
  case violation =>
    exact ⟨_, by rw [exec_ctrUpdate, ctrUpdateOp_of_wrong_length hs], violate_halted (some .ctr) s⟩

/-! ## Seeding and reseeding (R145, R148) -/

/-- The derivation of a seed and the fold of it always run on a legal cipher. -/
theorem exists_derived_update (p : Prims) {c : CtrCipher} (hlegal : ctrLegal c = true) (material : Bytes) {key : Bytes}
    (hkey : key.length = ctrKeyBytes c) (v : Bytes) :
    ∃ seed kv, blockCipherDf p c material (ctrSeedlen c) = some seed ∧ ctrUpdateOf p c key v seed = some kv := by
  have facts := cipherFacts hlegal
  obtain ⟨seed, hseed, hlen⟩ := blockCipherDf_some (p := p) hlegal material facts.whole
  obtain ⟨kv, hkv, -⟩ := ctrUpdateOf_some (p := p) hlegal (v := v) hkey (hlen.trans facts.seedDiv)
  exact ⟨seed, kv, hseed, hkv⟩

theorem ctrSeed_of_update {p : Prims} {c : CtrCipher} {material seed : Bytes} {kv : Bytes × Bytes}
    (hseed : blockCipherDf p c material (ctrSeedlen c) = some seed)
    (hkv : ctrUpdateOf p c (zeros (ctrKeyBytes c)) (zeros (ctrBlockBytes c)) seed = some kv) :
    ctrSeed p c material = some ⟨kv.1, kv.2, 1⟩ := by
  rw [ctrSeed, hseed, Option.bind_some, ctrFold_of_update hkv]

theorem ctrReseedOf_of_update {p : Prims} {c : CtrCipher} {r : CtrRegs} {entropy a seed : Bytes} {kv : Bytes × Bytes}
    (hseed : blockCipherDf p c (entropy ++ a) (ctrSeedlen c) = some seed)
    (hkv : ctrUpdateOf p c r.key r.v seed = some kv) : ctrReseedOf p c r entropy a = some ⟨kv.1, kv.2, 1⟩ := by
  rw [ctrReseedOf, hseed, Option.bind_some, ctrFold_of_update (r := { r with reseedCounter := 1 }) hkv]

theorem seedFn_ctr {p : Prims} {s : State} {material : Bytes} {r : CtrRegs}
    (h : ctrSeed p s.build.ctr material = some r) (strength : Nat) :
    seedFn p .ctr strength material s = some { s with ctr := r } := by
  rw [seedFn, h, Option.map_some]

theorem reseedFn_ctr {p : Prims} {s : State} {entropy a : Bytes} {r : CtrRegs}
    (h : ctrReseedOf p s.build.ctr s.ctr entropy a = some r) :
    reseedFn p .ctr entropy a s = some { s with ctr := r } := by
  rw [reseedFn, h, Option.map_some]

theorem produceFn_ctr {p : Prims} {s : State} {a : Option Bytes} {n : Nat} {r : CtrRegs} {out : Bytes}
    (h : ctrProduce p s.build.ctr s.ctr a n = some (r, out)) :
    produceFn p .ctr a n s = some ({ s with ctr := r }, out) := by
  rw [produceFn, h, Option.map_some]

/-- Settles O33: the seed from all zero, and the frame's normal path. -/
theorem ctrInstantiateCompletes : Obligations.CtrInstantiateCompletes := by
  intro s entropy rest hlegal hready hentropy
  obtain ⟨seed, kv, hseed, hkv⟩ := exists_derived_update Config.prims (buildLegal_ctr hlegal)
    (entropy ++ s.nonceIn ++ s.persIn) (zeros_length _) (zeros (ctrBlockBytes s.build.ctr))
  exact ⟨seed, kv, hseed, hkv,
    exec_instantiate_succeeds hready hentropy
      (seedFn_ctr (s := { s with entropy := rest }) (ctrSeed_of_update hseed hkv) s.strengthOp)⟩

/-- Settles O35: the seed from the registers as they are, and the frame's normal path. -/
theorem ctrReseedCompletes : Obligations.CtrReseedCompletes := by
  intro s ai entropy rest hlegal hw hready hentropy
  obtain ⟨seed, kv, hseed, hkv⟩ := exists_derived_update Config.prims (buildLegal_ctr hlegal)
    (entropy ++ orEmpty (s.aiIn ai)) hw.ctrKey s.ctr.v
  exact ⟨seed, kv, hseed, hkv,
    exec_reseed_succeeds hready hentropy
      (reseedFn_ctr (s := { s with entropy := rest }) (ctrReseedOf_of_update hseed hkv))⟩

/-! ## GENERATE (R147, R251) -/

theorem ctrAbsorb_some_iff {p : Prims} {c : CtrCipher} {r r1 : CtrRegs} {a seed : Bytes} :
    ctrAbsorb p c r (some a) = some (r1, seed) ↔
      ∃ kv, blockCipherDf p c a (ctrSeedlen c) = some seed ∧ ctrUpdateOf p c r.key r.v seed = some kv ∧
        r1 = { r with key := kv.1, v := kv.2 } := by
  simp only [ctrAbsorb, ctrFold, Option.bind_eq_some_iff, Option.map_eq_some_iff, Prod.mk.injEq]
  constructor
  · rintro ⟨seed', hseed, r', ⟨kv, hkv, rfl⟩, rfl, rfl⟩
    exact ⟨kv, hseed, hkv, rfl⟩
  · rintro ⟨kv, hseed, hkv, rfl⟩
    exact ⟨seed, hseed, _, ⟨kv, hkv, rfl⟩, rfl, rfl⟩

/-- GENERATE after its first fold: the keystream is the output, and the seed is folded in once more. -/
theorem ctrProduce_of_parts {p : Prims} {c : CtrCipher} {r r1 : CtrRegs} {a : Option Bytes} {n : Nat}
    {seed cipherKey : Bytes} {kv : Bytes × Bytes} (habsorb : ctrAbsorb p c r a = some (r1, seed))
    (hk : expandKeyFor p c r1.key = some cipherKey)
    (hkv : ctrUpdateOf p c r1.key (toBE r1.v.length (be r1.v + ceilDiv n (ctrBlockBytes c))) seed = some kv) :
    ctrProduce p c r a n = some (⟨kv.1, kv.2, r1.reseedCounter + 1⟩,
      ctrStream p c cipherKey r1.v (ceilDiv n (ctrBlockBytes c))) := by
  simp only [ctrProduce, habsorb, keystream_eq hk]
  rw [ctrFold_of_update (r := { r1 with v := _ }) hkv, Option.map_some]

/-- How a ready GENERATE begins: the registers it produces from, with or without the inline reseed, and the state it
ends in once these have produced. -/
theorem exists_ctrGenerate_start {s : State} {ai pr : Bool} {entropy : Bytes} {rest : List EntropyAnswer}
    (hlegal : buildLegal s.build = true) (hw : WidthsOk s) (hready : GenerateReady .ctr ai s)
    (hentropy : pr = true → s.entropy = .ok entropy :: rest) :
    ∃ r0, (pr = false → r0 = s.ctr) ∧
      (pr = true → ctrReseedOf Config.prims s.build.ctr s.ctr entropy (orEmpty (s.aiIn ai)) = some r0) ∧
      CtrWidths s.build.ctr r0 ∧
      ∀ r out, ctrProduce Config.prims s.build.ctr r0 (if pr then none else s.aiIn ai) s.outLenOp = some (r, out) →
        exec (.ctrGenerate ai pr) s = .next { s with
          ctr := r, out := Memory.writeBytes s.out 0 (out.take s.outLenOp)
          entropy := if pr then rest else s.entropy
          err := .ok, result := BitVec.ofNat 64 (s.outLenOp * 8)
          phases := s.phases.set .ctr .seeded, inflight := none, uop := none } := by
  cases pr with
  | false =>
    exact ⟨s.ctr, fun _ => rfl, nofun, hw.regs .ctr, fun r out h =>
      exec_generate_plain_succeeds hready (produceFn_ctr h)⟩
  | true =>
    obtain ⟨r0, hr0, hw0, -⟩ := ctrReseedOf_some (p := Config.prims) (buildLegal_ctr hlegal) (hw.regs .ctr) entropy
      (orEmpty (s.aiIn ai))
    exact ⟨r0, nofun, fun _ => hr0, hw0, fun r out h =>
      exec_generate_resistant_succeeds hready (hentropy rfl) (reseedFn_ctr (s := { s with entropy := rest }) hr0)
        (produceFn_ctr (s := { s with entropy := rest, ctr := r0 }) h)⟩

/-- Settles O34: the start by the form of the command, the first fold by the additional input, then the keystream and
the last fold. -/
theorem ctrGenerateCompletes : Obligations.CtrGenerateCompletes := by
  intro s ai pr entropy rest hlegal hw hready hentropy
  have hctr := buildLegal_ctr hlegal
  obtain ⟨r0, hplain, hresistant, hw0, hexec⟩ := exists_ctrGenerate_start hlegal hw hready hentropy
  obtain ⟨r1, seed, habsorb, ⟨hkey, hv⟩, hcounter, hseed⟩ := ctrAbsorb_some (p := Config.prims) hctr hw0
    (if pr then none else s.aiIn ai)
  obtain ⟨cipherKey, hk⟩ := exists_expandKeyFor (KeyTaken.of_length hctr hkey) Config.prims
  obtain ⟨kv, hkv, -⟩ := ctrUpdateOf_some (p := Config.prims) hctr
    (v := toBE r1.v.length (be r1.v + ceilDiv s.outLenOp (ctrBlockBytes s.build.ctr))) hkey hseed
  refine ⟨r0, r1, seed, cipherKey, _, kv, _, hplain, hresistant, fun hnone => ?noInput, fun hpr hai => ?input,
    rfl, hk, rfl, hv ▸ hkv, ?ends⟩
  case noInput =>
    have ha : (if pr then none else s.aiIn ai) = none := by rcases hnone with rfl | rfl <;> simp [State.aiIn]
    rw [ha] at habsorb
    obtain ⟨rfl, rfl⟩ := Prod.mk.inj (Option.some.inj habsorb)
    exact ⟨rfl, rfl⟩
  case input =>
    subst hpr hai
    exact ctrAbsorb_some_iff.1 habsorb
  case ends =>
    rw [hexec _ _ (ctrProduce_of_parts habsorb hk hkv), hcounter, ctrStream, hv]

end Sys2Proof.Machine
end

section
/-! PROOF. The Hash engine: `HASHGEN` as the digests of a running counter, the sums of GENERATE by their values, and its
three commands (R170 to R176). -/

namespace Sys2Proof.Machine

/-! ## `HASHGEN` (R170) -/

theorem hashBlocks_eq_flatten (hash : Bytes → Bytes) (n : Nat) :
    ∀ v, hashBlocks hash v n = ((List.range n).map fun j => hash (toBE v.length (be v + j))).flatten := by
  induction n with
  | zero => intro v; rfl
  | succ n ih =>
    intro v
    simp only [hashBlocks, ih, toBE_incBE_add, List.range_succ_eq_map, List.map_cons, List.map_map, List.flatten_cons,
      Function.comp_def, Nat.succ_eq_add_one, Nat.add_zero, toBE_be]

theorem hashgenOf_eq_flatten (hash : Bytes → Bytes) (size : Nat) (v : Bytes) (n : Nat) :
    hashgenOf hash size v n =
      (((List.range (ceilDiv n size)).map fun j => hash (toBE v.length (be v + j))).flatten).take n := by
  rw [hashgenOf, hashBlocks_eq_flatten]

theorem exec_hashgen (s : State) :
    exec .hashgen s = .next (s.putResult (some .hash)
      (some (hashgenOf (portHash Config.prims s.build.hash) s.build.hash.digestSize s.dp.bufA s.dp.len))) := rfl

/-- Settles O44: the running counter of the loop is the start plus the number of the block. -/
theorem hashgenCompletes : Obligations.HashgenCompletes := by
  refine ⟨by decide, fun s => ⟨_, hashgenOf_eq_flatten .., fun hlegal => ?length, ?result⟩⟩
  case length => exact hashgenOf_length (portHash_length _ _) (hashFacts hlegal).pos _ _
  case result => rw [exec_hashgen, putResult_some]

/-! ## Seeding and reseeding (R173, R176) -/

/-- On a legal digest both derivations of a seeding have their answer. -/
theorem exists_hashFromSeed (p : Prims) {h : HashDigest} (hlegal : hashLegal h = true) (material : Bytes) :
    ∃ v c, hashDf (portHash p h) h.digestSize material h.seedlen = some v ∧
      hashDf (portHash p h) h.digestSize (0x00 :: v) h.seedlen = some c ∧
      hashFromSeed p h material = some ⟨v, c, 1⟩ := by
  obtain ⟨r, hr, -⟩ := hashFromSeed_some (p := p) hlegal material
  obtain ⟨v, hv, hmap⟩ := Option.bind_eq_some_iff.1 hr
  obtain ⟨c, hc, rfl⟩ := Option.map_eq_some_iff.1 hmap
  exact ⟨v, c, hv, hc, hr⟩

theorem seedFn_hash {p : Prims} {s : State} {material : Bytes} {r : HashRegs}
    (h : hashFromSeed p s.build.hash material = some r) (strength : Nat) :
    seedFn p .hash strength material s = some { s with hash := r } := by
  rw [seedFn, h, Option.map_some]

theorem reseedFn_hash {p : Prims} {s : State} {entropy a : Bytes} {r : HashRegs}
    (h : hashReseedOf p s.build.hash s.hash entropy a = some r) :
    reseedFn p .hash entropy a s = some { s with hash := r } := by
  rw [reseedFn, h, Option.map_some]

theorem produceFn_hash {p : Prims} {s : State} {a : Option Bytes} {n : Nat} {r : HashRegs} {out : Bytes}
    (h : hashProduce p s.build.hash s.hash a n = some (r, out)) :
    produceFn p .hash a n s = some ({ s with hash := r }, out) := by
  rw [produceFn, h, Option.map_some]

/-- Settles O40: the two derivations, and the frame's normal path. -/
theorem hashInstantiateCompletes : Obligations.HashInstantiateCompletes := by
  intro s entropy rest hlegal hready hentropy
  obtain ⟨v, c, hv, hc, hseed⟩ := exists_hashFromSeed Config.prims (buildLegal_hash hlegal)
    (entropy ++ s.nonceIn ++ s.persIn)
  exact ⟨v, c, hv, hc,
    exec_instantiate_succeeds hready hentropy (seedFn_hash (s := { s with entropy := rest }) hseed s.strengthOp)⟩

/-- Settles O42: the two derivations from the old `v`, and the frame's normal path. -/
theorem hashReseedCompletes : Obligations.HashReseedCompletes := by
  intro s ai entropy rest hlegal hready hentropy
  obtain ⟨v, c, hv, hc, hseed⟩ := exists_hashFromSeed Config.prims (buildLegal_hash hlegal)
    ([0x01] ++ s.hash.v ++ entropy ++ orEmpty (s.aiIn ai))
  exact ⟨v, c, hv, hc,
    exec_reseed_succeeds hready hentropy (reseedFn_hash (s := { s with entropy := rest }) hseed)⟩

/-! ## The sums of GENERATE (R175) -/

/-- The seed of a legal digest is whole bytes (R8), so a sum at its width is a sum modulo `2^seedlen`. -/
theorem pow_hashSeedBytes {h : HashDigest} (hlegal : hashLegal h = true) : 256 ^ hashSeedBytes h = 2 ^ h.seedlen := by
  have hwhole : 8 * hashSeedBytes h = h.seedlen := by
    simp only [hashLegal, Bool.and_eq_true, Bool.or_eq_true, beq_iff_eq] at hlegal
    obtain ⟨⟨hlen | hlen, -⟩, -⟩ := hlegal <;> rw [hashSeedBytes, hlen] <;> rfl
  rw [← hwhole, pow_mul]; norm_num

theorem be_addBE {l x r : Bytes} (h : addBE l x = some r) : be r = (be l + be x) % 256 ^ l.length := by
  rcases addBE_cases l x with ⟨-, r', hr', -, hvalue⟩ | ⟨-, hnone⟩
  · obtain rfl := Option.some.inj (h.symm.trans hr')
    exact hvalue
  · rw [hnone] at h; cases h

/-- The three adds of `hashAdvance` are one sum: only the last reduction counts. -/
theorem be_hashAdvance {p : Prims} {h : HashDigest} {v c v2 : Bytes} {counter : BitVec 64}
    (hv2 : hashAdvance p h v c counter = some v2) :
    be v2 = (be v + be (portHash p h ([0x03] ++ v)) + be c + counter.toNat % 2 ^ 32) % 256 ^ v.length := by
  obtain ⟨r1, h1, hrest⟩ := Option.bind_eq_some_iff.1 hv2
  obtain ⟨r2, h2, h3⟩ := Option.bind_eq_some_iff.1 hrest
  have hfour : 256 ^ 4 = 2 ^ 32 := by norm_num
  rw [be_addBE h3, be_addBE h2, be_addBE h1, addBE_length h2, addBE_length h1, be_toBE, Nat.mod_add_mod, Nat.add_assoc,
    Nat.mod_add_mod, ← Nat.add_assoc, hfour]

/-- The output part of a GENERATE on a legal digest: the value it hashes from, and the new `v` (R175). -/
theorem exists_hashProduce (p : Prims) {h : HashDigest} (hlegal : hashLegal h = true) {r : HashRegs}
    (hr : HashWidths h r) (a : Option Bytes) (n : Nat) :
    ∃ v1 v2, (a = none → v1 = r.v) ∧
      (a.isSome = true → v1.length = r.v.length ∧
        be v1 = (be r.v + be (portHash p h ([0x02] ++ r.v ++ orEmpty a))) % 2 ^ h.seedlen) ∧
      v2.length = hashSeedBytes h ∧
      be v2 = (be v1 + be (portHash p h ([0x03] ++ v1)) + be r.c + r.reseedCounter.toNat % 2 ^ 32) % 2 ^ h.seedlen ∧
      hashProduce p h r a n =
        some (⟨v2, r.c, r.reseedCounter + 1⟩, hashgenOf (portHash p h) h.digestSize v1 n) := by
  obtain ⟨hv, hc⟩ := hr
  obtain ⟨v1, h1, hlen1⟩ := hashAbsorb_some (p := p) hlegal hv a
  obtain ⟨v2, h2, hlen2⟩ := hashAdvance_some (p := p) hlegal hlen1 hc r.reseedCounter
  refine ⟨v1, v2, fun hnone => ?noInput, fun hsome => ?input, hlen2, ?advanced, ?produced⟩
  case noInput =>
    subst hnone
    exact (Option.some.inj h1).symm
  case input =>
    obtain ⟨x, rfl⟩ := Option.isSome_iff_exists.1 hsome
    rw [← pow_hashSeedBytes hlegal, ← hv]
    exact ⟨addBE_length h1, be_addBE h1⟩
  case advanced => rw [be_hashAdvance h2, hlen1, pow_hashSeedBytes hlegal]
  case produced => rw [hashProduce, h1, Option.bind_some, h2, Option.map_some]

/-- The output of `HASHGEN` is stored whole: it is already cut to the request (R69 (b), R170). -/
theorem storeOut_hashgenOf (hash : Bytes → Bytes) (size : Nat) (v : Bytes) (n : Nat) (s : State) :
    s.storeOut n (hashgenOf hash size v n) = s.fillBuffer .out (hashgenOf hash size v n) := by
  rw [State.storeOut, hashgenOf, List.take_take, Nat.min_self]

/-- Settles O41: the plain form produces from the registers as they are, with the additional input where there is one;
the form with prediction resistance produces from the reseeded ones, with none (R251). -/
theorem hashGenerateCompletes : Obligations.HashGenerateCompletes := by
  intro s ai pr entropy rest hlegal hw hready hentropy
  have hhash := buildLegal_hash hlegal
  cases pr with
  | false =>
    obtain ⟨v1, v2, hnone, hsome, hlen, hvalue, hproduce⟩ :=
      exists_hashProduce Config.prims hhash (hw.regs .hash) (s.aiIn ai) s.outLenOp
    have hexec := exec_generate_plain_succeeds hready (produceFn_hash hproduce)
    rw [storeOut_hashgenOf] at hexec
    refine ⟨s.hash, v1, v2, fun _ => rfl, nofun, fun hai => hnone ?_, fun _ hai => hsome ?_, hlen, hvalue, hexec⟩
    · rw [hai.resolve_left nofun]; rfl
    · rw [hai]; rfl
  | true =>
    obtain ⟨r0, hr0, hw0, -⟩ := hashFromSeed_some (p := Config.prims) hhash
      ([0x01] ++ s.hash.v ++ entropy ++ orEmpty (s.aiIn ai))
    obtain ⟨v1, v2, hnone, -, hlen, hvalue, hproduce⟩ :=
      exists_hashProduce Config.prims hhash hw0 none s.outLenOp
    have hexec := exec_generate_resistant_succeeds hready (hentropy rfl)
      (reseedFn_hash (s := { s with entropy := rest }) hr0)
      (produceFn_hash (s := { s with entropy := rest, hash := r0 }) hproduce)
    rw [storeOut_hashgenOf] at hexec
    exact ⟨r0, v1, v2, nofun, fun _ => hr0, fun _ => hnone rfl, nofun, hlen, hvalue, hexec⟩

end Sys2Proof.Machine
end

section
/-! PROOF. The HMAC engine: a pass of the update, the update as one pass or two, the output loop as iterated MACs, and
the three commands (R190 to R194, R251). -/

namespace Sys2Proof.Machine

/-! ## A pass of the update (R190) -/

theorem toBE_bit (b : Bool) : toBE 1 (bit b) = [if b then 0x01 else 0x00] := by
  cases b <;> rfl

theorem hmacPassOf_eq (p : Prims) (h : HmacMac) (r : HmacRegs) (marker : Bool) (material : Option Bytes) {k : Bytes}
    (hk : k = portMac p h r.k (r.v ++ [if marker then 0x01 else 0x00] ++ orEmpty material)) :
    hmacPassOf p h r marker material = { r with k := k, v := portMac p h k r.v } := by
  rw [hk, ← toBE_bit, hmacPassOf]

/-- A pass cannot tell absent material from empty material (R13). -/
theorem hmacPassOf_some_nil (p : Prims) (h : HmacMac) (r : HmacRegs) (marker : Bool) :
    hmacPassOf p h r marker (some []) = hmacPassOf p h r marker none := rfl

theorem exec_hmacUpdatePass (marker : Bool) (s : State) :
    exec (.hmacUpdatePass marker) s =
      .next { s with hmac := hmacPassOf Config.prims s.build.hmac s.hmac marker s.dp.material } := rfl

theorem decode_hmacUpdatePass (marker : Bool) :
    decode (0x49000000 ||| (BitVec.ofBool marker).setWidth 32) = .ok (.hmacUpdatePass marker) := by
  revert marker; decide

/-- Settles O48: the pass written out, and the same pass on empty material. -/
theorem hmacUpdatePassCompletes : Obligations.HmacUpdatePassCompletes := by
  intro s marker
  have hpass := hmacPassOf_eq Config.prims s.build.hmac s.hmac marker s.dp.material rfl
  refine ⟨decode_hmacUpdatePass marker, _, _, rfl, rfl, portMac_length .., portMac_length .., ?runs,
    fun hnone => ?empty⟩
  case runs => rw [exec_hmacUpdatePass, hpass]
  case empty =>
    rw [← hpass, exec_hmacUpdatePass]
    simp only [hnone, hmacPassOf_some_nil]

/-! ## The update (R191) -/

theorem hmacUpdateOf_none (p : Prims) (h : HmacMac) (r : HmacRegs) :
    hmacUpdateOf p h r none = hmacPassOf p h r false none := rfl

theorem hmacUpdateOf_some (p : Prims) (h : HmacMac) (r : HmacRegs) (m : Bytes) :
    hmacUpdateOf p h r (some m) = hmacPassOf p h (hmacPassOf p h r false (some m)) true (some m) := rfl

theorem exec_hmacUpdate (s : State) :
    exec .hmacUpdate s = .next { s with hmac := hmacUpdateOf Config.prims s.build.hmac s.hmac s.dp.material } := rfl

/-- Settles O49: a pass leaves its operand `dp.material`, so the second pass reads the same material. -/
theorem hmacUpdateCompletes : Obligations.HmacUpdateCompletes := by
  refine ⟨by decide, fun s =>
    ⟨_, _, exec_hmacUpdatePass false s, exec_hmacUpdatePass true _, fun habsent => ?absent, fun hpresent => ?present⟩⟩
  case absent => rw [exec_hmacUpdate, habsent, hmacUpdateOf_none]
  case present =>
    obtain ⟨m, hm⟩ := Option.ne_none_iff_exists'.1 hpresent
    simp only [exec_hmacUpdate, hm, hmacUpdateOf_some]

/-! ## Seeding and reseeding (R192, R194) -/

/-- Both passes written out, on material that is present; the counter stays. -/
theorem exists_hmacUpdateOf_some (p : Prims) (h : HmacMac) (r : HmacRegs) (m : Bytes) :
    ∃ k1 v1 k2 v2,
      k1 = portMac p h r.k (r.v ++ [0x00] ++ m) ∧ v1 = portMac p h k1 r.v ∧
      k2 = portMac p h k1 (v1 ++ [0x01] ++ m) ∧ v2 = portMac p h k2 v1 ∧
      hmacUpdateOf p h r (some m) = ⟨k2, v2, r.reseedCounter⟩ := by
  refine ⟨_, _, _, _, rfl, rfl, rfl, rfl, ?_⟩
  rw [hmacUpdateOf_some, hmacPassOf_eq p h r false (some m) rfl, hmacPassOf_eq p h _ true (some m) rfl]
  rfl

theorem seedFn_hmac (p : Prims) (strength : Nat) (material : Bytes) (s : State) :
    seedFn p .hmac strength material s = some { s with hmac := hmacSeed p s.build.hmac material } := rfl

theorem reseedFn_hmac (p : Prims) (entropy a : Bytes) (s : State) :
    reseedFn p .hmac entropy a s = some { s with hmac := hmacReseedOf p s.build.hmac s.hmac entropy a } := rfl

/-- Settles O45: both passes from the fixed start, and the frame's normal path. -/
theorem hmacInstantiateCompletes : Obligations.HmacInstantiateCompletes := by
  intro s entropy rest hready hentropy
  obtain ⟨k1, v1, k2, v2, hk1, hv1, hk2, hv2, hupdate⟩ := exists_hmacUpdateOf_some Config.prims s.build.hmac
    ⟨zeros s.build.hmac.macSize, fill s.build.hmac.macSize 0x01, 1⟩ (entropy ++ s.nonceIn ++ s.persIn)
  have hexec := exec_instantiate_succeeds hready hentropy (seedFn_hmac ..)
  rw [hmacSeed, hupdate] at hexec
  exact ⟨k1, v1, k2, v2, hk1, hv1, hk2, hv2, hexec⟩

/-- Settles O47: both passes from the registers as they are, and the frame's normal path. -/
theorem hmacReseedCompletes : Obligations.HmacReseedCompletes := by
  intro s ai entropy rest hready hentropy
  obtain ⟨k1, v1, k2, v2, hk1, hv1, hk2, hv2, hupdate⟩ := exists_hmacUpdateOf_some Config.prims s.build.hmac
    { s.hmac with reseedCounter := 1 } (entropy ++ orEmpty (s.aiIn ai))
  have hexec := exec_reseed_succeeds hready hentropy (reseedFn_hmac ..)
  rw [hmacReseedOf, hupdate] at hexec
  exact ⟨k1, v1, k2, v2, hk1, hv1, hk2, hv2, hexec⟩

/-! ## GENERATE (R193, R251) -/

/-- The output loop: the MAC under `k` iterated from `v`, each value a block. -/
theorem hmacBlocks_eq (p : Prims) (h : HmacMac) (k : Bytes) (n : Nat) :
    ∀ v, hmacBlocks p h k v n =
      ((portMac p h k)^[n] v, ((List.range n).map fun j => (portMac p h k)^[j + 1] v).flatten) := by
  induction n with
  | zero => intro v; rfl
  | succ n ih =>
    intro v
    simp only [hmacBlocks, ih, List.range_succ_eq_map, List.map_cons, List.map_map, List.flatten_cons,
      Function.comp_def, Nat.succ_eq_add_one, Function.iterate_succ_apply, Function.iterate_zero_apply]

theorem hmacAbsorb_counter (p : Prims) (h : HmacMac) (r : HmacRegs) (a : Option Bytes) :
    (hmacAbsorb p h r a).reseedCounter = r.reseedCounter := by
  cases a with
  | none => rfl
  | some x => exact (hmacUpdateOf_facts p h r (some x)).2

/-- The output part of a GENERATE: the registers it draws from, and those after the update that always runs. -/
theorem exists_hmacProduce (p : Prims) (h : HmacMac) (r : HmacRegs) (a : Option Bytes) (n : Nat) :
    ∃ r1 r2 : HmacRegs, (a = none → r1 = r) ∧ (a ≠ none → r1 = hmacUpdateOf p h r a) ∧
      r2 = hmacUpdateOf p h { r1 with v := (portMac p h r1.k)^[ceilDiv n h.macSize] r1.v } a ∧
      hmacProduce p h r a n = ({ r2 with reseedCounter := r.reseedCounter + 1 },
        ((List.range (ceilDiv n h.macSize)).map fun j => (portMac p h r1.k)^[j + 1] r1.v).flatten) := by
  refine ⟨hmacAbsorb p h r a, _, fun hnone => ?noInput, fun hsome => ?input, rfl, ?produced⟩
  case noInput => rw [hnone]; rfl
  case input => exact if_pos (Option.isSome_iff_ne_none.2 hsome)
  case produced => simp only [hmacProduce, hmacBlocks_eq, hmacUpdateOf_facts, hmacAbsorb_counter]

theorem produceFn_hmac {p : Prims} {s : State} {a : Option Bytes} {n : Nat} {r : HmacRegs} {out : Bytes}
    (h : hmacProduce p s.build.hmac s.hmac a n = (r, out)) :
    produceFn p .hmac a n s = some ({ s with hmac := r }, out) := by
  rw [produceFn, h]

/-- Settles O46: the plain form produces from the registers as they are, with the additional input where there is one;
the form with prediction resistance produces from the reseeded ones, with none (R251). -/
theorem hmacGenerateCompletes : Obligations.HmacGenerateCompletes := by
  intro s ai pr entropy rest hready hentropy
  cases pr with
  | false =>
    obtain ⟨r1, r2, hnone, hsome, hr2, hproduce⟩ :=
      exists_hmacProduce Config.prims s.build.hmac s.hmac (s.aiIn ai) s.outLenOp
    exact ⟨s.hmac, r1, r2, _, s.aiIn ai, fun _ => ⟨rfl, rfl⟩, nofun, hnone, hsome, rfl, hr2,
      exec_generate_plain_succeeds hready (produceFn_hmac hproduce)⟩
  | true =>
    obtain ⟨r1, r2, hnone, hsome, hr2, hproduce⟩ := exists_hmacProduce Config.prims s.build.hmac
      (hmacReseedOf Config.prims s.build.hmac s.hmac entropy (orEmpty (s.aiIn ai))) none s.outLenOp
    exact ⟨_, r1, r2, _, none, nofun, fun _ => ⟨rfl, rfl⟩, hnone, hsome, rfl, hr2,
      exec_generate_resistant_succeeds hready (hentropy rfl) (reseedFn_hmac ..)
        (produceFn_hmac (s := { s with entropy := rest, hmac := _ }) hproduce)⟩

end Sys2Proof.Machine
end

section
/-! PROOF. The Dual-EC engine: `PAD8` as a multiplication, the output loop in the running values, GENERATE as one output
part over the registers it starts from, and the three commands (R210, R215, R219, R220, R251, R277). -/

namespace Sys2Proof.Machine

/-! ## `PAD8` (R210) -/

/-- `PAD8` multiplies by the power of two that fills the last byte, at the width of its operand. -/
theorem pad8Of_eq (seedlen : Nat) (s : Bytes) :
    pad8Of seedlen s = some (toBE s.length (be s * 2 ^ ((8 - seedlen % 8) % 8))) := by
  unfold pad8Of
  split
  case isTrue hwhole => rw [hwhole, Nat.sub_zero, Nat.mod_self, pow_zero, Nat.mul_one, toBE_be]
  case isFalse hpartial =>
    have hcount : 8 - seedlen % 8 < 8 := by omega
    rw [Nat.mod_eq_of_lt hcount, shlBytes_of_count (by omega) (by omega)]

theorem exec_pad8 (s : State) :
    exec .pad8 s = .next (s.putResult (some .dualec) (pad8Of s.curve.seedlen s.dp.bufA)) := rfl

/-- The whole bytes of a `seedlen` hold its bits and the filling of the last byte. -/
theorem pow_ceilDiv_eight (bits : Nat) : 256 ^ ceilDiv bits 8 = 2 ^ bits * 2 ^ ((8 - bits % 8) % 8) := by
  rw [show (256 : Nat) = 2 ^ 8 by norm_num, ← pow_mul, ← pow_add]
  congr 1
  unfold ceilDiv
  omega

/-- Settles O55: the product stays below the width of the result, so nothing of it is cut off. -/
theorem pad8Completes : Obligations.Pad8Completes := by
  refine fun s => ⟨?result, fun hlen hbits => ?lossless⟩
  case result => rw [exec_pad8, pad8Of_eq, putResult_some]
  case lossless =>
    rw [be_toBE, hlen, curveSeedBytes, pow_ceilDiv_eight]
    exact Nat.mod_eq_of_lt (Nat.mul_lt_mul_of_pos_right hbits (by positivity))

/-! ## Seeding and reseeding (R215, R220) -/

theorem dualecSeed_of_df {p : Prims} {b : Build} {strength : Nat} {material x : Bytes}
    (h : dualecDf p b (curveOf b (rowFor strength)) material = some x) :
    dualecSeed p b strength material = some ⟨x, rowFor strength, 0⟩ := by
  rw [dualecSeed, h, Option.map_some]

/-- A reseed derives from the padded `s`, stays on its row, and clears the counter. -/
theorem dualecReseedOf_eq (p : Prims) (b : Build) (r : DualecRegs) (entropy a : Bytes) :
    dualecReseedOf p b r entropy a =
      (dualecDf p b (curveOf b r.row)
        (toBE r.s.length (be r.s * 2 ^ ((8 - (curveOf b r.row).seedlen % 8) % 8)) ++ entropy ++ a)).map
          fun x => ⟨x, r.row, 0⟩ := by
  rw [dualecReseedOf, pad8Of_eq, Option.bind_some]

theorem dualecReseedOf_row {p : Prims} {b : Build} {r r' : DualecRegs} {entropy a : Bytes}
    (h : dualecReseedOf p b r entropy a = some r') : r'.row = r.row := by
  rw [dualecReseedOf_eq] at h
  obtain ⟨x, -, rfl⟩ := Option.map_eq_some_iff.1 h
  rfl

theorem seedFn_dualec {p : Prims} {s : State} {strength : Nat} {material : Bytes} {r : DualecRegs}
    (h : dualecSeed p s.build strength material = some r) :
    seedFn p .dualec strength material s = some { s with dualec := r } := by
  rw [seedFn, h, Option.map_some]

theorem reseedFn_dualec {p : Prims} {s : State} {entropy a : Bytes} {r : DualecRegs}
    (h : dualecReseedOf p s.build s.dualec entropy a = some r) :
    reseedFn p .dualec entropy a s = some { s with dualec := r } := by
  rw [reseedFn, h, Option.map_some]

theorem produceFn_dualec (p : Prims) (s : State) (a : Option Bytes) (n : Nat) :
    produceFn p .dualec a n s =
      (dualecProduce p s.build s.dualec a n).map fun r => ({ s with dualec := r.1 }, r.2) := rfl

/-- Settles O50: the derivation on the row of the strength, and the frame's normal path. -/
theorem dualecInstantiateCompletes : Obligations.DualecInstantiateCompletes := by
  intro s entropy rest row hlegal hready hentropy hrow
  obtain rfl : row = rowFor s.strengthOp := hrow
  obtain ⟨x, hx, -⟩ := dualecDf_some (p := Config.prims) hlegal (rowFor s.strengthOp)
    (entropy ++ s.nonceIn ++ s.persIn)
  exact ⟨x, hx, exec_instantiate_succeeds hready hentropy
    (seedFn_dualec (s := { s with entropy := rest }) (dualecSeed_of_df hx))⟩

/-- Settles O54: the derivation from the padded old `s`, and the frame's normal path. -/
theorem dualecReseedCompletes : Obligations.DualecReseedCompletes := by
  intro s ai entropy rest hlegal hready hentropy
  obtain ⟨x, hx, -⟩ := dualecDf_some (p := Config.prims) hlegal s.dualec.row
    (toBE s.dualec.s.length (be s.dualec.s * 2 ^ ((8 - s.curve.seedlen % 8) % 8)) ++ entropy ++ orEmpty (s.aiIn ai))
  have hreseed : dualecReseedOf Config.prims s.build s.dualec entropy (orEmpty (s.aiIn ai)) =
      some ⟨x, s.dualec.row, 0⟩ := by
    rw [dualecReseedOf_eq]
    exact congrArg (Option.map _) hx
  exact ⟨_, x, rfl, hx,
    exec_reseed_succeeds hready hentropy (reseedFn_dualec (s := { s with entropy := rest }) hreseed)⟩

/-! ## The output loop (R219) -/

/-- The running values from `t` on and the values of the output points, none from the point at infinity on. -/
structure RunningValues (p : Prims) (row : Row) (c : Curve) (t : Nat) (sv r : Nat → Option Nat) : Prop where
  start   : sv 0 = some t
  advance : ∀ j, sv (j + 1) = (sv j).bind fun k => portEcMulX p row c c.p c.pOrder k
  output  : ∀ j, r j = (sv (j + 1)).bind fun k => portEcMulX p row c c.q c.qOrder k

/-- The blocks of the first `n` output points, each its low-order `outlen` bytes. -/
def pointStream (c : Curve) (r : Nat → Option Nat) (n : Nat) : Bytes :=
  ((List.range n).map fun j => toBE c.outlen ((r j).getD 0)).flatten

theorem pointStream_succ {c : Curve} {r : Nat → Option Nat} {x : Nat} (h : r 0 = some x) (n : Nat) :
    pointStream c r (n + 1) = toBE c.outlen x ++ pointStream c (fun j => r (j + 1)) n := by
  simp only [pointStream, List.range_succ_eq_map, List.map_cons, List.map_map, List.flatten_cons, h, Option.getD_some,
    Function.comp_def, Nat.succ_eq_add_one]

theorem dualecBlocks_succ (p : Prims) (row : Row) (c : Curve) (t n : Nat) :
    dualecBlocks p row c t (n + 1) = (portEcMulX p row c c.p c.pOrder t).bind fun t1 =>
      (portEcMulX p row c c.q c.qOrder t1).bind fun x =>
        (dualecBlocks p row c t1 n).map fun rest => (rest.1, toBE c.outlen x ++ rest.2) := by
  rw [dualecBlocks]
  cases portEcMulX p row c c.p c.pOrder t with
  | none => rfl
  | some t1 =>
    simp only [Option.bind_some]
    cases portEcMulX p row c c.q c.qOrder t1 <;> rfl

section RunningValues
variable {p : Prims} {row : Row} {c : Curve} {t : Nat} {sv r : Nat → Option Nat}

theorem RunningValues.first (h : RunningValues p row c t sv r) : sv 1 = portEcMulX p row c c.p c.pOrder t := by
  rw [h.advance 0, h.start, Option.bind_some]

/-- The values after the first block are those of a loop that starts there. -/
theorem RunningValues.tail (h : RunningValues p row c t sv r) {t1 : Nat} (h1 : sv 1 = some t1) :
    RunningValues p row c t1 (fun j => sv (j + 1)) (fun j => r (j + 1)) :=
  ⟨h1, fun j => h.advance (j + 1), fun j => h.output (j + 1)⟩

end RunningValues

/-- The output loop stops at the first output point at infinity, and else answers the running value and the blocks. -/
theorem dualecBlocks_eq {p : Prims} {row : Row} {c : Curve} (n : Nat) :
    ∀ {t : Nat} {sv r : Nat → Option Nat}, RunningValues p row c t sv r →
      dualecBlocks p row c t n =
        if ∀ j, j < n → r j ≠ none then (sv n).map fun k => (k, pointStream c r n) else none := by
  induction n with
  | zero => intro t sv r h; rw [if_pos (fun j hj => absurd hj j.not_lt_zero), h.start]; rfl
  | succ n ih =>
    intro t sv r h
    simp only [Nat.forall_lt_succ_left']
    rw [dualecBlocks_succ, ← h.first]
    have hpoint := h.output 0
    cases h1 : sv 1 with
    | none =>
      rw [h1, Option.bind_none] at hpoint
      rw [Option.bind_none, if_neg fun hall => hall.1 hpoint]
    | some t1 =>
      rw [h1, Option.bind_some] at hpoint
      rw [Option.bind_some, ← hpoint, ih (h.tail h1)]
      cases hr : r 0 with
      | none => rw [Option.bind_none, if_neg fun hall => hall.1 rfl]
      | some x =>
        simp only [Option.bind_some, pointStream_succ hr, reduceCtorEq, not_false_eq_true, ne_eq, true_and]
        split <;> simp only [Option.map_map, Option.map_none, Function.comp_def]

/-- The output part of a GENERATE: the blocks, then one more advance of `s` and one count per block. -/
theorem dualecProduce_eq {p : Prims} {b : Build} {r0 : DualecRegs} {row : Row} {c : Curve} {a : Option Bytes}
    {n t : Nat} {sv r : Nat → Option Nat} (hrow : r0.row = row) (hc : curveOf b row = c)
    (ht : dualecAbsorb p b r0 a = some t) (h : RunningValues p row c t sv r) :
    dualecProduce p b r0 a n =
      if ∀ j, j < ceilDiv n c.outlen → r j ≠ none then
        (sv (ceilDiv n c.outlen + 1)).map fun k =>
          (⟨toBE (curveSeedBytes c) k, row, r0.reseedCounter + BitVec.ofNat 64 (ceilDiv n c.outlen)⟩,
            pointStream c r (ceilDiv n c.outlen))
      else none := by
  subst hrow hc
  rw [dualecProduce, ht, Option.bind_some, dualecBlocks_eq _ h, h.advance]
  split
  case isTrue => simp only [Option.bind_map, Option.map_bind, Function.comp_def]
  case isFalse => rfl

/-! ## The output part of any engine's GENERATE (R247, R251, R277) -/

theorem exec_generate_plain_emits {e : Engine} {ai : Bool} {s : State} (h : GenerateReady e ai s) :
    exec (generateOf e ai false) s =
      .next (emitFrame e (produceFn Config.prims e) s.outLenOp (s.aiIn ai) s) := by
  rw [exec_generateOf, generateFrame, (generateCheck_none e ai s).2 h]
  rfl

theorem exec_generate_resistant_emits {e : Engine} {ai : Bool} {s v : State} {entropy : Bytes}
    {rest : List EntropyAnswer} (h : GenerateReady e ai s) (hs : s.entropy = .ok entropy :: rest)
    (hv : reseedFn Config.prims e entropy (orEmpty (s.aiIn ai)) { s with entropy := rest } = some v) :
    exec (generateOf e ai true) s = .next (emitFrame e (produceFn Config.prims e) s.outLenOp none v) := by
  rw [exec_generateOf, generateFrame, (generateCheck_none e ai s).2 h]
  simp only [if_true, State.withEntropy_ok e _ s entropy rest hs, hv]

theorem emitFrame_none {e : Engine} {produce : Option Bytes → Nat → State → Option (State × Bytes)} {n : Nat}
    {a : Option Bytes} {s : State} (h : produce a n s = none) :
    emitFrame e produce n a s = s.raise (some e) .contractViolation := by
  rw [emitFrame, h, Option.map_none, State.conclude_none]

/-- A violation inside a command halts from the state in which the command found the block. -/
theorem Advanced.violation_halted {e : Engine} {s v : State} (h : Advanced e s v) :
    HaltedFrom (some e) s (v.raise (some e) .contractViolation) :=
  have hv := raise_halted (some e) v
  { hv with
    phases := hv.phases.trans h.phases
    inputs := h.inputs.trans hv.inputs
    others := fun f hf => (h.others fun hfe => hf (congrArg some hfe)).trans (hv.others f hf) }

/-! ## GENERATE (R219, R251, R277) -/

/-- The state whose registers the output part starts from: `r0`, with the answer of the source taken where the form
reseeds. -/
def State.drawing (r0 : DualecRegs) (pr : Bool) (rest : List EntropyAnswer) (s : State) : State :=
  { s with dualec := r0, entropy := if pr then rest else s.entropy }

theorem State.drawing_advanced (r0 : DualecRegs) (pr : Bool) (rest : List EntropyAnswer) (s : State) :
    Advanced .dualec s (s.drawing r0 pr rest) where
  frame := rfl
  others f hf := by
    cases f with
    | dualec => exact absurd rfl hf
    | ctr | hash | hmac => rfl

/-- Every form is the output part over its registers `r0` and its first scalar `t`. -/
theorem exists_dualecGenerate_start {s : State} {ai pr : Bool} {entropy : Bytes} {rest : List EntropyAnswer}
    {r0 : DualecRegs} {t : Nat} (hready : GenerateReady .dualec ai s)
    (hentropy : pr = true → s.entropy = .ok entropy :: rest) (hplain : pr = false → r0 = s.dualec)
    (hreseed : pr = true → dualecReseedOf Config.prims s.build s.dualec entropy (orEmpty (s.aiIn ai)) = some r0)
    (hscalar : pr = true ∨ ai = false → t = be r0.s)
    (habsorb : pr = false → ai = true → ∃ d x,
      dualecDf Config.prims s.build s.curve (orEmpty (s.aiIn ai)) = some d ∧
        xorBytes (curveSeedBytes s.curve) r0.s d 0 = some x ∧ t = be x) :
    r0.row = s.dualec.row ∧ ∃ a, dualecAbsorb Config.prims s.build r0 a = some t ∧
      exec (.dualecGenerate ai pr) s =
        .next (emitFrame .dualec (produceFn Config.prims .dualec) s.outLenOp a (s.drawing r0 pr rest)) := by
  cases pr with
  | true =>
    obtain rfl := hscalar (.inl rfl)
    exact ⟨dualecReseedOf_row (hreseed rfl), none, rfl, exec_generate_resistant_emits hready (hentropy rfl)
      (reseedFn_dualec (s := { s with entropy := rest }) (hreseed rfl))⟩
  | false =>
    obtain rfl := hplain rfl
    refine ⟨rfl, s.aiIn ai, ?_, exec_generate_plain_emits hready⟩
    cases ai with
    | false => rw [hscalar (.inr rfl)]; rfl
    | true =>
      obtain ⟨d, x, hd, hx, rfl⟩ := habsorb rfl rfl
      exact Option.bind_eq_some_iff.2 ⟨d, hd, congrArg (Option.map be) hx⟩

/-- Settles O51: every form is one output part, which answers unless an output point or the last advance of `s` is at
infinity. -/
theorem dualecGenerateResult : Obligations.DualecGenerateResult := by
  intro s ai pr entropy rest r0 t sv r blocks c hready hentropy hplain hreseed hc hblocks hscalar habsorb hstart
    hadvance houtput
  subst hc hblocks
  obtain ⟨hrow, a, ht, hexec⟩ := exists_dualecGenerate_start hready hentropy hplain hreseed hscalar habsorb
  have hproduce := dualecProduce_eq (c := s.curve) (n := s.outLenOp) hrow rfl ht ⟨hstart, hadvance, houtput⟩
  have hemit := produceFn_dualec Config.prims (s.drawing r0 pr rest) a s.outLenOp
  rw [hexec]
  refine ⟨fun hpoints hlast => ?completes, fun hinfinity => ⟨_, rfl, ?halts⟩⟩
  case completes =>
    obtain ⟨k, hk⟩ := Option.ne_none_iff_exists'.1 hlast
    rw [if_pos hpoints, hk, Option.map_some] at hproduce
    rw [hk, Option.getD_some]
    exact congrArg _ (emitFrame_some (hemit.trans (congrArg (Option.map _) hproduce)))
  case halts =>
    have hnone : dualecProduce Config.prims s.build r0 a s.outLenOp = none := by
      rw [hproduce]
      rcases hinfinity with ⟨j, hj, hr⟩ | hlast
      · exact if_neg fun hall => hall j hj hr
      · rw [hlast, Option.map_none, ite_self]
    rw [emitFrame_none (hemit.trans (congrArg (Option.map _) hnone))]
    exact (s.drawing_advanced r0 pr rest).violation_halted

/-- A request of no bytes draws no block. -/
theorem dualecProduce_of_no_bytes {p : Prims} {b : Build} {r : DualecRegs} {x : Nat}
    (h : portEcMulX p r.row (curveOf b r.row) (curveOf b r.row).p (curveOf b r.row).pOrder (be r.s) = some x) :
    dualecProduce p b r none 0 = some ({ r with s := toBE (curveSeedBytes (curveOf b r.row)) x }, []) := by
  have hblocks : ceilDiv 0 (curveOf b r.row).outlen = 0 := by
    rw [ceilDiv, Nat.zero_add]
    exact Nat.div_eq_zero_iff.2 (by omega)
  simp only [dualecProduce, dualecAbsorb, hblocks, dualecBlocks, Option.bind_some, h, Option.map_some, BitVec.add_zero]

/-- Settles O52: `s` advances by the one finite multiple, and nothing is stored. -/
theorem dualecGenerateOfNoBytesCompletes : Obligations.DualecGenerateOfNoBytesCompletes := by
  intro s hready hlen hfinite
  have hmul : portEcMulX Config.prims s.dualec.row s.curve s.curve.p s.curve.pOrder (be s.dualec.s) = some _ :=
    if_neg hfinite
  have hproduce := produceFn_dualec Config.prims s none s.outLenOp
  rw [hlen, dualecProduce_of_no_bytes hmul] at hproduce
  refine ⟨_, hmul, ?_⟩
  have hexec := exec_generate_plain_succeeds (e := .dualec) hready (hlen ▸ hproduce)
  rw [hlen] at hexec
  exact hexec

end Sys2Proof.Machine
end

section
/-! PROOF. When the decoded instruction runs, from the write of `CMD` on, and that no step but the reset returns an
engine to `UNINIT` or clears the halt (R241, R243, R244, R285, R300). -/

namespace Sys2Proof.Machine

/-! ## The block's turn on a decoded word (R244, R285) -/

theorem runMicro_micro {w : Word} {i : Instr} (hd : decode w = .ok i) (hi : i.command = none) (s : State) :
    runMicro w s = exec i s := by
  simp only [runMicro, hd, hi, Option.isNone_none, if_true]

theorem blockTurn_decoded_command {s : State} {l : Latch} {i : Instr} (hu : s.uop = none) (hl : s.inflight = some l)
    (hd : decode l.word = .ok i) (hi : i.command.isSome = true) : blockTurn s = exec i s := by
  obtain ⟨x, hx⟩ := Option.isSome_iff_exists.1 hi
  rw [blockTurn_command hu hl, runCommand_command hd hx]

theorem blockTurn_decoded_micro {s : State} {w : Word} {i : Instr} (hu : s.uop = some w) (hd : decode w = .ok i)
    (hi : i.command.isNone = true) : blockTurn s = exec i { s with uop := none } := by
  rw [blockTurn_micro hu, runMicro_micro hd (Option.isNone_iff_eq_none.1 hi)]

/-- While the block is busy a `POLL` gives it the turn (R90). -/
theorem step_poll_busy {s : State} {rest : List Input} (h : s.agenda = .host .poll :: rest) (hb : s.busy = true) :
    step s = blockTurn s := by
  rw [step_poll h, if_pos hb]

/-- Settles O6: each of the three inputs gives the block its turn, which runs what the word decodes to. -/
theorem stepRunsTheInstruction : Obligations.StepRunsTheInstruction := by
  intro s i rest
  refine ⟨fun l hu hl hd hi => ?command, fun w hu hd hi => ?micro⟩
  case command =>
    have hbusy : s.busy = true := by simp [State.busy, hl]
    refine ⟨fun ha => ?_, fun ha => ?_, fun ha => ?_⟩
    · rw [step_idle ha, blockTurn_decoded_command hu hl hd hi]
    · rw [step_block ha, blockTurn_decoded_command (s := { s with agenda := rest }) hu hl hd hi]
    · rw [step_poll_busy ha hbusy, blockTurn_decoded_command hu hl hd hi]
  case micro =>
    have hbusy : s.busy = true := by simp [State.busy, hu]
    refine ⟨fun ha => ?_, fun ha => ?_, fun ha => ?_⟩
    · rw [step_idle ha, blockTurn_decoded_micro hu hd hi]
    · rw [step_block ha, blockTurn_decoded_micro (s := { s with agenda := rest }) hu hd hi]
    · rw [step_poll_busy ha hbusy, blockTurn_decoded_micro hu hd hi]

/-! ## A word stored by `withFetchWord` (R243, R285) -/

theorem tableWord_toNat (w : Word) : tableWord 32 w.toNat = w := by
  rw [tableWord, Nat.mod_eq_of_lt w.isLt, BitVec.ofNat_toNat, BitVec.setWidth_eq]

theorem isMicroWord_of_decode {w : Word} {i : Instr} (h : decode w = .ok i) : isMicroWord w = i.command.isNone := by
  simp only [isMicroWord, h]

theorem withFetchWord_command {w : Word} {i : Instr} (hd : decode w = .ok i) (hi : i.command.isSome = true)
    (s : State) :
    s.withFetchWord 32 w.toNat = { s.accept w with uop := none, agenda := .block :: s.agenda } := by
  rw [State.withFetchWord, tableWord_toNat, State.loadWord, isMicroWord_of_decode hd,
    if_neg (by simp [Option.isSome_iff_ne_none.1 hi])]

theorem withFetchWord_micro {w : Word} {i : Instr} (hd : decode w = .ok i) (hi : i.command.isNone = true)
    (s : State) : s.withFetchWord 32 w.toNat = { s with uop := some w, agenda := .block :: s.agenda } := by
  rw [State.withFetchWord, tableWord_toNat, State.loadWord, isMicroWord_of_decode hd, if_pos hi]

/-- Settles O7: the stored word decodes to its instruction, and the next turn is the block's. -/
theorem fetchedWordRuns : Obligations.FetchedWordRuns := by
  intro s i hwf
  have hd := decodeOfEncode i hwf
  refine ⟨fun hi => ?command, fun hi => ?micro⟩
  case command =>
    rw [withFetchWord_command hd hi, step_block rfl]
    exact blockTurn_decoded_command (s := { s.accept (encode i) with uop := none }) rfl rfl hd hi
  case micro =>
    rw [withFetchWord_micro hd hi, step_block rfl]
    exact blockTurn_decoded_micro (s := { s with uop := some (encode i) }) rfl hd hi

/-! ## Acceptance (R243) -/

theorem step_accepts {s : State} {w : Word} {rest : List Input} (ha : s.agenda = .host (.wr 0 w) :: rest)
    (hb : s.busy = false) (hh : s.halt = false) : step s = .next (State.accept w { s with agenda := rest }) := by
  rw [step_host ha nofun, hostAccess_wr_idle (s := { s with agenda := rest }) hb]
  exact congrArg _ (writeCmd_running (s := { s with agenda := rest }) hh w)

theorem acceptPhases_some (ph : Phases) (e : Engine) (op : CmdOp) :
    acceptPhases ph (some (e, op)) =
      if op = .generate ∧ ph.get e ≠ .uninit then ph.set e .generating else ph := by
  cases op with
  | instantiate | reseed => rfl
  | generate => by_cases hp : ph.get e = .uninit <;> simp [acceptPhases, hp]

/-- Settles O10: the accepted word names the engine, so the latch and the phases follow it. -/
theorem acceptanceLatchesThePhase : Obligations.AcceptanceLatchesThePhase := by
  intro s w i e op rest ha hb hh hd hi hpresent
  have hc : commandOf s.build w = some (e, op) := by rw [commandOf_command hd hi, if_pos hpresent]
  refine ⟨_, _, step_accepts ha hb hh, rfl, ?target, ?phases, accept_p0 w { s with agenda := rest } e⟩
  case target => exact congrArg (Option.map fun c => (c.1, s.phases.get c.1)) hc
  case phases => exact (congrArg (acceptPhases s.phases) hc).trans (acceptPhases_some s.phases e op)

/-! ## No way back to `UNINIT`, and none out of the halt (R241, R284, R300) -/

/-- No engine of `s` has gone back to `UNINIT` in `t`, and a halt of `s` stands. -/
structure NoReturn (s t : State) : Prop where
  phases : ∀ e, s.phases.get e ≠ .uninit → t.phases.get e ≠ .uninit
  halted : s.halt = true → t.halt = true

theorem NoReturn.of_eq {s t : State} (hp : t.phases = s.phases) (hh : t.halt = s.halt) : NoReturn s t :=
  ⟨fun _ h => hp ▸ h, fun h => hh.trans h⟩

theorem HaltedFrom.noReturn {e : Option Engine} {s t : State} (h : HaltedFrom e s t) : NoReturn s t :=
  ⟨fun _ hf => h.phases ▸ hf, fun _ => h.halt⟩

/-- An outcome taken on the engine of the command in flight leaves it in `p0` or past `UNINIT` (R241). -/
theorem raise_noReturn {s : State} (h : FlightOk s) {e : Option Engine}
    (he : ∀ f, e ≠ some f → s.p0 f = s.phases.get f) (c : Code) : NoReturn s (s.raise e c) := by
  by_cases hc : c = .contractViolation
  · subst hc
    exact (raise_halted e s).noReturn
  · refine ⟨fun f hf => ?_, fun hh => (raise_halt_of_ne hc).trans hh⟩
    rw [State.raise_phases, phasesAfter_get hc he]
    split
    · decide
    · exact (h.p0_uninit_iff f).not.2 hf

theorem command_noReturn {e : Engine} {op : CmdOp} {s t : State} (h : FlightOk s)
    (he : ∀ f, f ≠ e → s.p0 f = s.phases.get f) (ht : CommandEnds e op s t) : NoReturn s t := by
  have he' : ∀ f, some e ≠ some f → s.p0 f = s.phases.get f := fun f hf => he f fun k => hf (by rw [k])
  cases ht with
  | check c _ _ _ _ ht => subst ht; exact raise_noReturn h he' c
  | stall _ ht => subst ht; exact .of_eq rfl rfl
  | noEntropy rest _ ht =>
    subst ht
    have hn := raise_noReturn (s := { s with entropy := rest }) h he' .entropyFailure
    exact ⟨hn.phases, hn.halted⟩
  | success u n out hu _ _ _ _ ht =>
    subst ht
    refine ⟨fun f hf => ?_, fun hh => hu.halt.trans hh⟩
    rw [State.succeed_phases, State.storeOut_phases, Phases.get_set, hu.phases]
    split
    · decide
    · exact hf
  | violation u hu _ ht => subst ht; exact hu.violation_halted.noReturn

theorem micro_noReturn {s t : State} (h : FlightOk s) (ht : MicroEnds s t) : NoReturn s t := by
  cases ht with
  | runs ht => rw [ht]; exact .of_eq rfl rfl
  | violation own ht => subst ht; exact (raise_halted _ s).noReturn
  | check c _ ht => subst ht; exact raise_noReturn h (fun f hf => p0_of_other hf) c

theorem turn_noReturn {s t : State} (h : Inv s) (ht : TurnEnds s t) : NoReturn s t := by
  cases ht with
  | micro w hu ht =>
    have hf : FlightOk s := h.flight (h.running (by simp [State.busy, hu]))
    have hn := micro_noReturn (s := { s with uop := none }) hf ht
    exact ⟨hn.phases, hn.halted⟩
  | command l i e op _ hl hd hi ht =>
    have hf : FlightOk s := h.flight (h.running (by simp [State.busy, hl]))
    exact command_noReturn hf (fun f hne => hf.phase_eq_p0 hl hd hi hne) ht
  | illegal l _ _ _ ht => subst ht; exact .of_eq rfl rfl
  | idle _ ht => subst ht; exact .of_eq rfl rfl

theorem hostAccess_noReturn {s t : State} (ht : HostEnds s t) : NoReturn s t := by
  cases ht with
  | quiet ht => rw [ht]; exact .of_eq rfl rfl
  | accepted w _ _ ht => subst ht; exact ⟨fun f => (acceptPhases_uninit_iff _ _ f).not.2, id⟩
  | ignored _ _ ht => subst ht; exact .of_eq rfl rfl
  | filled sp bytes _ ht => subst ht; exact .of_eq (by simp) (by simp)

/-- Settles O20: by what a step can do; the reset alone is not `NoReturn`. -/
theorem onlyResetUninstantiates : Obligations.OnlyResetUninstantiates := by
  intro s t h hreset hst
  suffices hn : NoReturn s t from ⟨hn.phases, hn.halted⟩
  cases step_ends hst with
  | turn agenda ht =>
    have hn := turn_noReturn (h.frame (t := { s with agenda := agenda }) rfl) ht
    exact ⟨hn.phases, hn.halted⟩
  | host rest ht =>
    have hn := hostAccess_noReturn ht
    exact ⟨hn.phases, hn.halted⟩
  | entropy a rest ht => subst ht; exact .of_eq rfl rfl
  | reset rest ha _ => exact absurd ha (hreset rest)

end Sys2Proof.Machine
end

section
/-! PROOF. The outcome of a command: the first failing check, all or nothing, or what the answer of the source and the
engine's own part decide (R246 to R250, R271 to R283). -/

namespace Sys2Proof.Machine

/-! ## Taking an outcome other than a contract violation (R241, R271, R282) -/

/-- The whole state after such an outcome on an engine. -/
theorem raise_some_eq {c : Code} (h : c ≠ .contractViolation) (e : Engine) (s : State) :
    s.raise (some e) c = { s with
      err := c, result := -BitVec.ofNat 64 c.number
      phases := s.phases.set e (if c = .reseedRequired then .reseedRequired else s.p0 e)
      inflight := none, uop := none } := by
  have hphases : s.phasesAfter (some e) c =
      s.phases.set e (if c = .reseedRequired then .reseedRequired else s.p0 e) := by
    by_cases hr : c = .reseedRequired
    · subst hr; exact State.phasesAfter_signal e s
    · rw [if_neg hr, State.phasesAfter_error e c s h hr]
  rw [State.raise_of_ne _ c s h, hphases]
  rfl

/-- What such an outcome does not write, on an engine or on none. -/
theorem raise_error_frame {c : Code} (h : c ≠ .contractViolation) (e : Option Engine) (s : State) :
    (s.raise e c).halt = s.halt ∧ (s.raise e c).out = s.out ∧ (s.raise e c).entropy = s.entropy ∧
      SameInputs s (s.raise e c) ∧ ∀ f, SameRegs f s (s.raise e c) :=
  ⟨raise_halt_of_ne h, raise_out h, State.raise_entropy .., raise_inputs .., fun _ => raise_sameRegs s (.inl h)⟩

/-- Settles O25: of the ways a command can end, the stall, a failed check and an entropy failure have such a code. -/
theorem outcomesAreAllOrNothing : Obligations.OutcomesAreAllOrNothing := by
  intro i e op s t hi ht hok hviolation
  cases command_ends hi ht with
  | stall hs h => exact .inl ⟨hs, h⟩
  | check c _ hc hfail _ h =>
    subst h
    rw [State.raise_err, State.raise_entropy, if_neg hfail]
    exact .inr ⟨rfl, raise_some_eq hc e s⟩
  | noEntropy rest hs h =>
    subst h
    rw [State.raise_err, State.raise_entropy, if_pos rfl]
    exact .inr ⟨hs, raise_some_eq (c := .entropyFailure) nofun e { s with entropy := rest }⟩
  | success u n out _ _ _ _ _ h => subst h; exact absurd rfl hok
  | violation u _ _ h => subst h; exact absurd (State.raise_err ..) hviolation

/-! ## A failed check ends the command (R250) -/

theorem exec_instantiate_check {e : Engine} {s : State} {c : Code} (h : instantiateCheck e s = some c) :
    exec (instantiateOf e) s = .next (s.raise (some e) c) := by
  rw [exec_instantiateOf, instantiateFrame, h]

theorem exec_generate_check {e : Engine} {ai : Bool} {s : State} {c : Code} (h : generateCheck e ai s = some c)
    (pr : Bool) : exec (generateOf e ai pr) s = .next (s.raise (some e) c) := by
  rw [exec_generateOf, generateFrame, h]

theorem exec_reseed_check {e : Engine} {ai : Bool} {s : State} {c : Code} (h : reseedCheck e ai s = some c) :
    exec (reseedOf e ai) s = .next (s.raise (some e) c) := by
  rw [exec_reseedOf, reseedFrame, h]

/-- Settles O30: on a present engine the phase check is the first that can fail. -/
theorem illegalState : Obligations.IllegalState := by
  intro e i s hpresent h
  have habsent : ¬hasEngine s.build e = false := by simp [hpresent]
  have hexec : exec i s = .next (s.raise (some e) .illegalState) := by
    rcases h with ⟨rfl, hp⟩ | ⟨⟨ai, pr, rfl⟩ | ⟨ai, rfl⟩, hp⟩
    · exact exec_instantiate_check (by rw [instantiateCheck_eq, if_neg habsent, if_pos hp])
    · exact exec_generate_check (by rw [generateCheck_eq, if_neg habsent, if_pos hp]) pr
    · exact exec_reseed_check (by rw [reseedCheck_eq, if_neg habsent, if_pos hp])
  rw [hexec, raise_some_eq (c := .illegalState) nofun]
  rfl

/-! ## The request check (R274) -/

theorem requestFits_not_iff (e : Engine) (s : State) :
    ¬RequestFits e s ↔ s.build.outCap < s.outLenOp ∨
      (e = .ctr ∧ (if s.build.ctr.isTdea then 2 ^ 12 else 2 ^ 18) < s.outLenOp * 8) ∨
      ((e = .hash ∨ e = .hmac) ∧ 2 ^ 18 < s.outLenOp * 8) := by
  simp only [RequestFits, not_and_or, not_le, Classical.not_imp]

/-- On an engine that is instantiated the request check is the first that can fail. -/
theorem generateCheck_request_iff {e : Engine} {s : State} (hpresent : hasEngine s.build e = true)
    (hphase : s.p0 e ≠ .uninit) (ai : Bool) :
    generateCheck e ai s = some .requestTooLarge ↔ ¬RequestFits e s := by
  rw [generateCheck_eq, if_neg (by simp [hpresent]), if_neg hphase]
  by_cases hr : RequestFits e s
  · rw [if_neg (not_not.2 hr)]
    refine iff_of_false ?_ (not_not.2 hr)
    split_ifs <;> nofun
  · rw [if_pos hr]
    exact iff_of_true rfl hr

/-- The output part succeeds or ends with a contract violation. -/
theorem emitFrame_err (e : Engine) (produce : Option Bytes → Nat → State → Option (State × Bytes)) (n : Nat)
    (a : Option Bytes) (s : State) :
    (emitFrame e produce n a s).err = .ok ∨ (emitFrame e produce n a s).err = .contractViolation := by
  rcases emitFrame_cases e produce n a s with ⟨s', out, -, he⟩ | ⟨-, he⟩ <;> rw [he]
  · exact .inl rfl
  · exact .inr (State.raise_err ..)

/-- A GENERATE waits, has the code of its first failing check, or has a code that no check of a request has. -/
theorem generate_err {e : Engine} {ai pr : Bool} {s t : State} (h : exec (generateOf e ai pr) s = .next t) :
    t = s ∨ generateCheck e ai s = some t.err ∨ t.err ∈ [.ok, .entropyFailure, .contractViolation] := by
  rw [exec_generateOf] at h
  obtain rfl := Host.Outcome.next.inj h
  rcases generateFrame_cases e ai pr (reseedFn Config.prims e) (produceFn Config.prims e) s with ⟨c, hc, hf⟩ |
      ⟨-, ⟨-, hf⟩ | ⟨-, -, hf⟩ | ⟨-, rest, -, hf⟩ | ⟨-, bytes, rest, -, ⟨s2, -, hf⟩ | ⟨-, hf⟩⟩⟩ <;> rw [hf]
  · rw [State.raise_err]; exact .inr (.inl hc)
  · rcases emitFrame_err e (produceFn Config.prims e) s.outLenOp (s.aiIn ai) s with h | h <;> simp [h]
  · exact .inl rfl
  · simp
  · rcases emitFrame_err e (produceFn Config.prims e) s.outLenOp none s2 with h | h <;> simp [h]
  · simp

/-- Settles O29: the code is that of the request check, and only of it. -/
theorem requestTooLarge : Obligations.RequestTooLarge := by
  intro e ai pr s tooLarge hpresent hphase hlarge
  rw [← requestFits_not_iff, ← generateCheck_request_iff hpresent hphase ai] at hlarge
  refine ⟨fun h => ?above, fun h t ht => ?within⟩
  case above =>
    rw [exec_generate_check (hlarge.1 h), raise_some_eq (c := .requestTooLarge) nofun]
    rfl
  case within =>
    rcases generate_err ht with hs | hc | hother
    · exact .inl hs
    · exact .inr fun herr => h (hlarge.2 (herr ▸ hc))
    · exact .inr fun herr => by simp [herr] at hother

/-! ## The outcome as one conditional (R250) -/

/-- A check in front of others, with the code of a command that passes them all. -/
theorem check_getD {p : Prop} [Decidable p] (c d : Code) (x : Option Code) :
    (if p then some c else x).getD d = if p then c else x.getD d := by
  split <;> rfl

theorem instantiateCheck_getD (e : Engine) (s : State) (d : Code) :
    (instantiateCheck e s).getD d =
      if hasEngine s.build e = false then .illegalCommand
      else if s.p0 e ≠ .uninit then .illegalState
      else if ¬SeedInputsFit s then .inputTooLarge
      else if ¬StrengthSupported e s then .strengthNotSupported
      else if s.build.entropyBits < s.strengthOp then .entropyUnderProvisioned
      else d := by
  simp only [instantiateCheck_eq, check_getD, Option.getD_none]

theorem generateCheck_getD (e : Engine) (ai : Bool) (s : State) (d : Code) :
    (generateCheck e ai s).getD d =
      if hasEngine s.build e = false then .illegalCommand
      else if s.p0 e = .uninit then .illegalState
      else if ¬RequestFits e s then .requestTooLarge
      else if ¬InputFits e ai s then .inputTooLarge
      else if ¬BelowCeiling e s then .reseedRequired
      else d := by
  simp only [generateCheck_eq, check_getD, Option.getD_none]

theorem reseedCheck_getD (e : Engine) (ai : Bool) (s : State) (d : Code) :
    (reseedCheck e ai s).getD d =
      if hasEngine s.build e = false then .illegalCommand
      else if s.p0 e = .uninit then .illegalState
      else if ¬InputFits e ai s then .inputTooLarge
      else d := by
  simp only [reseedCheck_eq, check_getD, Option.getD_none]

/-- Settles O26: the code of the first failing check, else what the answer of the source decides. -/
theorem instantiateOutcome : Obligations.InstantiateOutcome := by
  intro e s hlegal hanswer
  rw [← instantiateCheck_getD]
  cases hc : instantiateCheck e s with
  | some c => exact ⟨_, exec_instantiate_check hc, State.raise_busy .., State.raise_err ..⟩
  | none =>
    have hready := (instantiateCheck_none e s).1 hc
    match hs : s.entropy with
    | [] => exact absurd hs (hanswer hready)
    | .fail :: rest =>
      exact ⟨_, (entropyFailureAndStall e _ false s (.inl ⟨rfl, hready⟩)).1 rest hs, rfl, by simp⟩
    | .ok entropy :: rest =>
      obtain ⟨u, hu, -⟩ := seedFn_some (s := { s with entropy := rest }) hlegal Config.prims e s.strengthOp
        (entropy ++ s.nonceIn ++ s.persIn)
      exact ⟨_, exec_instantiate_succeeds hready hs hu, rfl, by simp⟩

/-- Settles O28: as INSTANTIATE, with the reseed algorithm in the place of the seeding. -/
theorem reseedOutcome : Obligations.ReseedOutcome := by
  intro e ai s hlegal hwidths hanswer
  rw [← reseedCheck_getD]
  cases hc : reseedCheck e ai s with
  | some c => exact ⟨_, exec_reseed_check hc, State.raise_busy .., State.raise_err ..⟩
  | none =>
    have hready := (reseedCheck_none e ai s).1 hc
    match hs : s.entropy with
    | [] => exact absurd hs (hanswer hready)
    | .fail :: rest =>
      exact ⟨_, (entropyFailureAndStall e _ ai s (.inr (.inr ⟨rfl, hready⟩))).1 rest hs, rfl, by simp⟩
    | .ok entropy :: rest =>
      obtain ⟨u, hu, -⟩ := reseedFn_some (s := { s with entropy := rest }) hlegal (hwidths.regs_entropy rest e)
        Config.prims entropy (orEmpty (s.aiIn ai))
      exact ⟨_, exec_reseed_succeeds hready hs hu, rfl, by simp⟩

/-- The output part on a legal build succeeds, or, for Dual-EC alone, ends with a contract violation (R277). -/
theorem emitFrame_ends {e : Engine} {s : State} (hlegal : buildLegal s.build = true) (hregs : RegsOk e s)
    (a : Option Bytes) (n : Nat) :
    (emitFrame e (produceFn Config.prims e) n a s).busy = false ∧
      ((emitFrame e (produceFn Config.prims e) n a s).err = .ok ∨
        (e = .dualec ∧ (emitFrame e (produceFn Config.prims e) n a s).err = .contractViolation)) := by
  rcases produceFn_cases hlegal hregs Config.prims a n with ⟨u, out, hu, -⟩ | ⟨hnone, he⟩
  · rw [emitFrame_some hu]
    exact ⟨rfl, .inl rfl⟩
  · rw [emitFrame_none hnone]
    exact ⟨State.raise_busy .., .inr ⟨he, State.raise_err ..⟩⟩

/-- Settles O27: the checks as one conditional; after them the output part, from the reseeded registers where the
source has answered. -/
theorem generateOutcome : Obligations.GenerateOutcome := by
  intro e ai pr s hlegal hwidths hanswer
  simp only [← generateCheck_getD]
  cases hc : generateCheck e ai s with
  | some c => exact ⟨_, .ok, exec_generate_check hc pr, State.raise_busy .., .inl rfl, State.raise_err ..⟩
  | none =>
    have hready := (generateCheck_none e ai s).1 hc
    cases pr with
    | false =>
      obtain ⟨hbusy, hlast⟩ := emitFrame_ends hlegal (hwidths.regs e) (s.aiIn ai) s.outLenOp
      exact ⟨_, _, exec_generate_plain_emits hready, hbusy, hlast, by simp⟩
    | true =>
      match hs : s.entropy with
      | [] => exact absurd hs (hanswer rfl hready)
      | .fail :: rest =>
        exact ⟨_, .ok, (entropyFailureAndStall e _ ai s (.inr (.inl ⟨rfl, hready⟩))).1 rest hs, rfl, .inl rfl,
          by simp⟩
      | .ok entropy :: rest =>
        obtain ⟨v, hv, htouched, hregs, -⟩ := reseedFn_some (s := { s with entropy := rest }) hlegal
          (hwidths.regs_entropy rest e) Config.prims entropy (orEmpty (s.aiIn ai))
        have hbuild : v.build = s.build := htouched.advanced.inputs.build
        obtain ⟨hbusy, hlast⟩ := emitFrame_ends (hbuild ▸ hlegal) hregs none s.outLenOp
        exact ⟨_, _, exec_generate_resistant_emits hready hs hv, hbusy, hlast, by simp⟩

/-! ## `STRENGTH_CHK` (R248) -/

theorem exec_strengthChk_none {s : State} (h : strengthCheck s.build s.dp.engine s.strengthOp = none) :
    exec .strengthChk s = .next s := by
  simp only [exec, execStrengthChk, h]

theorem exec_strengthChk_some {s : State} {c : Code} (h : strengthCheck s.build s.dp.engine s.strengthOp = some c) :
    exec .strengthChk s = .next (s.raise (s.target.map (·.1)) c) := by
  simp only [exec, execStrengthChk, h]

/-- Settles O60: the three cases of the strength check, two of which take an outcome that is no contract violation. -/
theorem strengthChkCompletes : Obligations.StrengthChkCompletes := by
  intro s
  have hcheck := strengthCheck_eq s.dp.engine s
  refine ⟨fun hsupported hprovided => ?passes, fun hunsupported => ?unsupported, fun hsupported hshort => ?unprovided⟩
  case passes =>
    rw [if_neg (not_not.2 hsupported), if_neg hprovided.not_gt] at hcheck
    exact exec_strengthChk_none hcheck
  case unsupported =>
    rw [if_pos hunsupported] at hcheck
    exact ⟨_, exec_strengthChk_some hcheck, State.raise_err .., State.raise_result ..,
      State.raise_phases_target _ s nofun nofun, State.raise_busy ..,
      raise_error_frame (c := .strengthNotSupported) nofun _ s⟩
  case unprovided =>
    rw [if_neg (not_not.2 hsupported), if_pos hshort] at hcheck
    exact ⟨_, exec_strengthChk_some hcheck, State.raise_err .., State.raise_result ..,
      State.raise_phases_target _ s nofun nofun, State.raise_busy ..,
      raise_error_frame (c := .entropyUnderProvisioned) nofun _ s⟩

end Sys2Proof.Machine
end

section
/-! PROOF. The host's access while a command runs, and the hardware reset (R300, R310). -/

namespace Sys2Proof.Machine

/-! ## The single-owner hazard (R310) -/

theorem hostAccess_wr_busy {s : State} (h : s.busy = true) {n : Nat} (hn : n < 8) (v : Word) :
    hostAccess (.wr n v) s = .fault .hostHazard := by
  rw [hostAccess, decide_eq_true hn, guarded_busy h]

theorem hostAccess_rd_busy {s : State} (h : s.busy = true) {n : Nat} (hn : n < 8) (hstatus : n ≠ 1) :
    hostAccess (.rd n) s = .fault .hostHazard := by
  rw [hostAccess, decide_eq_true hn, bne_iff_ne.2 hstatus, Bool.and_true, guarded_busy h]

theorem hostAccess_fill_busy {s : State} (h : s.busy = true) (sp : Space) (bytes : Bytes) :
    hostAccess (.fill sp bytes) s = .fault .hostHazard :=
  guarded_busy h _

theorem hostAccess_dump_busy {s : State} (h : s.busy = true) (sp : Space) (n : Nat) :
    hostAccess (.dump sp n) s = .fault .hostHazard :=
  guarded_busy h _

/-- The read of `STATUS` is the one access the guard lets through, busy or not. -/
theorem hostAccess_rd_status (s : State) :
    hostAccess (.rd 1) s = .next { s with hostReg := s.status.setWidth 64 } :=
  (guarded_absent s _).trans (readReg_some rfl)

/-- Settles O13: the guard stops every access but the read of `STATUS`, which it lets through. The agenda that the
step takes its input from is no part of `BUSY`. -/
theorem busyHazard : Obligations.BusyHazard := by
  intro s h rest hb ha
  have hbusy : ({ s with agenda := rest } : State).busy = true := hb
  refine ⟨?write, ?read, ?fill, ?dump, ?status⟩
  case write =>
    rintro n v hn rfl
    rw [step_host ha nofun, hostAccess_wr_busy hbusy hn]
  case read =>
    rintro n hn hstatus rfl
    rw [step_host ha nofun, hostAccess_rd_busy hbusy hn hstatus]
  case fill =>
    rintro sp bytes rfl
    rw [step_host ha nofun, hostAccess_fill_busy hbusy]
  case dump =>
    rintro sp n rfl
    rw [step_host ha nofun, hostAccess_dump_busy hbusy]
  case status =>
    rintro rfl
    rw [step_host ha nofun, hostAccess_rd_status]
    rfl

/-! ## The hardware reset (R300) -/

/-- No command in flight and no micro-operation issued: the block is idle. -/
theorem hwReset_busy (s : State) : s.hwReset.busy = false := by
  rw [State.busy, State.hwReset_inflight, State.hwReset_uop]
  rfl

/-- Every field of `STATUS` is 0 after the reset: the phases, `BUSY`, `HALT` and `ERR`. -/
theorem hwReset_status (s : State) : s.hwReset.status = 0 := by
  rw [State.status, hwReset_busy, State.hwReset_phases, State.hwReset_halt, State.hwReset_err]
  rfl

/-- Settles O16: the reset is one step, to the state `hwReset` gives with the rest of the agenda; that agenda is no part
of `STATUS`. -/
theorem hardwareReset : Obligations.HardwareReset := by
  intro s rest ha
  have hstatus : ({ s.hwReset with agenda := rest } : State).status = 0 := hwReset_status s
  exact ⟨_, step_reset ha, rfl, s.hwReset_phases, s.hwReset_cmd, s.hwReset_result, s.hwReset_strength,
    s.hwReset_outLen, s.hwReset_aiLen, s.hwReset_persLen, s.hwReset_nonceLen, hstatus, s.hwReset_halt, s.hwReset_err,
    s.hwReset_inflight, s.hwReset_uop, s.hwReset_build⟩

end Sys2Proof.Machine
end
